-- ==== Sys2Proof/Word.lean ====
section
/-! DEFINITION. The widths the spec gives its quantities (R8, R10), and the pin handle (R83). -/

namespace Sys2Proof

/-- An 8-bit register, counter or operand byte (R68). -/
abbrev Byte := BitVec 8

/-- The command word `CMD`, `W_CMD = 40` bits (R8, R80). -/
abbrev CmdWord := BitVec 40

/-- The `SLPMS` operand and `MSCNT`, `W_MS = 16` bits (R8, R24). -/
abbrev Millis := BitVec 16

/-- `SR` and `QOUT`, `8 * N_DEV = 16` bits with `N_DEV = 2` (R8, R28). -/
abbrev ChainWord := BitVec 16

/-- A pin handle, "a (port reference, bit index) pair" (R15, R83): port 0 to 31, bit 0 to 7. -/
structure Pin where
  port : BitVec 5
  bit  : BitVec 3
  deriving DecidableEq, Repr

end Sys2Proof
end

