-- ==== Sys2Proof/Config.lean ====
section
/-! DEFINITION. The parameters of the block (R7 to R9, R31, R166) and the free values: what the
spec leaves without a value while the machine goes on. A free value is an opaque constant applied
to the draw counter of the state, so no statement can rest on what it is. -/

namespace Sys2Proof

/-- The parameters that are configuration and not state (R9, R31, R42, U19). They are immutable:
no operation writes one. -/
structure Config where
  /-- Number of GPIO ports, 1 to 32 (R9). -/
  nports : Nat
  /-- The pins wired to the chain's clock, latch and data lines (R9, R31). -/
  clkPin : Pin
  latPin : Pin
  datPin : Pin
  /-- Polarity flag of the display (R9, R129). -/
  isCommAnode : Bool
  /-- Per-digit dwell in milliseconds (R9, D10). -/
  dwellMs : Millis
  /-- Busy-delay units between edge transitions: "a tunable constant", reference value 2 (R7). -/
  delaySteps : Byte
  /-- Clock frequency in hertz (R9). -/
  fClk : Nat
  /-- Sleep-timer prescaler and reload (R9, R139). -/
  prescS : Nat
  reloadS : Byte
  /-- Clock cycles of one busy-delay unit (R9, R137). -/
  tUnit : Nat
  /-- Whether a taken tick interrupt ends a sleep (R9, R142, R183, D14). -/
  tickWakes : Bool
  /-- The symbol ROM `SYMTAB[0..9]` (R40, R166, U19). -/
  symtab : List Byte
  deriving DecidableEq, Repr

/-- `TICKS_PER_SEC` (R7). -/
def Config.ticksPerSec : Byte := 250#8

/-- `RELOAD_T` (R7). -/
def Config.reloadT : Byte := 239#8

/-- `PRESC_T` (R7). No state rule reads it: it only spaces the count pulses (R170). -/
def Config.prescT : Nat := 256

/-- `N_SYM` (R7). -/
def Config.nSym : Nat := 10

/-- The ten entries of R166. -/
def Config.referenceSymtab : List Byte :=
  [0x3F#8, 0x06#8, 0x5B#8, 0x4F#8, 0x66#8, 0x6D#8, 0x7D#8, 0x07#8, 0x7F#8, 0x6F#8]

/-- `SYM_DP` and `SYM_DASH`, glyph bytes the host passes to `IND`; no rule of the block reads
them (R167). -/
def Config.symDp : Byte := 0x80#8
def Config.symDash : Byte := 0x40#8

/-- One instance of the open parameters: the configuration of the spec's derived vectors
(95_test_vectors.md: `NPORTS >= 2`, pins P0.0, P0.1, P0.2, `DELAY_STEPS = 2`, `DWELL_MS = 1`).
DESIGN CHOICE for the parameters those vectors leave open (log 2): a clock for which R151's
1/250 second holds, and the sleep timer that R139 then asks for. Only `State.reset` names it:
statements hold for every configuration. -/
def Config.reference : Config where
  nports := 4
  clkPin := ⟨0#5, 0#3⟩
  latPin := ⟨0#5, 1#3⟩
  datPin := ⟨0#5, 2#3⟩
  isCommAnode := false
  dwellMs := 1#16
  delaySteps := 2#8
  fClk := 1088000
  prescS := 64
  reloadS := 239#8
  tUnit := 1
  tickWakes := false
  symtab := Config.referenceSymtab

/-! ### Free values

Each is drawn with the state's draw counter: the `n`-th draw. -/

/-- The chain registers while a display pin is an input (R113, U11; log 6). -/
opaque Config.freeSr : Nat → ChainWord
opaque Config.freeQout : Nat → ChainWord
opaque Config.freeClkPrev : Nat → Bool
opaque Config.freeLatPrev : Nat → Bool

/-- The sequencer temporaries between the operations that use them (R23, U10; log 7). -/
opaque Config.freeShreg : Nat → Byte
opaque Config.freeBitIdx : Nat → Int
opaque Config.freeDigIdx : Nat → Int
opaque Config.freeMask : Nat → Byte
opaque Config.freeSymbuf0 : Nat → Byte
opaque Config.freeSymbuf1 : Nat → Byte
opaque Config.freeSymbuf2 : Nat → Byte
opaque Config.freeSymbuf3 : Nat → Byte
opaque Config.freeTmp : Nat → Byte

end Sys2Proof
end

