-- ==== Sys2Proof/Syntax.lean ====
section
/-! DEFINITION. The fifteen commands (R86), one constructor per row of spec/opcode_table.json. -/

namespace Sys2Proof

/-- The direction operand of `PDIR` (R84). -/
inductive Direction where
  | input
  | output
  deriving DecidableEq, Repr

/-- A command (R86), its operands assembled as R82 to R85 say. -/
inductive Instr where
  /-- Set pin direction (R100). -/
  | pdir (pin : Pin) (dir : Direction)
  /-- Read pin level (R102). -/
  | prd (pin : Pin)
  /-- Write pin level: `true` set, `false` clear (R84, R104). -/
  | pwr (pin : Pin) (lvl : Bool)
  /-- Initialize the display lines (R125). -/
  | dinit
  /-- Shift one byte into the chain (R115). -/
  | shb (byte : Byte)
  /-- Latch the chain to its outputs (R116). -/
  | lat
  /-- One refresh pass over the four digits, `s0` the leftmost (R127, R128). -/
  | ind (s0 s1 s2 s3 : Byte)
  /-- Busy delay (R135). -/
  | bdly (units : Byte)
  /-- Low-power sleep for a number of milliseconds (R138). -/
  | slpms (ms : Millis)
  /-- Configure and start the tick timer (R150). -/
  | tstart
  /-- Read the seconds counter (R152). -/
  | secrd
  /-- Reset the seconds counter (R154). -/
  | secclr
  /-- Enable interrupts globally (R156). -/
  | ien
  /-- Disable interrupts globally (R157). -/
  | idis
  /-- Look up a digit in the symbol ROM (R165). -/
  | sym (digit : Byte)
  deriving DecidableEq, Repr

end Sys2Proof
end

