-- ==== Sys2Proof/Machine/State.lean ====
section
/-! DEFINITION. The state of the block (R41), as plain data; the micro-steps of R12 that `upc`
holds; the parameters of the step relation (R42), a type apart, which State pairs with the block's
state because the host's interface gives a step no other argument (log 1); the reasons a step can stop; the state after reset. -/

namespace Sys2Proof.Machine

/-- Storage cells by address: strictly rising addresses, no cell at the value an unlisted address
reads as. -/
abbrev Memory := List Host.Cell

/-- A hardware timer: `CNT`, `RUN`, `IE`, `OVF` (R33, R34, R170). -/
structure Timer where
  cnt : Byte
  run : Bool
  ie  : Bool
  ovf : Bool
  deriving DecidableEq, Repr

/-- The 74HC595 chain: `SR`, `QOUT` (R28), `CLKPREV`, `LATPREV` (R30). -/
structure Chain where
  sr      : ChainWord
  qout    : ChainWord
  clkPrev : Bool
  latPrev : Bool
  deriving DecidableEq, Repr

/-- `SYMBUF[0..3]` (R23). -/
structure Symbols where
  s0 : Byte
  s1 : Byte
  s2 : Byte
  s3 : Byte
  deriving DecidableEq, Repr

/-- The sequencer temporaries (R23), live only while the operation that uses them is in progress. -/
structure Temps where
  shreg  : Byte
  bitIdx : Int
  digIdx : Int
  mask   : Byte
  symbuf : Symbols
  tmp    : Byte
  deriving DecidableEq, Repr

/-- Where a pin write inside an operation takes its level from: a constant of the operation's list,
or `SHREG[BITIDX]` read when the micro-step runs (R115). -/
inductive LevelSrc where
  | lit (b : Bool)
  | shregBit
  deriving DecidableEq, Repr

/-- Where `SHB` takes its byte from: its operand, or, called from `IND`, `SHREG` or `MASK` (R128). -/
inductive ByteSrc where
  | lit (b : Byte)
  | shreg
  | mask
  deriving DecidableEq, Repr

/-- The micro-steps of the operation rules: what stands between two `;;` (R12). -/
inductive Micro where
  /-- `TMP <- MemRead(DIRADDR(p), 1)` (R100). -/
  | readDir (pin : Pin)
  /-- `MemWrite(DIRADDR(p), 1, TMP with bit k)` (R100). -/
  | writeDir (pin : Pin) (dir : Direction)
  /-- `TMP <- MemRead(OUTADDR(p), 1)` (R104). -/
  | readOut (pin : Pin)
  /-- `MemWrite(OUTADDR(p), 1, TMP with bit k)` (R104). -/
  | writeOut (pin : Pin) (lvl : LevelSrc)
  /-- `TMP <- MemRead(INADDR(p), 1) ; RES <- zext_8(TMP[k])` (R102). -/
  | samplePin (pin : Pin)
  /-- `SHREG <- imm8 ; BITIDX <- 7` (R115). -/
  | loadShift (src : ByteSrc)
  /-- `BITIDX <- BITIDX - 1` (R115). -/
  | nextBit
  /-- `DLY <- imm8` (R135). -/
  | loadDelay (units : Byte)
  /-- `DLY <- DLY - 1` (R135). -/
  | delayUnit
  /-- `MSCNT <- imm16` (R138). -/
  | loadMillis (ms : Millis)
  /-- Step `S1` (R138). -/
  | armTimer
  /-- Step `S2` (R138). -/
  | maskInterrupts
  /-- Step `S3` (R138). -/
  | armSleep
  /-- Step `S4` (R138). -/
  | enterSleep
  /-- `MSCNT <- MSCNT - 1`, after the wait `S5` (R138). -/
  | countMilli
  /-- Step `S6` (R138). -/
  | disarmSleep
  /-- The first micro-step of `IND`: `SYMBUF`, `DIGIDX <- 3`, `MASK <- 0x01` (R128). -/
  | loadSymbols (s0 s1 s2 s3 : Byte)
  /-- `SHREG <- SYMBUF[DIGIDX]`, complemented for a common-cathode display (R128, R129). -/
  | loadSegment
  /-- `MASK <- MASK << 1 ; DIGIDX <- DIGIDX - 1` (R128). -/
  | nextDigit
  /-- The micro-step of `TSTART` (R150). -/
  | startTick
  /-- `RES <- SEC` (R152). -/
  | readSeconds
  /-- `SEC <- 0` (R154). -/
  | clearSeconds
  /-- `GIE <- 1` (R156). -/
  | enableInterrupts
  /-- `GIE <- 0` (R157). -/
  | disableInterrupts
  /-- `RES <- SYMTAB[imm8]` (R165). -/
  | readSymbol (digit : Byte)
  deriving DecidableEq, Repr

/-- A sequencer position that is not idle: the operation in progress and the micro-steps of it that
are still to run (R22). -/
structure Upc where
  op   : Instr
  todo : List Micro
  deriving DecidableEq, Repr

/-- The two interrupt sources (R173). -/
inductive Source where
  | tickOvf
  | wakeOvf
  deriving DecidableEq, Repr

/-- What happens between two micro-steps of the main context, other than the main context. -/
inductive Event where
  /-- A count pulse of the tick timer (R170, R171). -/
  | pulseT
  /-- A count pulse of the sleep timer (R170, R172). -/
  | pulseS
  /-- The moment an interrupt is taken, if it is takeable (R176, R177). -/
  | take (x : Source)
  /-- The environment drives the input levels of a port (R27). -/
  | ext (port : Nat) (levels : Byte)
  deriving DecidableEq, Repr

/-- What happens in one gap between two micro-steps, or between two commands, in order (R176). -/
abbrev Gap := List Event

/-- A rising edge the driven chain saw: a clock edge with the data level it took in (R110), or a
latch edge with the value it copied to the outputs (R111). -/
inductive Edge where
  | clk (data : Bool)
  | lat (value : ChainWord)
  deriving DecidableEq, Repr

/-- The parameters of the step relation (R42): what decides a step and is no state of the block. -/
structure Inputs where
  /-- The configuration with its symbol table (R9, R31): no step changes it. -/
  cfg      : Config
  /-- The command words the host will still issue, the next one first (R16, R42). -/
  cmds     : List CmdWord
  /-- The environment's and the timers' coming moves, one entry a gap, the next one first
  (R42, R170, R176). -/
  env      : List Gap
  /-- `EXT`: the level the environment drives on each port's input pins, by port (R27). -/
  ext      : Memory
  deriving DecidableEq, Repr

/-- The machine state: all that R41 lists and nothing of R42. The last two fields are the model's
own (log 6, log 11). -/
structure Block where
  /-- `CMD`, the command word being executed (R20). -/
  cmd      : CmdWord
  /-- `RES`, the value returned by the last of `PRD`, `SECRD`, `SYM` (R20). -/
  res      : Byte
  /-- `BUSY` (R21). -/
  busy     : Bool
  /-- `upc`, the sequencer position; `none` is `idle` (R22). -/
  upc      : Option Upc
  /-- `SHREG`, `BITIDX`, `DIGIDX`, `MASK`, `SYMBUF`, `TMP` (R23). -/
  temps    : Temps
  /-- `DLY` (R24). -/
  dly      : Byte
  /-- `MSCNT` (R24). -/
  mscnt    : Millis
  /-- The I/O register space: `DIR[p]` at `3p`, `OUT[p]` at `3p + 2` (R25, R60, R61). -/
  io       : Memory
  /-- `SR`, `QOUT`, `CLKPREV`, `LATPREV` (R28, R30). -/
  chain    : Chain
  /-- `TICK` (R32). -/
  tick     : Byte
  /-- `SEC` (R32). -/
  sec      : Byte
  /-- `CNT_T`, `RUN_T`, `IE_T`, `OVF_T` (R33). -/
  tmrT     : Timer
  /-- `CNT_S`, `RUN_S`, `IE_S`, `OVF_S` (R34). -/
  tmrS     : Timer
  /-- `GIE` (R35). -/
  gie      : Bool
  /-- `SE` (R36). -/
  se       : Bool
  /-- `SLEEPING` (R37). -/
  sleeping : Bool
  /-- `CMDERR` (R38). -/
  cmderr   : Bool
  /-- How many free values have been drawn: the argument of the next draw (log 6, log 7). -/
  draws    : Nat
  /-- What an observer at the chain's lines has seen, newest first: an observation of the outputs,
  which no step reads (log 11). -/
  edges    : List Edge
  deriving DecidableEq, Repr

/-- What the host's interface calls the state, the one argument it gives a step: the parameters of
the step relation beside the machine state (R42, log 1). -/
structure State extends Inputs, Block
  deriving DecidableEq, Repr

/-- Why the machine stops. Raised by `State.memRead` and `State.memWrite` only, and by no command
under a well-formed configuration (R6, R65): safe. -/
inductive Fault where
  /-- An access to an I/O address that is no register, `addr >= 3 * NPORTS` (R60, R65). Safe. -/
  | noRegister (addr : Nat)
  /-- A write of a read-only input register `IN[p]`, which "a model need give no meaning"
  (R25, R63). Safe. -/
  | inputRegister (addr : Nat)
  deriving DecidableEq, Repr

/-- Why a step is given no meaning. -/
inductive Refusal where
  /-- An instruction that has no meaning yet. Raised by `exec`'s arms only: none is left. Safe. -/
  | notModelled (mnemonic : String)
  /-- "A configuration in which two of the three pins are equal, or a port is not below `NPORTS`,
  is ill-formed and a model refuses it" (R31). Raised by `step`. Safe. -/
  | illFormedConfig
  deriving DecidableEq, Repr

/-- The outcome of a step of this machine. -/
abbrev Outcome := Host.Outcome State Fault Refusal

/-- A stopped timer with nothing enabled or pending (R33, R34). Its counter's 0 is the model's
(log 4). -/
def Timer.reset : Timer := ⟨0#8, false, false, false⟩

/-- The chain at reset: unspecified (R28, R30, R202), and every value here the model's (log 4).
Nothing rests on it: all pins are inputs after reset, so the chain is free from the first gap on
(R113). -/
def Chain.reset : Chain := ⟨0#16, 0#16, false, false⟩

/-- The temporaries at reset: unspecified (R23), and every value here the model's (log 4). -/
def Temps.reset : Temps := ⟨0#8, 0, 0, 0#8, ⟨0#8, 0#8, 0#8, 0#8⟩, 0#8⟩

/-- The machine state after reset, whatever the parameters (R41, R201). `CMD`, `RES`, `DLY`,
`MSCNT`, the timer counters, the chain and the temporaries are unspecified by R41; their zeros are
the model's (log 4). -/
def Block.reset : Block where
  cmd := 0#40
  res := 0#8
  busy := false
  upc := none
  temps := Temps.reset
  dly := 0#8
  mscnt := 0#16
  io := []
  chain := Chain.reset
  tick := 0#8
  sec := 0#8
  tmrT := Timer.reset
  tmrS := Timer.reset
  gie := false
  se := false
  sleeping := false
  cmderr := false
  draws := 0
  edges := []

/-- A configuration, with nothing for the host to issue and nothing said of the environment. -/
def Inputs.silent (c : Config) : Inputs where
  cfg := c
  cmds := []
  env := []
  ext := []

/-- The state after reset, with the parameters under which the run goes on (R41, R42). -/
def State.resetUnder (p : Inputs) : State := ⟨p, Block.reset⟩

/-- The state after reset, under the reference configuration and nothing else (log 2). -/
def State.reset : State := State.resetUnder (Inputs.silent Config.reference)

end Sys2Proof.Machine
end

