-- ==== Sys2Proof/Machine/Operands.lean ====
section
/-! DEFINITION. The operand forms: register addresses of a pin (R11, R61), the single-bit set and
clear (R17), and the values an operation's inner calls take from the temporaries (R115, R128). -/

namespace Sys2Proof.Machine

/-- `DIRADDR(p) = 3p` (R11, R61). -/
def dirAddr (pin : Pin) : Nat := 3 * pin.port.toNat

/-- `INADDR(p) = 3p + 1` (R11, R61). -/
def inAddr (pin : Pin) : Nat := 3 * pin.port.toNat + 1

/-- `OUTADDR(p) = 3p + 2` (R11, R61). -/
def outAddr (pin : Pin) : Nat := 3 * pin.port.toNat + 2

/-- `v | (1 << k)` or `v & ~(1 << k)` (R17, R100, R104). -/
def putBit (v : Byte) (k : BitVec 3) (b : Bool) : Byte :=
  if b then v ||| (1#8 <<< k.toNat) else v &&& ~~~(1#8 <<< k.toNat)

/-- `v[k]`. -/
def getBit (v : Byte) (k : BitVec 3) : Bool := v.getLsbD k.toNat

/-- `zext_8` of one bit (R102). -/
def zextBit (b : Bool) : Byte := if b then 1#8 else 0#8

/-- `SYMBUF[i]`, `i` in 0 to 3 (R23). -/
def Symbols.get (b : Symbols) (i : Int) : Byte :=
  if i = 0 then b.s0 else if i = 1 then b.s1 else if i = 2 then b.s2 else b.s3

/-- The level a pin write drives (R115). -/
def LevelSrc.value (l : LevelSrc) (t : Temps) : Bool :=
  match l with
  | .lit b => b
  | .shregBit => t.shreg.getLsbD t.bitIdx.toNat

/-- The byte `SHB` transmits (R115, R128). -/
def ByteSrc.value (b : ByteSrc) (t : Temps) : Byte :=
  match b with
  | .lit v => v
  | .shreg => t.shreg
  | .mask => t.mask

/-- The segment byte as shifted: raw for a common-anode display, complemented for a common-cathode
one (R128, R129). -/
def segmentByte (c : Config) (v : Byte) : Byte := if c.isCommAnode then v else ~~~v

/-- `{ SR[14:0], d }` (R110). -/
def shiftIn (sr : ChainWord) (d : Bool) : ChainWord := sr.extractLsb' 0 15 ++ BitVec.ofBool d

/-- `SYMTAB[i]` (R40, R165). -/
def symtabEntry (c : Config) (digit : Byte) : Byte := c.symtab.getD digit.toNat 0#8

end Sys2Proof.Machine
end

