-- ==== Sys2Proof/Machine/Flags.lean ====
section
/-! DEFINITION. The status flags and the two timers' bits (R21, R33 to R38): the block has no
arithmetic condition codes (R39). -/

namespace Sys2Proof.Machine

/-- The label of an interrupt source (R186). No register records it. -/
def Source.cause : Source → Nat
  | .tickOvf => 1
  | .wakeOvf => 2

/-- The timer of an interrupt source (R173). -/
def State.timer (s : State) : Source → Timer
  | .tickOvf => s.tmrT
  | .wakeOvf => s.tmrS

/-- Write the timer of an interrupt source. -/
def State.setTimer (s : State) (x : Source) (t : Timer) : State :=
  match x with
  | .tickOvf => { s with tmrT := t }
  | .wakeOvf => { s with tmrS := t }

/-- `GIE = 1` and `OVF_x = 1` and `IE_x = 1` (R176). -/
def State.takeable (s : State) (x : Source) : Bool :=
  s.gie && (s.timer x).ovf && (s.timer x).ie

/-- Whether taking the interrupt ends a sleep (R183). -/
def State.wakes (s : State) : Source → Bool
  | .tickOvf => s.cfg.tickWakes
  | .wakeOvf => true

/-- One count pulse: nothing while `RUN = 0`; else count up, and set `OVF` on the wrap from `0xFF`
(R171, R172, R175). -/
def Timer.pulse (t : Timer) : Timer :=
  if t.run then
    if t.cnt = 0xFF#8 then { t with cnt := 0#8, ovf := true } else { t with cnt := t.cnt + 1#8 }
  else t

/-- `CNT <- reload ; OVF <- 0 ; IE <- 1 ; RUN <- 1` (R138 `S1`, R150). -/
def Timer.arm (reload : Byte) : Timer := ⟨reload, true, true, false⟩

/-- The operations that use a sequencer temporary (R23): those that change or read a pin. -/
def usesTemps : Instr → Bool
  | .pdir _ _ => true
  | .prd _ => true
  | .pwr _ _ => true
  | .dinit => true
  | .shb _ => true
  | .lat => true
  | .ind _ _ _ _ => true
  | .bdly _ => false
  | .slpms _ => false
  | .tstart => false
  | .secrd => false
  | .secclr => false
  | .ien => false
  | .idis => false
  | .sym _ => false

/-- The temporaries hold no value outside the operation that uses them (R23): free values. -/
def State.freeTemps (s : State) : State :=
  { s with
    temps :=
      { shreg := Config.freeShreg s.draws
        bitIdx := Config.freeBitIdx s.draws
        digIdx := Config.freeDigIdx s.draws
        mask := Config.freeMask s.draws
        symbuf := ⟨Config.freeSymbuf0 s.draws, Config.freeSymbuf1 s.draws,
          Config.freeSymbuf2 s.draws, Config.freeSymbuf3 s.draws⟩
        tmp := Config.freeTmp s.draws }
    draws := s.draws + 1 }

/-- The end of a command: `upc` idle, `BUSY` 0 (R21, R22), and the temporaries dead (R23). -/
def State.finish (op : Instr) (s : State) : State :=
  if usesTemps op then { s with busy := false, upc := none }.freeTemps
  else { s with busy := false, upc := none }

/-- A refused command: `CMDERR <- 1`, `BUSY <- 0`, no micro-step (R38, R90). -/
def State.refuseCommand (s : State) : State :=
  { s with cmderr := true, busy := false, upc := none }

end Sys2Proof.Machine
end

