-- ==== Sys2Proof/Machine/Ops.lean ====
section
/-! DEFINITION. The operations shared by the commands: the I/O register space (R60 to R63), the
levels of the lines (R26, R27), the chain (R110 to R113), the timers and the taking of an interrupt
(R170 to R183), and what happens in a gap between two micro-steps (R176). -/

namespace Sys2Proof.Machine

/-! ### Cells -/

/-- What an unlisted address reads as: the reset value of `DIR[p]` and `OUT[p]`, `0x00` (R25). -/
def Memory.unlisted : Byte := 0x00#8

/-- Read a cell. -/
def Memory.get : Memory → Nat → Byte
  | [], _ => Memory.unlisted
  | (a, v) :: rest, x => if x = a then v else Memory.get rest x

/-- Put a cell in front of higher ones, unless it holds what an unlisted address reads as. -/
def Memory.cons (x : Nat) (v : Byte) (m : Memory) : Memory :=
  if v = Memory.unlisted then m else (x, v) :: m

/-- Write a cell, keeping the form. -/
def Memory.put : Memory → Nat → Byte → Memory
  | [], x, v => Memory.cons x v []
  | (a, u) :: rest, x, v =>
    if x < a then Memory.cons x v ((a, u) :: rest)
    else if x = a then Memory.cons x v rest
    else (a, u) :: Memory.put rest x v

/-- The canonical form: addresses strictly rising, no cell at the unlisted value. -/
def Memory.wf : Memory → Bool
  | [] => true
  | (a, v) :: rest => v != Memory.unlisted && rest.all (fun c => decide (a < c.1)) && Memory.wf rest

/-! ### Lines and the I/O register space -/

/-- `DIR[p]` (R25). -/
def State.dir (s : State) (p : Nat) : Byte := Memory.get s.io (3 * p)

/-- `OUT[p]` (R25). -/
def State.out (s : State) (p : Nat) : Byte := Memory.get s.io (3 * p + 2)

/-- `EXT[p]`, the environment's levels (R27). -/
def State.extLevels (s : State) (p : Nat) : Byte := Memory.get s.ext p

/-- `level((p,k))` (R27). -/
def State.level (s : State) (pin : Pin) : Bool :=
  if getBit (s.dir pin.port.toNat) pin.bit then getBit (s.out pin.port.toNat) pin.bit
  else getBit (s.extLevels pin.port.toNat) pin.bit

/-- `IN[p]`: bit `k` is `level((p,k))` (R26, R62). -/
def State.inByte (s : State) (p : Nat) : Byte :=
  (s.dir p &&& s.out p) ||| (~~~s.dir p &&& s.extLevels p)

/-- The pin is an output (R25). -/
def State.isOutput (s : State) (pin : Pin) : Bool := getBit (s.dir pin.port.toNat) pin.bit

/-- All three display pins are outputs: no line of the chain is undriven (R113, R115). -/
def State.driven (s : State) : Bool :=
  s.isOutput s.cfg.clkPin && s.isOutput s.cfg.latPin && s.isOutput s.cfg.datPin

/-- An undriven line may make any number of spurious edges: the chain's four registers become free
values (R113). -/
def State.floatChain (s : State) : State :=
  { s with
    chain :=
      { sr := Config.freeSr s.draws
        qout := Config.freeQout s.draws
        clkPrev := Config.freeClkPrev s.draws
        latPrev := Config.freeLatPrev s.draws }
    draws := s.draws + 1 }

/-- The chain's step on the levels of its clock, latch and data lines (R110, R111, R112). -/
def Chain.sense (ch : Chain) (c l d : Bool) : Chain :=
  let sr := if !ch.clkPrev && c then shiftIn ch.sr d else ch.sr
  { sr := sr
    qout := if !ch.latPrev && l then sr else ch.qout
    clkPrev := c
    latPrev := l }

/-- The rising edges the chain sees in that step, newest first. -/
def Chain.seen (ch : Chain) (c l d : Bool) : List Edge :=
  (if !ch.latPrev && l then [Edge.lat (ch.sense c l d).qout] else []) ++
    (if !ch.clkPrev && c then [Edge.clk d] else [])

/-- The chain's edge rule, at the end of a micro-step that writes a `DIR` or `OUT` register (R112),
or, while a line is undriven, free values (R113). -/
def State.chainStep (s : State) : State :=
  if s.driven then
    let c := s.level s.cfg.clkPin
    let l := s.level s.cfg.latPin
    let d := s.level s.cfg.datPin
    { s with chain := s.chain.sense c l d, edges := s.chain.seen c l d ++ s.edges }
  else s.floatChain

/-- `MemRead(addr, 1)` (R62). No read has a side effect. -/
def State.memRead (s : State) (addr : Nat) : Except Fault Byte :=
  if addr < 3 * s.cfg.nports then
    if addr % 3 = 1 then .ok (s.inByte (addr / 3)) else .ok (Memory.get s.io addr)
  else .error (.noRegister addr)

/-- `MemWrite(addr, 1, v)`: the register, then the chain's edge rule once (R63). -/
def State.memWrite (s : State) (addr : Nat) (v : Byte) : Outcome :=
  if addr < 3 * s.cfg.nports then
    if addr % 3 = 1 then .fault (.inputRegister addr)
    else .next { s with io := Memory.put s.io addr v }.chainStep
  else .fault (.noRegister addr)

/-! ### Interrupts -/

/-- Entry: `OVF_x <- 0 ; GIE <- 0` (R178). Nothing is saved. -/
def State.enterHandler (s : State) (x : Source) : State :=
  { s.setTimer x { s.timer x with ovf := false } with gie := false }

/-- The tick handler's body (R180). -/
def State.tickHandler (s : State) : State :=
  let t := s.tick + 1#8
  { s with
    tmrT := { s.tmrT with cnt := Config.reloadT }
    tick := if t = Config.ticksPerSec then 0#8 else t
    sec := if t = Config.ticksPerSec then s.sec + 1#8 else s.sec }

/-- The wake handler's body: `RUN_S <- 0` (R181). -/
def State.wakeHandler (s : State) : State :=
  { s with tmrS := { s.tmrS with run := false } }

/-- The body of a source's handler. -/
def State.handlerBody (s : State) : Source → State
  | .tickOvf => s.tickHandler
  | .wakeOvf => s.wakeHandler

/-- Return: `GIE <- 1`, and wake the main context if the source does so (R178, R179, R183). -/
def State.leaveHandler (s : State) (x : Source) : State :=
  { s with gie := true, sleeping := s.sleeping && !s.wakes x }

/-- Taking source `x`, one step with the handler body and the return (R178). A source that is not
takeable is not taken (R176). -/
def State.takeInterrupt (s : State) (x : Source) : State :=
  if s.takeable x then ((s.enterHandler x).handlerBody x).leaveHandler x else s

/-- A count pulse of a source's timer (R171, R172). -/
def State.countPulse (s : State) (x : Source) : State :=
  s.setTimer x (s.timer x).pulse

/-! ### Gaps between micro-steps -/

/-- One event of a gap. -/
def State.occur (s : State) : Event → State
  | .pulseT => s.countPulse .tickOvf
  | .pulseS => s.countPulse .wakeOvf
  | .take x => s.takeInterrupt x
  | .ext port levels => { s with ext := Memory.put s.ext port levels }

/-- The events of a gap, in order. -/
def State.play (s : State) (g : Gap) : State := g.foldl State.occur s

/-- While a line is undriven the chain changes on its own (R113). -/
def State.drift (s : State) : State := if s.driven then s else s.floatChain

/-- `n` count pulses of a source's timer. -/
def State.countPulses (s : State) (x : Source) : Nat → State
  | 0 => s
  | n + 1 => (s.countPulse x).countPulses x n

/-- The source's timer counts until it wraps, and its interrupt is taken if it can be. -/
def State.runOut (s : State) (x : Source) : State :=
  (s.countPulses x (256 - (s.timer x).cnt.toNat)).takeInterrupt x

/-- The rest of a sleep about which the environment says nothing more: what fairness promises a
sleeping main context (R170, R176, R227). Pending interrupts are taken; then a running sleep timer
overflows; then a running tick timer does. It stays asleep if none of these wakes it (R213). The
order is one schedule among those R176 allows (log 8). -/
def State.fairRest (s : State) : State :=
  let s1 := (s.takeInterrupt .tickOvf).takeInterrupt .wakeOvf
  if s1.sleeping then
    let s2 := s1.runOut .wakeOvf
    if s2.sleeping then s2.runOut .tickOvf else s2
  else s1

/-- An idle main context for which neither the host nor the environment has anything more in store:
what fairness promises it (R170, R176, R227; log 8). Pending interrupts are taken, and each running
timer counts on to its next overflow, which is taken if it can be. -/
def State.fairIdle (s : State) : State :=
  (((s.takeInterrupt .tickOvf).takeInterrupt .wakeOvf).runOut .wakeOvf).runOut .tickOvf

/-- The wait `S5`: gaps pass, and the main context runs no micro-step, until it is woken
(R37, R138, R183). -/
def State.doze (s : State) : List Gap → State
  | [] => { s with env := [] }.fairRest
  | g :: gs =>
    let s' := { s with env := gs }.play g
    if s'.sleeping then s'.doze gs else s'

/-- The next gap of the environment's moves; nothing when it has none left to say. -/
def State.nextGap (s : State) : State :=
  match s.env with
  | [] => s
  | g :: gs => { s with env := gs }.play g

/-- Everything that happens between two micro-steps of the main context, or between two commands
(R176). -/
def State.between (s : State) : State :=
  let s0 := s.drift
  if s0.sleeping then s0.doze s0.env else s0.nextGap

end Sys2Proof.Machine
end

