-- ==== Sys2Proof/Machine/Micro.lean ====
section
/-! DEFINITION. What each micro-step does, and the sequencer that runs an operation's list of them
(R12, R22). -/

namespace Sys2Proof.Machine

/-- Write `TMP` (R23). -/
def State.setTmp (s : State) (v : Byte) : State := { s with temps := { s.temps with tmp := v } }

/-- `TMP <- MemRead(addr, 1)`. -/
def State.readToTmp (s : State) (addr : Nat) : Outcome :=
  match s.memRead addr with
  | .ok v => .next (s.setTmp v)
  | .error f => .fault f

/-- `TMP <- MemRead(INADDR(p), 1) ; RES <- zext_8(TMP[k])` (R102). -/
def State.samplePin (s : State) (pin : Pin) : Outcome :=
  match s.memRead (inAddr pin) with
  | .ok v => .next { s.setTmp v with res := zextBit (getBit v pin.bit) }
  | .error f => .fault f

/-- `SHREG <- byte ; BITIDX <- 7` (R115). -/
def State.loadShift (s : State) (v : Byte) : State :=
  { s with temps := { s.temps with shreg := v, bitIdx := 7 } }

/-- `BITIDX <- BITIDX - 1` (R115). -/
def State.nextBit (s : State) : State :=
  { s with temps := { s.temps with bitIdx := s.temps.bitIdx - 1 } }

/-- `S1: CNT_S <- RELOAD_S ; OVF_S <- 0 ; IE_S <- 1 ; RUN_S <- 1` (R138). -/
def State.armTimer (s : State) : State := { s with tmrS := Timer.arm s.cfg.reloadS }

/-- `S4: GIE <- 1 ; SLEEPING <- 1` (R138); the sleep state is entered only while `SE = 1`
(R36). -/
def State.enterSleep (s : State) : State := { s with gie := true, sleeping := s.se }

/-- `SYMBUF <- s0..s3 ; DIGIDX <- 3 ; MASK <- 0x01` (R128). -/
def State.loadSymbols (s : State) (b : Symbols) : State :=
  { s with temps := { s.temps with symbuf := b, digIdx := 3, mask := 0x01#8 } }

/-- `SHREG <- (IS_COMM_ANODE) ? SYMBUF[DIGIDX] : ~SYMBUF[DIGIDX]` (R128). -/
def State.loadSegment (s : State) : State :=
  { s with
    temps := { s.temps with shreg := segmentByte s.cfg (s.temps.symbuf.get s.temps.digIdx) } }

/-- `MASK <- MASK << 1 ; DIGIDX <- DIGIDX - 1` (R128). -/
def State.nextDigit (s : State) : State :=
  { s with temps := { s.temps with mask := s.temps.mask <<< 1, digIdx := s.temps.digIdx - 1 } }

/-- `CNT_T <- RELOAD_T ; OVF_T <- 0 ; IE_T <- 1 ; RUN_T <- 1` (R150). -/
def State.startTick (s : State) : State := { s with tmrT := Timer.arm Config.reloadT }

/-- One micro-step (R12). -/
def micro (m : Micro) (s : State) : Outcome :=
  match m with
  | .readDir pin => s.readToTmp (dirAddr pin)
  | .writeDir pin dir => s.memWrite (dirAddr pin) (putBit s.temps.tmp pin.bit (dir = .output))
  | .readOut pin => s.readToTmp (outAddr pin)
  | .writeOut pin lvl => s.memWrite (outAddr pin) (putBit s.temps.tmp pin.bit (lvl.value s.temps))
  | .samplePin pin => s.samplePin pin
  | .loadShift src => .next (s.loadShift (src.value s.temps))
  | .nextBit => .next s.nextBit
  | .loadDelay units => .next { s with dly := units }
  | .delayUnit => .next { s with dly := s.dly - 1#8 }
  | .loadMillis ms => .next { s with mscnt := ms }
  | .armTimer => .next s.armTimer
  | .maskInterrupts => .next { s with gie := false }
  | .armSleep => .next { s with se := true }
  | .enterSleep => .next s.enterSleep
  | .countMilli => .next { s with mscnt := s.mscnt - 1#16 }
  | .disarmSleep => .next { s with se := false }
  | .loadSymbols s0 s1 s2 s3 => .next (s.loadSymbols ⟨s0, s1, s2, s3⟩)
  | .loadSegment => .next s.loadSegment
  | .nextDigit => .next s.nextDigit
  | .startTick => .next s.startTick
  | .readSeconds => .next { s with res := s.sec }
  | .clearSeconds => .next { s with sec := 0#8 }
  | .enableInterrupts => .next { s with gie := true }
  | .disableInterrupts => .next { s with gie := false }
  | .readSymbol digit => .next { s with res := symtabEntry s.cfg digit }

/-- Go on from a next state; a stop stays a stop. -/
def andThen (o : Outcome) (f : State → Outcome) : Outcome :=
  match o with
  | .next s => f s
  | .fault r => .fault r
  | .refused r => .refused r

/-- The micro-steps of operation `op` still to run, each after the gap before it. While the main
context is asleep it runs none: it is left at its position, to be resumed there (R22, R37, R179). -/
def resume (op : Instr) : List Micro → State → Outcome
  | [], s => .next (s.finish op)
  | m :: ms, s =>
    let s1 := { s with upc := some ⟨op, m :: ms⟩ }.between
    if s1.sleeping then .next s1 else andThen (micro m s1) (resume op ms)

/-- One micro-step of the operation in progress, after the gap before it: the grain of R12 and R22.
The last micro-step of the list ends the command. `resume` runs this again and again. -/
def microStep (s : State) : Outcome :=
  match s.upc with
  | none => .next s
  | some ⟨op, []⟩ => .next (s.finish op)
  | some ⟨op, m :: ms⟩ =>
    let s1 := s.between
    if s1.sleeping then .next s1
    else andThen (micro m s1) fun s2 =>
      if ms.isEmpty then .next (s2.finish op) else .next { s2 with upc := some ⟨op, ms⟩ }

/-- `n` micro-steps, stopping at the first stop. -/
def microSteps : Nat → State → Outcome
  | 0, s => .next s
  | n + 1, s => andThen (microStep s) (microSteps n)

/-- An operation from its first micro-step on: the gap before that one is the gap between two
commands, which `step` runs. -/
def runOp (op : Instr) (prog : List Micro) (s : State) : Outcome :=
  match prog with
  | [] => .next (s.finish op)
  | m :: ms => andThen (micro m { s with upc := some ⟨op, m :: ms⟩ }) (resume op ms)

end Sys2Proof.Machine
end

