-- ==== Sys2Proof/WellFormed.lean ====
section
/-! DEFINITION. Which commands the block carries out under a configuration (R90 cases (b) and (c)),
and which configurations are well-formed (R9, R31, R139, R166). -/

namespace Sys2Proof

/-- The port of the pin exists: `pin[7:3] < NPORTS` (R83, R90 (b)). -/
def Config.hasPin (c : Config) (pin : Pin) : Bool :=
  decide (pin.port.toNat < c.nports)

/-- The command is not refused: its port exists, its digit names a table entry (R90 (b), (c)). -/
def WellFormed (c : Config) : Instr → Bool
  | .pdir pin _ => c.hasPin pin
  | .prd pin => c.hasPin pin
  | .pwr pin _ => c.hasPin pin
  | .dinit => true
  | .shb _ => true
  | .lat => true
  | .ind _ _ _ _ => true
  | .bdly _ => true
  | .slpms _ => true
  | .tstart => true
  | .secrd => true
  | .secclr => true
  | .ien => true
  | .idis => true
  | .sym digit => decide (digit.toNat < Config.nSym)

/-- The three display pins are pairwise distinct (R9, R31). -/
def Config.pinsDistinct (c : Config) : Bool :=
  c.clkPin != c.latPin && c.clkPin != c.datPin && c.latPin != c.datPin

/-- `(256 - RELOAD_S) * PRESC_S * 1000 = F_CLK`: the sleep timer overflows after exactly one
millisecond (R9, R139). -/
def Config.timerExact (c : Config) : Bool :=
  (256 - c.reloadS.toNat) * c.prescS * 1000 == c.fClk

/-- Ten entries, bit 7 of each 0, entry 0 equal to `0x3F` (R166). -/
def Config.symtabOk (c : Config) : Bool :=
  c.symtab.length == Config.nSym && c.symtab.all (fun e => !e.getLsbD 7) &&
    c.symtab.head? == some 0x3F#8

/-- A well-formed configuration; "a model refuses" any other (R9, R31). -/
def Config.ok (c : Config) : Bool :=
  decide (1 ≤ c.nports) && decide (c.nports ≤ 32) &&
    c.hasPin c.clkPin && c.hasPin c.latPin && c.hasPin c.datPin &&
    c.pinsDistinct && c.timerExact && c.symtabOk

end Sys2Proof
end

