-- ==== Sys2Proof/Machine/Gpio.lean ====
section
/-! DEFINITION. The GPIO pin operations `PDIR`, `PRD`, `PWR` (40_gpio.md). -/

namespace Sys2Proof.Machine

/-- The micro-steps of `PDIR` (R100). -/
def pdirProg (pin : Pin) (dir : Direction) : List Micro := [.readDir pin, .writeDir pin dir]

/-- The micro-step of `PRD` (R102). -/
def prdProg (pin : Pin) : List Micro := [.samplePin pin]

/-- The micro-steps of `PWR` (R104), its level a constant or, inside `SHB`, a bit of `SHREG`. -/
def pwrProg (pin : Pin) (lvl : LevelSrc) : List Micro := [.readOut pin, .writeOut pin lvl]

/-- `PDIR pin, val` (R100); refused where the port does not exist (R90 (b), R101). -/
def execPdir (pin : Pin) (dir : Direction) (s : State) : Outcome :=
  if s.cfg.hasPin pin then runOp (.pdir pin dir) (pdirProg pin dir) s else .next s.refuseCommand

/-- `PRD pin` (R102); refused where the port does not exist (R90 (b), R101). -/
def execPrd (pin : Pin) (s : State) : Outcome :=
  if s.cfg.hasPin pin then runOp (.prd pin) (prdProg pin) s else .next s.refuseCommand

/-- `PWR pin, val` (R104); refused where the port does not exist (R90 (b), R101). -/
def execPwr (pin : Pin) (lvl : Bool) (s : State) : Outcome :=
  if s.cfg.hasPin pin then runOp (.pwr pin lvl) (pwrProg pin (.lit lvl)) s
  else .next s.refuseCommand

end Sys2Proof.Machine
end

