-- ==== Sys2Proof/Machine/Timing.lean ====
section
/-! DEFINITION. The timing services `BDLY` and `SLPMS` (43_timing.md). The loop tests of R135 and
R138 read counters that only the operation itself writes, so each list is written out unrolled: one
`delayUnit`, one iteration, for each count (R22, R226). -/

namespace Sys2Proof.Machine

/-- The micro-steps of `BDLY` (R135): the load, then one delay unit for each count (R136). -/
def bdlyProg (units : Byte) : List Micro :=
  .loadDelay units :: List.replicate units.toNat .delayUnit

/-- One iteration of `SLPMS`: `S1` to `S4`, the wait `S5`, the count (R138). -/
def sleepIteration : List Micro :=
  [.armTimer, .maskInterrupts, .armSleep, .enterSleep, .countMilli]

/-- `n` iterations of `SLPMS`. -/
def sleepIterations : Nat → List Micro
  | 0 => []
  | n + 1 => sleepIteration ++ sleepIterations n

/-- The micro-steps of `SLPMS` (R138). -/
def slpmsProg (ms : Millis) : List Micro :=
  .loadMillis ms :: (sleepIterations ms.toNat ++ [.disarmSleep])

/-- `BDLY imm8` (R135). -/
def execBdly (units : Byte) (s : State) : Outcome := runOp (.bdly units) (bdlyProg units) s

/-- `SLPMS imm16` (R138). It answers the state in which the command has ended or, where no wake
event is left to come, in which the main context is asleep at `S5` (R141, R213). -/
def execSlpms (ms : Millis) (s : State) : Outcome := runOp (.slpms ms) (slpmsProg ms) s

end Sys2Proof.Machine
end

