-- ==== Sys2Proof/Machine/ShiftLatch.lean ====
section
/-! DEFINITION. The shift-register chain operations `SHB` and `LAT`, and the internal `PULSE`
(41_shift_latch.md). -/

namespace Sys2Proof.Machine

/-- The micro-steps of `PULSE(pin)` (R114). -/
def pulseProg (c : Config) (pin : Pin) : List Micro :=
  pwrProg pin (.lit false) ++ bdlyProg c.delaySteps ++ pwrProg pin (.lit true) ++
    bdlyProg c.delaySteps

/-- One pass of `SHB`'s loop: drive the data line, pulse the clock line, next bit (R115). -/
def shiftBitProg (c : Config) : List Micro :=
  pwrProg c.datPin .shregBit ++ pulseProg c c.clkPin ++ [.nextBit]

/-- `n` passes of `SHB`'s loop. -/
def shiftBits (c : Config) : Nat → List Micro
  | 0 => []
  | n + 1 => shiftBitProg c ++ shiftBits c n

/-- The micro-steps of `SHB` (R115). -/
def shbProg (c : Config) (src : ByteSrc) : List Micro := .loadShift src :: shiftBits c 8

/-- The micro-steps of `LAT` (R116). -/
def latProg (c : Config) : List Micro := pulseProg c c.latPin

/-- `SHB imm8` (R115). -/
def execShb (byte : Byte) (s : State) : Outcome :=
  runOp (.shb byte) (shbProg s.cfg (.lit byte)) s

/-- `LAT` (R116). -/
def execLat (s : State) : Outcome := runOp .lat (latProg s.cfg) s

end Sys2Proof.Machine
end

