-- ==== Sys2Proof/Machine/Display.lean ====
section
/-! DEFINITION. The display multiplexer operations `DINIT` and `IND` (42_display_mux.md). -/

namespace Sys2Proof.Machine

/-- `PDIR(pin, 1) ;; PWR(pin, 0)` (R125). -/
def initPinProg (pin : Pin) : List Micro := pdirProg pin .output ++ pwrProg pin (.lit false)

/-- The micro-steps of `DINIT`: clock, latch, data (R125). -/
def dinitProg (c : Config) : List Micro :=
  initPinProg c.clkPin ++ initPinProg c.latPin ++ initPinProg c.datPin

/-- One digit of `IND`: segment byte, digit-select byte, latch, dwell, next digit (R128). -/
def digitProg (c : Config) : List Micro :=
  .loadSegment :: (shbProg c .shreg ++ shbProg c .mask ++ latProg c ++ slpmsProg c.dwellMs ++
    [.nextDigit])

/-- `n` digits of `IND`. -/
def digitsProg (c : Config) : Nat → List Micro
  | 0 => []
  | n + 1 => digitProg c ++ digitsProg c n

/-- The micro-steps of `IND` (R128), `N_DIGITS = 4` (R7). -/
def indProg (c : Config) (s0 s1 s2 s3 : Byte) : List Micro :=
  .loadSymbols s0 s1 s2 s3 :: digitsProg c 4

/-- `DINIT` (R125). -/
def execDinit (s : State) : Outcome := runOp .dinit (dinitProg s.cfg) s

/-- `IND s0, s1, s2, s3` (R128). Like `SLPMS`, it can be left asleep in a dwell (R141). -/
def execInd (s0 s1 s2 s3 : Byte) (s : State) : Outcome :=
  runOp (.ind s0 s1 s2 s3) (indProg s.cfg s0 s1 s2 s3) s

end Sys2Proof.Machine
end

