-- ==== Sys2Proof/Machine/SymbolRom.lean ====
section
/-! DEFINITION. The symbol ROM lookup `SYM` (45_symbol_rom.md). -/

namespace Sys2Proof.Machine

/-- The micro-step of `SYM` (R165). -/
def symProg (digit : Byte) : List Micro := [.readSymbol digit]

/-- `SYM imm8` (R165); refused for a digit of 10 or more (R90 (c)). -/
def execSym (digit : Byte) (s : State) : Outcome :=
  if WellFormed s.cfg (.sym digit) then runOp (.sym digit) (symProg digit) s
  else .next s.refuseCommand

end Sys2Proof.Machine
end

