-- ==== Sys2Proof/Machine/TickService.lean ====
section
/-! DEFINITION. The clock tick service commands `TSTART`, `SECRD`, `SECCLR`, and the global
interrupt enable `IEN`, `IDIS` (44_tick_service.md). Each is one micro-step. -/

namespace Sys2Proof.Machine

/-- The micro-step of `TSTART` (R150). -/
def tstartProg : List Micro := [.startTick]

/-- `TSTART` (R150). -/
def execTstart (s : State) : Outcome := runOp .tstart tstartProg s

/-- The micro-step of `SECRD` (R152). -/
def secrdProg : List Micro := [.readSeconds]

/-- `SECRD` (R152). -/
def execSecrd (s : State) : Outcome := runOp .secrd secrdProg s

/-- The micro-step of `SECCLR` (R154). -/
def secclrProg : List Micro := [.clearSeconds]

/-- `SECCLR` (R154). -/
def execSecclr (s : State) : Outcome := runOp .secclr secclrProg s

/-- The micro-step of `IEN` (R156). -/
def ienProg : List Micro := [.enableInterrupts]

/-- `IEN` (R156). -/
def execIen (s : State) : Outcome := runOp .ien ienProg s

/-- The micro-step of `IDIS` (R157). -/
def idisProg : List Micro := [.disableInterrupts]

/-- `IDIS` (R157). -/
def execIdis (s : State) : Outcome := runOp .idis idisProg s

end Sys2Proof.Machine
end

