-- ==== Sys2Proof/Machine/Dispatch.lean ====
section
/-! DEFINITION. One arm per command (R86). -/

namespace Sys2Proof.Machine

def exec (i : Instr) (s : State) : Host.Outcome State Fault Refusal :=
  match i with
  | .pdir pin dir => Sys2Proof.Machine.execPdir pin dir s
  | .prd pin => Sys2Proof.Machine.execPrd pin s
  | .pwr pin lvl => Sys2Proof.Machine.execPwr pin lvl s
  | .dinit => Sys2Proof.Machine.execDinit s
  | .shb byte => Sys2Proof.Machine.execShb byte s
  | .lat => Sys2Proof.Machine.execLat s
  | .ind s0 s1 s2 s3 => Sys2Proof.Machine.execInd s0 s1 s2 s3 s
  | .bdly units => Sys2Proof.Machine.execBdly units s
  | .slpms ms => Sys2Proof.Machine.execSlpms ms s
  | .tstart => Sys2Proof.Machine.execTstart s
  | .secrd => Sys2Proof.Machine.execSecrd s
  | .secclr => Sys2Proof.Machine.execSecclr s
  | .ien => Sys2Proof.Machine.execIen s
  | .idis => Sys2Proof.Machine.execIdis s
  | .sym digit => Sys2Proof.Machine.execSym digit s

end Sys2Proof.Machine
end

