-- ==== Sys2Proof/Decode.lean ====
section
/-! DEFINITION. The decoder, by the mask and match of R87, and the encoder, by the formats of R81
and the opcodes of R86. -/

namespace Sys2Proof

/-- Why a word spells no operation (R90 (a)). -/
inductive DecodeError where
  /-- The `op` value is outside the fifteen of R86. -/
  | noOpcode (op : Byte)
  /-- The `op` value is one of R86 and a reserved bit is not zero. -/
  | reservedBits (op : Byte)
  deriving DecidableEq, Repr

/-! ### Fields of the command word (R80) -/

/-- `op = CMD[39:32]`. -/
def opField (w : CmdWord) : Byte := w.extractLsb' 32 8

/-- `a = CMD[31:24]`. -/
def aField (w : CmdWord) : Byte := w.extractLsb' 24 8

/-- `b = CMD[23:16]`. -/
def bField (w : CmdWord) : Byte := w.extractLsb' 16 8

/-- `c = CMD[15:8]`. -/
def cField (w : CmdWord) : Byte := w.extractLsb' 8 8

/-- `d = CMD[7:0]`. -/
def dField (w : CmdWord) : Byte := w.extractLsb' 0 8

/-- The word with the five fields, `op` the most significant (R80). -/
def cmdWord (op a b c d : Byte) : CmdWord := op ++ a ++ b ++ c ++ d

/-! ### Operands (R82 to R85) -/

/-- `pin[7:3]` is the port and `pin[2:0]` the bit (R83). -/
def pinOfByte (v : Byte) : Pin := ⟨v.extractLsb' 3 5, v.extractLsb' 0 3⟩

/-- The operand byte of a pin (R83). -/
def byteOfPin (pin : Pin) : Byte := pin.port ++ pin.bit

/-- `val = b[0]` (R82). -/
def valOfByte (v : Byte) : Bool := v.getLsbD 0

/-- `b` with `b[0] = val` and `b[7:1] = 0` (R81). -/
def byteOfVal (val : Bool) : Byte := if val then 1#8 else 0#8

/-- `val = 0` for input and `val = 1` for output (R84). -/
def dirOfVal (val : Bool) : Direction := if val then .output else .input

/-- The `val` bit of a direction (R84). -/
def valOfDir : Direction → Bool
  | .input => false
  | .output => true

/-- `imm16 = {a, b}`, `a` the high byte (R82). -/
def imm16 (a b : Byte) : Millis := a ++ b

/-! ### The opcode map (R87) -/

/-- One row: the word matches when `(CMD & mask) == pattern`, and then spells `build CMD`. -/
structure Row where
  mnemonic : String
  pattern  : CmdWord
  mask     : CmdWord
  build    : CmdWord → Instr

/-- The word matches the row (R87). -/
def rowMatches (w : CmdWord) (r : Row) : Bool := w &&& r.mask == r.pattern

/-- The rows that name a pin: GPIO (R87, formats `P` and `PV`). -/
def gpioRows : List Row :=
  [ ⟨"PDIR", 0x0100000000#40, 0xFF00FEFFFF#40,
      fun w => .pdir (pinOfByte (aField w)) (dirOfVal (valOfByte (bField w)))⟩,
    ⟨"PRD", 0x0200000000#40, 0xFF00FFFFFF#40, fun w => .prd (pinOfByte (aField w))⟩,
    ⟨"PWR", 0x0300000000#40, 0xFF00FEFFFF#40,
      fun w => .pwr (pinOfByte (aField w)) (valOfByte (bField w))⟩ ]

/-- The display rows (R87). -/
def displayRows : List Row :=
  [ ⟨"DINIT", 0x1000000000#40, 0xFFFFFFFFFF#40, fun _ => .dinit⟩,
    ⟨"SHB", 0x1100000000#40, 0xFF00FFFFFF#40, fun w => .shb (aField w)⟩,
    ⟨"LAT", 0x1200000000#40, 0xFFFFFFFFFF#40, fun _ => .lat⟩,
    ⟨"IND", 0x1300000000#40, 0xFF00000000#40,
      fun w => .ind (aField w) (bField w) (cField w) (dField w)⟩ ]

/-- The timing rows (R87). -/
def timingRows : List Row :=
  [ ⟨"BDLY", 0x2000000000#40, 0xFF00FFFFFF#40, fun w => .bdly (aField w)⟩,
    ⟨"SLPMS", 0x2100000000#40, 0xFF0000FFFF#40, fun w => .slpms (imm16 (aField w) (bField w))⟩ ]

/-- The tick service, interrupt control and symbol ROM rows (R87). -/
def serviceRows : List Row :=
  [ ⟨"TSTART", 0x3000000000#40, 0xFFFFFFFFFF#40, fun _ => .tstart⟩,
    ⟨"SECRD", 0x3100000000#40, 0xFFFFFFFFFF#40, fun _ => .secrd⟩,
    ⟨"SECCLR", 0x3200000000#40, 0xFFFFFFFFFF#40, fun _ => .secclr⟩,
    ⟨"IEN", 0x3300000000#40, 0xFFFFFFFFFF#40, fun _ => .ien⟩,
    ⟨"IDIS", 0x3400000000#40, 0xFFFFFFFFFF#40, fun _ => .idis⟩,
    ⟨"SYM", 0x4000000000#40, 0xFF00FFFFFF#40, fun w => .sym (aField w)⟩ ]

/-- All fifteen rows (R86, R87). -/
def opcodeRows : List Row := gpioRows ++ displayRows ++ timingRows ++ serviceRows

/-- The `op` value is one of the fifteen (R86). -/
def opcodeKnown (op : Byte) : Bool := opcodeRows.any (fun r => opField r.pattern == op)

/-- The operation a command word spells, or why it spells none (R87, R90 (a)). The checks of
R90 (b) and (c) are `WellFormed`, since they need the configuration. -/
def decode (w : CmdWord) : Except DecodeError Instr :=
  match opcodeRows.find? (rowMatches w) with
  | some r => .ok (r.build w)
  | none => .error (if opcodeKnown (opField w) then .reservedBits (opField w) else .noOpcode (opField w))

/-- The word of a command (R80, R81, R86). -/
def encode : Instr → CmdWord
  | .pdir pin dir => cmdWord 0x01#8 (byteOfPin pin) (byteOfVal (valOfDir dir)) 0#8 0#8
  | .prd pin => cmdWord 0x02#8 (byteOfPin pin) 0#8 0#8 0#8
  | .pwr pin lvl => cmdWord 0x03#8 (byteOfPin pin) (byteOfVal lvl) 0#8 0#8
  | .dinit => cmdWord 0x10#8 0#8 0#8 0#8 0#8
  | .shb byte => cmdWord 0x11#8 byte 0#8 0#8 0#8
  | .lat => cmdWord 0x12#8 0#8 0#8 0#8 0#8
  | .ind s0 s1 s2 s3 => cmdWord 0x13#8 s0 s1 s2 s3
  | .bdly units => cmdWord 0x20#8 units 0#8 0#8 0#8
  | .slpms ms => cmdWord 0x21#8 (ms.extractLsb' 8 8) (ms.extractLsb' 0 8) 0#8 0#8
  | .tstart => cmdWord 0x30#8 0#8 0#8 0#8 0#8
  | .secrd => cmdWord 0x31#8 0#8 0#8 0#8 0#8
  | .secclr => cmdWord 0x32#8 0#8 0#8 0#8 0#8
  | .ien => cmdWord 0x33#8 0#8 0#8 0#8 0#8
  | .idis => cmdWord 0x34#8 0#8 0#8 0#8 0#8
  | .sym digit => cmdWord 0x40#8 digit 0#8 0#8 0#8

/-! ### Assembler text (R93, R94) -/

/-- `PSET pin`, `PCLR pin`, `POUT pin`, `PINP pin`: each is one command (R94). -/
def pset (pin : Pin) : Instr := .pwr pin true
def pclr (pin : Pin) : Instr := .pwr pin false
def pout (pin : Pin) : Instr := .pdir pin .output
def pinp (pin : Pin) : Instr := .pdir pin .input

/-- `P<p>.<k>` (R93). -/
def pinText (pin : Pin) : String :=
  "P" ++ Nat.repr pin.port.toNat ++ "." ++ Nat.repr pin.bit.toNat

/-- A command as the assembler writes it, numerals in decimal (R93). -/
def asmText : Instr → String
  | .pdir pin .input => "PDIR " ++ pinText pin ++ ", IN"
  | .pdir pin .output => "PDIR " ++ pinText pin ++ ", OUT"
  | .prd pin => "PRD " ++ pinText pin
  | .pwr pin lvl => "PWR " ++ pinText pin ++ (if lvl then ", 1" else ", 0")
  | .dinit => "DINIT"
  | .shb byte => "SHB " ++ Nat.repr byte.toNat
  | .lat => "LAT"
  | .ind s0 s1 s2 s3 =>
    "IND " ++ Nat.repr s0.toNat ++ ", " ++ Nat.repr s1.toNat ++ ", " ++ Nat.repr s2.toNat ++ ", " ++
      Nat.repr s3.toNat
  | .bdly units => "BDLY " ++ Nat.repr units.toNat
  | .slpms ms => "SLPMS " ++ Nat.repr ms.toNat
  | .tstart => "TSTART"
  | .secrd => "SECRD"
  | .secclr => "SECCLR"
  | .ien => "IEN"
  | .idis => "IDIS"
  | .sym digit => "SYM " ++ Nat.repr digit.toNat

/-- The command word of `nbits` low bits of `w`, the bits above them zero. The table numbers the
one 40-bit word with bit 0 its least significant bit, as R80 and R10 do. -/
def tableWord (nbits w : Nat) : CmdWord := BitVec.ofNat 40 (w % 2 ^ nbits)

/-- The instruction the decoder reads from a word of the opcode table. -/
def decodeTableWord (nbits w : Nat) : Option Instr :=
  if nbits ≤ 40 then
    match decode (tableWord nbits w) with
    | .ok i => some i
    | .error _ => none
  else none

end Sys2Proof
end

