-- ==== Sys2Proof/Machine/Fetch.lean ====
section
/-! DEFINITION. How a command reaches the block: the host writes `CMD` while `BUSY = 0`
(R20, R21). There is no instruction memory (R22, R79). -/

namespace Sys2Proof.Machine

/-- The host may write `CMD` and has a word to write: the word (R21). -/
def State.offered (s : State) : Option CmdWord :=
  if s.busy || s.sleeping then none else s.cmds.head?

/-- The host writes the command word: `CMD`, `BUSY <- 1` (R20, R21). -/
def State.accept (s : State) (w : CmdWord) : State :=
  { s with cmds := s.cmds.tail, cmd := w, busy := true }

/-- The block waits for the host's next command (R201): a gap passes or, when the environment has
none left in store, what fairness promises. -/
def State.linger (s : State) : State :=
  if s.env.isEmpty && !s.sleeping then s.between.fairIdle else s.between

/-- The host is about to issue a word, and the main context is idle and awake to take it. -/
def State.offer (s : State) (w : CmdWord) : State :=
  { s with cmds := w :: s.cmds, busy := false, upc := none, sleeping := false }

end Sys2Proof.Machine
end

