-- ==== Sys2Proof/Machine/Step.lean ====
section
/-! DEFINITION. One step of the machine: the gap before it, then the command the host issues, run to
its end or to a sleep that nothing ends; or the rest of the command that such a sleep interrupted. -/

namespace Sys2Proof.Machine

/-- Carry out a command word that the block has accepted: the operation it spells, or the refusal
of R90 (a). -/
def runWord (w : CmdWord) (s : State) : Outcome :=
  match decode w with
  | .ok i => exec i s
  | .error _ => .next s.refuseCommand

/-- The step relation (R42): from machine state `b` under the parameters `p`, the machine state
reached and the parameters left to come. A configuration that is not well-formed is refused (R31).
A command in progress goes on from its position (R22). An idle main context takes the next command
word the host issues; with none offered the block only waits (R201). -/
def stepUnder (p : Inputs) (b : Block) : Outcome :=
  let s : State := ⟨p, b⟩
  if s.cfg.ok then
    match s.upc with
    | some u => resume u.op u.todo s
    | none =>
      match s.between.offered with
      | some w => runWord w (s.between.accept w)
      | none => .next s.linger
  else .refused .illFormedConfig

/-- One step, as the host's interface asks for it: the step relation under the parameters and on
the machine state that the host's state pairs (log 1). -/
def step (s : State) : Host.Outcome State Fault Refusal := stepUnder s.toInputs s.toBlock

/-- The state in which the next word the host issues is the given one. -/
def State.withFetchWord (s : State) (nbits w : Nat) : State := s.offer (tableWord nbits w)

end Sys2Proof.Machine
end

