-- ==== Sys2Proof/Safety.lean ====
section
/-! DEFINITION. What claims are stated in terms of: a state that has gone wrong (R38), a quiet
environment, the invariant of the machine, and what an observer counts. -/

namespace Sys2Proof.Machine

/-- "A model treats `CMDERR = 1` as gone wrong" (R38). -/
def State.goneWrong (s : State) : Bool := s.cmderr

/-- The main context is awake and the environment has no event in store: no interrupt and no count
pulse falls into a running command but those that end its sleeps (`P_ARM` and no tick: R213). -/
def State.quiet (s : State) : Bool := s.env.isEmpty && !s.sleeping

/-- The chain's previous-level bits are the levels of its driven lines (R30, R112). -/
def State.synced (s : State) : Bool :=
  !s.driven || (s.chain.clkPrev == s.level s.cfg.clkPin && s.chain.latPrev == s.level s.cfg.latPin)

/-- A tick interrupt is pending and enabled, so that the next `GIE = 1` lets it in. -/
def State.tickPending (s : State) : Bool := s.tmrT.ovf && s.tmrT.ie

/-- Only `DIR` and `OUT` registers of existing ports are stored (R25, R60). -/
def ioHome (c : Config) (m : Memory) : Bool :=
  m.all (fun cell => decide (cell.1 < 3 * c.nports) && cell.1 % 3 != 1)

/-- The pins a micro-step names exist. -/
def microLegal (c : Config) : Micro → Bool
  | .readDir pin => c.hasPin pin
  | .writeDir pin _ => c.hasPin pin
  | .readOut pin => c.hasPin pin
  | .writeOut pin _ => c.hasPin pin
  | .samplePin pin => c.hasPin pin
  | _ => true

/-- The micro-steps still to run; none when idle (R22). -/
def State.todo (s : State) : List Micro :=
  match s.upc with
  | some u => u.todo
  | none => []

/-- `SE` when the micro-steps have run, from its value before them (R36, R138). -/
def sleepEnableAfter (se : Bool) : List Micro → Bool
  | [] => se
  | .armSleep :: ms => sleepEnableAfter true ms
  | .disarmSleep :: ms => sleepEnableAfter false ms
  | _ :: ms => sleepEnableAfter se ms

/-- The invariant of the machine: a well-formed configuration (R31); stored cells in canonical form
and only where a register is (R25, R60); `BUSY` exactly while an operation is in progress (R21, R22);
`TICK` below 250 (R32); asleep only inside an operation, with `SE = 1` and `GIE = 1` (R36, R183); the
chain's edge detectors in step with driven lines (R30, R112); and `SE = 0` once the operation in
progress has ended, so `SE = 0` when idle (R144). -/
def State.inv (s : State) : Bool :=
  s.cfg.ok && Memory.wf s.io && ioHome s.cfg s.io && Memory.wf s.ext &&
    (s.busy == s.upc.isSome) && decide (s.tick.toNat < 250) &&
    (!s.sleeping || (s.se && s.gie && s.upc.isSome)) &&
    s.synced && s.todo.all (microLegal s.cfg) && !sleepEnableAfter s.se s.todo

/-- What a command needs of the state it starts in, all of it part of the invariant: a well-formed
configuration, stored registers in canonical form, edge detectors in step, an awake main context. -/
def State.ready (s : State) : Bool :=
  s.cfg.ok && Memory.wf s.io && s.synced && !s.sleeping

/-- What no command writes but the host's own writes and a refusal (R20, R31, R38). -/
def State.keptHost (s t : State) : Prop :=
  t.cfg = s.cfg ∧ t.cmds = s.cmds ∧ t.cmd = s.cmd ∧ t.cmderr = s.cmderr

/-- With no event in store nothing the handlers, the timers and the environment own has changed
(R182). -/
def State.keptQuiet (s t : State) : Prop :=
  s.env = [] → t.env = [] ∧ t.ext = s.ext ∧ t.tick = s.tick ∧ t.sec = s.sec ∧ t.tmrT = s.tmrT ∧
    t.tmrS = s.tmrS ∧ t.gie = s.gie

/-- Driven lines: the chain is as it was, and no edge was seen. -/
def State.keptChain (s t : State) : Prop :=
  s.driven = true → t.chain = s.chain ∧ t.edges = s.edges

/-- Every I/O register but those at the listed addresses reads as before. -/
def State.keptIo (s t : State) (written : List Nat) : Prop :=
  ∀ a, a ∉ written → Memory.get t.io a = Memory.get s.io a

/-- Every `OUT` bit but those of the listed pins is as before. -/
def State.keptOut (s t : State) (written : List Pin) : Prop :=
  ∀ q, q ∉ written → getBit (t.out q.port.toNat) q.bit = getBit (s.out q.port.toNat) q.bit

/-- The command has ended: `BUSY = 0`, `upc` idle, awake (R21, R22). -/
def State.ended (s : State) : Bool := !s.busy && s.upc.isNone && !s.sleeping

/-- The values latched to the outputs, newest first. -/
def latchesOf : List Edge → List ChainWord
  | [] => []
  | .lat v :: es => v :: latchesOf es
  | .clk _ :: es => latchesOf es

/-- The data levels taken in at rising clock edges, newest first. -/
def clockedOf : List Edge → List Bool
  | [] => []
  | .clk d :: es => d :: clockedOf es
  | .lat _ :: es => clockedOf es

/-- The frame `IND` latches for a symbol and a digit-select mask: the segment byte as polarity asks,
above the mask (R128, R129). -/
def frameOf (c : Config) (symbol mask : Byte) : ChainWord :=
  (if c.isCommAnode then symbol else ~~~symbol) ++ mask

/-- The micro-steps of each command (R12): what R226 counts. -/
def progOf (c : Config) : Instr → List Micro
  | .pdir pin dir => pdirProg pin dir
  | .prd pin => prdProg pin
  | .pwr pin lvl => pwrProg pin (.lit lvl)
  | .dinit => dinitProg c
  | .shb byte => shbProg c (.lit byte)
  | .lat => latProg c
  | .ind s0 s1 s2 s3 => indProg c s0 s1 s2 s3
  | .bdly units => bdlyProg units
  | .slpms ms => slpmsProg ms
  | .tstart => tstartProg
  | .secrd => secrdProg
  | .secclr => secclrProg
  | .ien => ienProg
  | .idis => idisProg
  | .sym digit => symProg digit

/-- Steps, each under the moves of the environment listed for it, whatever was in store before. -/
def stepsUnder : List (List Gap) → State → Outcome
  | [], s => .next s
  | e :: es, s => andThen (step { s with env := e }) (stepsUnder es)

/-- How many delay units a list of micro-steps runs (R225). -/
def delayUnits (ms : List Micro) : Nat := ms.count .delayUnit

end Sys2Proof.Machine
end

