-- ==== Sys2Proof/Certificates/Slice0/Obligations.lean ====
section
/-! DEFINITION. The statements about the model, each from the rules of spec/ its docstring names.
Where a statement speaks of a command's result it says that `exec` answers a next state. -/

open Sys2Proof Sys2Proof.Machine

/-! ## Encoding -/

/-- Words of the spec's table, one of each family, decode to their commands (R80 to R87,
95_test_vectors.md 2.1). -/
def Obligations.SpecWordsDecode : Prop :=
  decode 0x010B010000#40 = .ok (.pdir ⟨1#5, 3#3⟩ .output) ∧
  decode 0x0301010000#40 = .ok (.pwr ⟨0#5, 1#3⟩ true) ∧
  decode 0x133F065B4F#40 = .ok (.ind 0x3F#8 0x06#8 0x5B#8 0x4F#8) ∧
  decode 0x11B2000000#40 = .ok (.shb 0xB2#8) ∧
  decode 0x2103E80000#40 = .ok (.slpms 1000#16) ∧
  decode 0x3000000000#40 = .ok .tstart ∧
  decode 0x4009000000#40 = .ok (.sym 9#8)

/-- Every command, with every operand value, is the one its own word decodes to (R80 to R87). -/
def Obligations.DecodeOfEncode : Prop := ∀ i : Instr, decode (encode i) = .ok i

/-- A word that decodes is the word of the command it decodes to: no reserved bit is ignored and no
two words spell one command (R81, R90). -/
def Obligations.EncodeOfDecode : Prop :=
  ∀ (w : CmdWord) (i : Instr), decode w = .ok i → encode i = w

/-- "a word matches at most one row" (R87). -/
def Obligations.WordMatchesOneRow : Prop :=
  ∀ w : CmdWord, (opcodeRows.filter (rowMatches w)).length ≤ 1

/-! ## Steps -/

/-- A step of an idle, awake block with a word in store that spells a command is `exec` of that
command, after the gap between the two commands, on the state that has accepted the word
(R20, R21, R176). -/
def Obligations.StepRunsDecodedCommand : Prop :=
  ∀ (s : State) (w : CmdWord) (i : Instr), s.cfg.ok = true → s.upc = none → s.busy = false →
    s.sleeping = false → s.cmds.head? = some w → decode w = .ok i →
      step s = exec i (s.between.accept w)

/-- A word no row matches is refused: after the gap between two commands, which acts as before any
command, the host's word leaves its store and is written to `CMD`, `CMDERR` is set, and the block is
idle; nothing else changes (R38, R90 (a)). That `CMD` keeps the refused word is the model's reading
(log 17). -/
def Obligations.StepRefusesUndecodedWord : Prop :=
  ∀ (s : State) (w : CmdWord) (e : DecodeError), s.cfg.ok = true → s.upc = none →
    s.busy = false → s.sleeping = false → s.cmds.head? = some w → decode w = .error e →
      step s = .next { s.between with
        cmds := s.between.cmds.tail, cmd := w, cmderr := true, busy := false, upc := none }

/-- A command whose port or digit does not exist is refused: `CMDERR <- 1`, `BUSY <- 0`, and no
other state changes (R90 (b), (c)). -/
def Obligations.ExecRefusesIllFormedCommand : Prop :=
  ∀ (i : Instr) (s : State), WellFormed s.cfg i = false →
    exec i s = .next { s with cmderr := true, busy := false, upc := none }

/-- A configuration that is not well-formed is refused, in every state. R31 asks it where two of the
three pins are equal or one's port is not below `NPORTS`; that a configuration outside the bounds of
R9, R139 or R166 is refused in the same way is the model's choice (log 20). -/
def Obligations.StepRefusesIllFormedConfig : Prop :=
  ∀ s : State, s.cfg.ok = false → step s = .refused .illFormedConfig

/-- A command in progress is what the next step goes on with, whatever words the host has in store
(R21, R22). -/
def Obligations.StepResumesCommandInProgress : Prop :=
  ∀ (s : State) (u : Upc), s.cfg.ok = true → s.upc = some u →
    step s = resume u.op u.todo s

/-- What `resume` runs at once is a number of micro-steps, each after the gap before it: the grain
of R12, R22 and R176. -/
def Obligations.MicroStepsMakeUpResume : Prop :=
  ∀ (op : Instr) (ms : List Micro) (s : State), s.upc = some ⟨op, ms⟩ →
    ∃ k, k ≤ ms.length + 1 ∧ microSteps k s = resume op ms s

/-- The micro-step counts of R226, with `DELAY_STEPS = 2`, for every command it counts: `PDIR` 2,
`PRD` 1, `PWR` 2, `BDLY n` `1 + n`, `PULSE` 10, `SHB` 105, `LAT` 10, `TSTART`, `SECRD`, `SECCLR`,
`IEN`, `IDIS`, `SYM` 1 each, `SLPMS n` `1 + 5n + 1` with `n` sleeps among them; and these lists are
what `exec` runs. -/
def Obligations.MicroStepCounts : Prop :=
  (∀ (i : Instr) (s : State), WellFormed s.cfg i = true →
    exec i s = runOp i (progOf s.cfg i) s) ∧
  ∀ (c : Config), c.delaySteps = 2#8 →
    (∀ pin dir, (progOf c (.pdir pin dir)).length = 2) ∧
    (∀ pin, (progOf c (.prd pin)).length = 1) ∧
    (∀ pin lvl, (progOf c (.pwr pin lvl)).length = 2) ∧
    (∀ n : Byte, (progOf c (.bdly n)).length = 1 + n.toNat) ∧
    (∀ pin, (pulseProg c pin).length = 10) ∧
    (∀ byte, (progOf c (.shb byte)).length = 105) ∧
    (∀ src, (shbProg c src).length = 105) ∧
    (progOf c .lat).length = 10 ∧
    (progOf c .tstart).length = 1 ∧
    (progOf c .secrd).length = 1 ∧
    (progOf c .secclr).length = 1 ∧
    (progOf c .ien).length = 1 ∧
    (progOf c .idis).length = 1 ∧
    (∀ digit, (progOf c (.sym digit)).length = 1) ∧
    (∀ n : Millis, (progOf c (.slpms n)).length = 1 + 5 * n.toNat + 1 ∧
      (progOf c (.slpms n)).count .enterSleep = n.toNat)

/-- The lower bounds of R225 in delay units, for every `DELAY_STEPS`: `PULSE` 2 of them, `SHB` 16,
`LAT` 2, one digit of `IND` 34, `IND` four digits. -/
def Obligations.DelayUnitCounts : Prop :=
  ∀ (c : Config),
    (∀ pin, delayUnits (pulseProg c pin) = 2 * c.delaySteps.toNat) ∧
    (∀ src, delayUnits (shbProg c src) = 16 * c.delaySteps.toNat) ∧
    delayUnits (latProg c) = 2 * c.delaySteps.toNat ∧
    delayUnits (digitProg c) = 34 * c.delaySteps.toNat ∧
    (∀ s0 s1 s2 s3, delayUnits (indProg c s0 s1 s2 s3) = 136 * c.delaySteps.toNat)

/-! ## GPIO -/

/-- `PDIR` writes bit `k` of `DIR[p]` and leaves the other seven bits as read, whatever the gaps
bring; `OUT` and every other register are as before; with driven lines before and after, the chain
sees the write once (R100, R105). The frame with no event in store, `keptQuiet`, is the model's
reading of an environment that does nothing (log 8). -/
def Obligations.PdirWritesDirectionBit : Prop :=
  ∀ (pin : Pin) (dir : Direction) (s : State), s.ready = true → s.cfg.hasPin pin = true →
    ∃ t, exec (.pdir pin dir) s = .next t ∧ t.ended = true ∧
      encode (.pdir pin dir) =
        cmdWord 0x01#8 (pin.port ++ pin.bit) (if dir = .output then 1#8 else 0#8) 0#8 0#8 ∧
      (pdirProg pin dir).length = 2 ∧
      t.isOutput pin = decide (dir = .output) ∧
      (∀ q, q ≠ pin → t.isOutput q = s.isOutput q) ∧
      s.keptIo t [dirAddr pin] ∧
      t.res = s.res ∧ t.dly = s.dly ∧ t.mscnt = s.mscnt ∧ t.se = s.se ∧
      s.keptHost t ∧ s.keptQuiet t ∧
      (s.driven = true → t.driven = true →
        t.chain = s.chain.sense (t.level s.cfg.clkPin) (t.level s.cfg.latPin)
          (t.level s.cfg.datPin)) ∧
      (pin ∉ [s.cfg.clkPin, s.cfg.latPin, s.cfg.datPin] → s.keptChain t)

/-- `PRD` leaves the level of the pin's line in `RES`, as `0x00` or `0x01`, and changes no other
register (R102). -/
def Obligations.PrdReadsLineLevel : Prop :=
  ∀ (pin : Pin) (s : State), s.cfg.hasPin pin = true →
    ∃ t, exec (.prd pin) s = .next t ∧
      encode (.prd pin) = cmdWord 0x02#8 (pin.port ++ pin.bit) 0#8 0#8 0#8 ∧
      (prdProg pin).length = 1 ∧
      t.res = (if s.level pin then 0x01#8 else 0x00#8) ∧
      t.busy = false ∧ t.upc = none ∧
      t = { s with
        res := t.res, busy := t.busy, upc := t.upc, temps := t.temps, draws := t.draws }

/-- `PWR` writes bit `k` of `OUT[p]` and leaves the other seven bits as read, whatever the gaps
bring; an output pin's line takes the level; an input pin's does not; the chain's edge rule sees
the new levels (R104). `keptQuiet` is the model's reading of an environment that does nothing
(log 8). -/
def Obligations.PwrWritesOutputBit : Prop :=
  ∀ (pin : Pin) (lvl : Bool) (s : State), s.ready = true → s.cfg.hasPin pin = true →
    ∃ t, exec (.pwr pin lvl) s = .next t ∧ t.ended = true ∧
      encode (.pwr pin lvl) =
        cmdWord 0x03#8 (pin.port ++ pin.bit) (if lvl then 1#8 else 0#8) 0#8 0#8 ∧
      (pwrProg pin (.lit lvl)).length = 2 ∧
      getBit (t.out pin.port.toNat) pin.bit = lvl ∧
      s.keptOut t [pin] ∧ s.keptIo t [outAddr pin] ∧
      (s.isOutput pin = true → t.level pin = lvl) ∧
      (s.isOutput pin = false → t.level pin = getBit (t.extLevels pin.port.toNat) pin.bit) ∧
      t.res = s.res ∧ t.dly = s.dly ∧ t.mscnt = s.mscnt ∧ t.se = s.se ∧
      s.keptHost t ∧ s.keptQuiet t ∧
      (s.driven = true →
        t.chain = s.chain.sense (t.level s.cfg.clkPin) (t.level s.cfg.latPin)
          (t.level s.cfg.datPin) ∧
        t.edges = s.chain.seen (t.level s.cfg.clkPin) (t.level s.cfg.latPin)
          (t.level s.cfg.datPin) ++ s.edges)

/-- A host clocks the chain by hand: `PWR` of the clock pin shifts `SR` exactly when it raises the
line, taking in the data line's level, and never latches (R106, R110). -/
def Obligations.PwrClocksTheChain : Prop :=
  ∀ (lvl : Bool) (s : State), s.ready = true → s.driven = true →
    ∃ t, exec (.pwr s.cfg.clkPin lvl) s = .next t ∧ t.ended = true ∧
      t.chain.sr = (if lvl && !s.level s.cfg.clkPin
        then s.chain.sr.extractLsb' 0 15 ++ BitVec.ofBool (s.level s.cfg.datPin)
        else s.chain.sr) ∧
      t.chain.qout = s.chain.qout

/-- `PWR` of the latch pin copies `SR` to `QOUT` exactly when it raises the line, and never shifts
(R106, R111). -/
def Obligations.PwrLatchesTheChain : Prop :=
  ∀ (lvl : Bool) (s : State), s.ready = true → s.driven = true →
    ∃ t, exec (.pwr s.cfg.latPin lvl) s = .next t ∧ t.ended = true ∧
      t.chain.qout = (if lvl && !s.level s.cfg.latPin then s.chain.sr else s.chain.qout) ∧
      t.chain.sr = s.chain.sr

/-- A write of `OUT[p][k]` while `DIR[p][k] = 0` changes no line level, whatever the gaps bring:
after the command every line has the level it had before, but for what the environment has meanwhile
made of `EXT` (R103). -/
def Obligations.InputPinWriteMovesNoLine : Prop :=
  ∀ (pin : Pin) (lvl : Bool) (s : State), s.ready = true → s.cfg.hasPin pin = true →
    s.isOutput pin = false →
    ∃ t, exec (.pwr pin lvl) s = .next t ∧ t.ended = true ∧
      ∀ q, t.level q = { s with ext := t.ext }.level q

/-- "`IN[p][k]`, read at any time, equals `level((p,k))`": what `MemRead` of an input register
answers, bit by bit (R26, R27, R62). That the read at a port that does not exist stops with the
fault `noRegister` is the model's choice (log 25). -/
def Obligations.InputRegisterReadsLevels : Prop :=
  ∀ (s : State) (pin : Pin),
    (s.cfg.hasPin pin = true → ∃ v, s.memRead (inAddr pin) = .ok v ∧
      getBit v pin.bit = s.level pin) ∧
    (s.cfg.hasPin pin = false → s.memRead (inAddr pin) = .error (.noRegister (inAddr pin)))

/-- A `MemWrite` of a `DIR` or `OUT` register that exists takes effect at once: the next `MemRead`
of it answers the value written, and no other such register's reading changes (R62, R63). -/
def Obligations.MemWriteTakesEffect : Prop :=
  ∀ (s : State) (a : Nat) (v : Byte), Memory.wf s.io = true → a < 3 * s.cfg.nports → a % 3 ≠ 1 →
    ∃ t, s.memWrite a v = .next t ∧ t.memRead a = .ok v ∧
      ∀ b, b ≠ a → b % 3 ≠ 1 → t.memRead b = s.memRead b

/-- Beyond the `3 * NPORTS` registers nothing is addressable (R60), and an input register is read-only
(R25): such an access stops. That it stops with the faults `noRegister` and `inputRegister`, where
R63 says that a model need give the write no meaning, is the model's choice (log 25). -/
def Obligations.NoRegisterThere : Prop :=
  ∀ (s : State) (a : Nat) (v : Byte),
    (3 * s.cfg.nports ≤ a →
      s.memRead a = .error (.noRegister a) ∧ s.memWrite a v = .fault (.noRegister a)) ∧
    (a < 3 * s.cfg.nports → a % 3 = 1 → s.memWrite a v = .fault (.inputRegister a))

/-! ## The chain, SHB, LAT -/

/-- A rising clock edge advances the chain by one position and takes in the data level; any other
change of the clock line leaves `SR`; the clock line never changes `QOUT` (R110). -/
def Obligations.ClockEdgeShifts : Prop :=
  ∀ (ch : Chain) (c d : Bool),
    let ch' := ch.sense c ch.latPrev d
    (ch.clkPrev = false → c = true →
      ch'.sr.getLsbD 0 = d ∧ ∀ j, j < 15 → ch'.sr.getLsbD (j + 1) = ch.sr.getLsbD j) ∧
    ((ch.clkPrev = true ∨ c = false) → ch'.sr = ch.sr) ∧
    ch'.qout = ch.qout

/-- A rising latch edge copies all 16 bits of `SR` to `QOUT`; any other change of the latch line
leaves `QOUT`; the latch line never changes `SR` (R111). -/
def Obligations.LatchEdgeCopies : Prop :=
  ∀ (ch : Chain) (l d : Bool),
    let ch' := ch.sense ch.clkPrev l d
    (ch.latPrev = false → l = true → ch'.qout = ch.sr) ∧
    ((ch.latPrev = true ∨ l = false) → ch'.qout = ch.qout) ∧
    ch'.sr = ch.sr

/-- `SHB` completes whatever the gaps bring; with driven lines `SR` ends as the old low byte above
the byte transmitted, by exactly eight rising clock edges, most significant bit first, and nothing
is latched; the clock line is left high and the data line at bit 0 (R66, R67, R115, R119). The frame
with no event in store, `keptQuiet`, is the model's reading of an environment that does nothing
(log 8). -/
def Obligations.ShbShiftsItsByte : Prop :=
  ∀ (byte : Byte) (s : State), s.ready = true →
    ∃ t, exec (.shb byte) s = .next t ∧ t.ended = true ∧
      encode (.shb byte) = cmdWord 0x11#8 byte 0#8 0#8 0#8 ∧
      getBit (t.out s.cfg.clkPin.port.toNat) s.cfg.clkPin.bit = true ∧
      getBit (t.out s.cfg.datPin.port.toNat) s.cfg.datPin.bit = byte.getLsbD 0 ∧
      s.keptOut t [s.cfg.clkPin, s.cfg.datPin] ∧
      s.keptIo t [outAddr s.cfg.clkPin, outAddr s.cfg.datPin] ∧
      t.dly = 0#8 ∧ t.res = s.res ∧ t.mscnt = s.mscnt ∧ t.se = s.se ∧
      s.keptHost t ∧ s.keptQuiet t ∧
      (s.driven = true →
        t.chain = ⟨s.chain.sr.extractLsb' 0 8 ++ byte, s.chain.qout, true, s.chain.latPrev⟩ ∧
        t.edges = [0, 1, 2, 3, 4, 5, 6, 7].map (fun k => Edge.clk (byte.getLsbD k)) ++ s.edges)

/-- `LAT` completes whatever the gaps bring; with driven lines it makes exactly one rising latch
edge, `QOUT` ends as `SR`, and `SR`, the clock line and the data line are as before (R116).
`keptQuiet` is the model's reading of an environment that does nothing (log 8). -/
def Obligations.LatCopiesChainToOutputs : Prop :=
  ∀ (s : State), s.ready = true →
    ∃ t, exec .lat s = .next t ∧ t.ended = true ∧ encode .lat = 0x1200000000#40 ∧
      latProg s.cfg = pulseProg s.cfg s.cfg.latPin ∧
      getBit (t.out s.cfg.latPin.port.toNat) s.cfg.latPin.bit = true ∧
      s.keptOut t [s.cfg.latPin] ∧ s.keptIo t [outAddr s.cfg.latPin] ∧
      t.dly = 0#8 ∧ t.res = s.res ∧ t.mscnt = s.mscnt ∧ t.se = s.se ∧
      s.keptHost t ∧ s.keptQuiet t ∧
      (s.driven = true →
        t.chain = ⟨s.chain.sr, s.chain.sr, s.chain.clkPrev, true⟩ ∧
        t.edges = Edge.lat s.chain.sr :: s.edges)

/-- Making a display pin an input leaves the chain free: its registers are draws (R113). Which
draw it is, is the model's (log 6). -/
def Obligations.UndrivenChainIsFree : Prop :=
  ∀ (pin : Pin) (s : State), s.ready = true → s.driven = true →
    pin ∈ [s.cfg.clkPin, s.cfg.latPin, s.cfg.datPin] →
    ∃ t, exec (.pdir pin .input) s = .next t ∧ t.driven = false ∧
      t.chain = ⟨Config.freeSr s.draws, Config.freeQout s.draws, Config.freeClkPrev s.draws,
        Config.freeLatPrev s.draws⟩

/-! ## Display multiplexer -/

/-- `DINIT` leaves the three display pins outputs and low, the edge detectors 0, and every other
bit of `DIR` and `OUT` as before; run on driven lines it changes neither `SR` nor `QOUT` (R125).
`keptQuiet` is the model's reading of an environment that does nothing (log 8). -/
def Obligations.DinitDrivesLinesLow : Prop :=
  ∀ (s : State), s.ready = true →
    ∃ t, exec .dinit s = .next t ∧ t.ended = true ∧ encode .dinit = 0x1000000000#40 ∧
      (∀ q, t.isOutput q =
        (decide (q ∈ [s.cfg.clkPin, s.cfg.latPin, s.cfg.datPin]) || s.isOutput q)) ∧
      (∀ q, q ∈ [s.cfg.clkPin, s.cfg.latPin, s.cfg.datPin] →
        getBit (t.out q.port.toNat) q.bit = false ∧ t.level q = false) ∧
      s.keptOut t [s.cfg.clkPin, s.cfg.latPin, s.cfg.datPin] ∧
      s.keptIo t [dirAddr s.cfg.clkPin, outAddr s.cfg.clkPin, dirAddr s.cfg.latPin,
        outAddr s.cfg.latPin, dirAddr s.cfg.datPin, outAddr s.cfg.datPin] ∧
      t.chain.clkPrev = false ∧ t.chain.latPrev = false ∧
      t.res = s.res ∧ t.dly = s.dly ∧ t.mscnt = s.mscnt ∧ t.se = s.se ∧
      s.keptHost t ∧ s.keptQuiet t ∧
      (s.driven = true →
        t.chain.sr = s.chain.sr ∧ t.chain.qout = s.chain.qout ∧ t.edges = s.edges)

/-- `IND`, whatever the gaps bring: if it is not left asleep it has ended, and with driven lines it
has latched the four frames of `symbols[3]` to `symbols[0]` with the masks `0x01` to `0x08`, in that
order, by 64 clock edges and 4 latch edges (R127 to R130; asleep for ever: R213). -/
def Obligations.IndLatchesFourFrames : Prop :=
  ∀ (s0 s1 s2 s3 : Byte) (s : State), s.ready = true →
    ∃ t, exec (.ind s0 s1 s2 s3) s = .next t ∧
      encode (.ind s0 s1 s2 s3) = cmdWord 0x13#8 s0 s1 s2 s3 ∧
      (t.sleeping = false →
        t.ended = true ∧
        getBit (t.out s.cfg.clkPin.port.toNat) s.cfg.clkPin.bit = true ∧
        getBit (t.out s.cfg.latPin.port.toNat) s.cfg.latPin.bit = true ∧
        getBit (t.out s.cfg.datPin.port.toNat) s.cfg.datPin.bit = false ∧
        s.keptOut t [s.cfg.clkPin, s.cfg.latPin, s.cfg.datPin] ∧
        s.keptIo t [outAddr s.cfg.clkPin, outAddr s.cfg.latPin, outAddr s.cfg.datPin] ∧
        t.dly = 0#8 ∧ t.mscnt = 0#16 ∧ t.se = false ∧ t.res = s.res ∧ s.keptHost t ∧
        t.gie = (if s.cfg.dwellMs = 0#16 then s.gie else true) ∧
        (s.driven = true →
          t.chain = ⟨frameOf s.cfg s0 0x08#8, frameOf s.cfg s0 0x08#8, true, true⟩ ∧
          latchesOf t.edges =
            [frameOf s.cfg s0 0x08#8, frameOf s.cfg s1 0x04#8, frameOf s.cfg s2 0x02#8,
              frameOf s.cfg s3 0x01#8] ++ latchesOf s.edges ∧
          (clockedOf t.edges).length = 64 + (clockedOf s.edges).length))

/-- With no event in store `IND` ends: `GIE` is left 1 if there is a dwell, and with no tick pending
the tick service and, but for its dwells, the sleep timer are as before (R128, R138, R204; the
schedule of the sleeps is the model's, log 8). -/
def Obligations.IndCompletesInQuiet : Prop :=
  ∀ (s0 s1 s2 s3 : Byte) (s : State), s.ready = true → s.env = [] →
    ∃ t, exec (.ind s0 s1 s2 s3) s = .next t ∧ t.ended = true ∧ t.env = [] ∧ t.ext = s.ext ∧
      t.gie = (if s.cfg.dwellMs = 0#16 then s.gie else true) ∧
      (s.tickPending = false →
        t.tick = s.tick ∧ t.sec = s.sec ∧ t.tmrT = s.tmrT ∧
        t.tmrS = (if s.cfg.dwellMs = 0#16 then s.tmrS else ⟨0#8, false, true, false⟩))

/-- "given is_comm_anode=false (cathode) and segment byte 0x3F, the byte actually shifted equals
~0x3F (bitwise complement); given is_comm_anode=true, the byte shifted equals the raw 0x3F"
(R129). -/
def Obligations.PolarityInverts : Prop :=
  ∀ (c : Config) (v : Byte),
    (c.isCommAnode = false → segmentByte c v = ~~~v ∧ segmentByte c 0x3F#8 = 0xC0#8) ∧
    (c.isCommAnode = true → segmentByte c v = v)

/-! ## Timing services -/

/-- `BDLY` completes whatever the gaps bring, with one micro-step for the load and one for each
unit; "the only state it changes is `DLY`, which is 0 when it ends" (R135, R136). `keptQuiet` is
the model's reading of an environment that does nothing (log 8). -/
def Obligations.BdlyCountsDown : Prop :=
  ∀ (units : Byte) (s : State), s.sleeping = false →
    ∃ t, exec (.bdly units) s = .next t ∧ t.ended = true ∧
      encode (.bdly units) = cmdWord 0x20#8 units 0#8 0#8 0#8 ∧
      (bdlyProg units).length = 1 + units.toNat ∧
      t.dly = 0#8 ∧
      t.res = s.res ∧ t.mscnt = s.mscnt ∧ t.se = s.se ∧ t.io = s.io ∧ t.temps = s.temps ∧
      s.keptHost t ∧ s.keptQuiet t ∧ s.keptChain t

/-- `SLPMS n`, whatever the gaps bring: if it is not left asleep it has ended with its count at 0,
`SE = 0` and, for `n >= 1`, `GIE = 1` and `IE_S = 1`; `SLPMS 0` leaves `GIE` (R138). -/
def Obligations.SlpmsEndsWithCountDone : Prop :=
  ∀ (ms : Millis) (s : State), s.sleeping = false →
    ∃ t, exec (.slpms ms) s = .next t ∧
      encode (.slpms ms) =
        cmdWord 0x21#8 (ms.extractLsb' 8 8) (ms.extractLsb' 0 8) 0#8 0#8 ∧
      (t.sleeping = false →
        t.ended = true ∧ t.mscnt = 0#16 ∧ t.se = false ∧
        (ms ≠ 0#16 → t.gie = true ∧ t.tmrS.ie = true) ∧
        (ms = 0#16 → t.gie = s.gie) ∧
        t.res = s.res ∧ t.dly = s.dly ∧ t.io = s.io ∧ t.temps = s.temps ∧
        s.keptHost t ∧ s.keptChain t)

/-- With no event in store `SLPMS` ends; for `n >= 1` and no tick pending the sleep timer is left
stopped, enabled, with nothing pending, and the tick service as before; `SLPMS 0` touches neither
timer (R138, R204; the schedule of the sleeps is the model's, log 8). -/
def Obligations.SlpmsCompletesInQuiet : Prop :=
  ∀ (ms : Millis) (s : State), s.sleeping = false → s.env = [] →
    ∃ t, exec (.slpms ms) s = .next t ∧ t.ended = true ∧ t.mscnt = 0#16 ∧ t.se = false ∧
      t.env = [] ∧ t.ext = s.ext ∧
      t.gie = (if ms = 0#16 then s.gie else true) ∧
      (s.tickPending = false →
        t.tick = s.tick ∧ t.sec = s.sec ∧ t.tmrT = s.tmrT ∧
        t.tmrS = (if ms = 0#16 then s.tmrS else ⟨0#8, false, true, false⟩))

/-- "no wake event that arrives at or after `S2` can be lost": whatever happens before `S1` and from
`S2` on, `SLPMS 1` ends, as long as nothing happens between `S1` and `S2` (R140). -/
def Obligations.NoWakeLostAfterMask : Prop :=
  ∀ (s : State) (before : Gap) (after : List Gap), s.sleeping = false →
    s.env = before :: [] :: after →
    ∃ t, exec (.slpms 1#16) s = .next t ∧ t.ended = true

/-- A sleep-timer overflow taken between `S1` and `S2` is consumed: whatever happens before `S1` and
after `S2`, the main context is left asleep in its command, and with `TICK_WAKES = false` no number
of steps wakes it (R141, R213): not those the machine goes on with by itself, nor any number of steps
with any moves of the environment before each. -/
def Obligations.EarlyOverflowHangs : Prop :=
  ∀ (ms : Millis) (s : State) (before : Gap) (after : List Gap), s.cfg.ok = true →
    s.sleeping = false → s.gie = true → s.cfg.tickWakes = false → ms ≠ 0#16 →
    s.env = before ::
      (List.replicate (256 - s.cfg.reloadS.toNat) .pulseS ++ [.take .wakeOvf]) :: after →
    ∃ t, exec (.slpms ms) s = .next t ∧ t.sleeping = true ∧ t.upc.isSome = true ∧
      (∀ k, ∃ u, Sys2Proof.core.run k t = .next u ∧ u.sleeping = true ∧ u.upc = t.upc) ∧
      ∀ moves, ∃ u, stepsUnder moves t = .next u ∧ u.sleeping = true ∧ u.upc = t.upc

/-- A tick interrupt taken in the sleep of `SLPMS 1` runs its handler; it ends the sleep, leaving
the sleep timer running, exactly when `TICK_WAKES` (R142, R183; the rest of the sleep is the model's
schedule, log 8). -/
def Obligations.TickInSleepWakesIfConfigured : Prop :=
  ∀ (s : State), s.sleeping = false → s.tickPending = true → s.tick.toNat < 249 →
    s.env = [[], [], [], [], [.take .tickOvf]] →
    ∃ t, exec (.slpms 1#16) s = .next t ∧ t.ended = true ∧ t.tick = s.tick + 1#8 ∧
      t.tmrS.run = s.cfg.tickWakes

/-! ## Tick service -/

/-- `TSTART`: `CNT_T <- 239`, `OVF_T <- 0`, `IE_T <- 1`, `RUN_T <- 1`, and nothing else but the end
of the command (R150). -/
def Obligations.TstartArmsTickTimer : Prop :=
  ∀ s : State, encode .tstart = 0x3000000000#40 ∧
    exec .tstart s = .next { s with
      tmrT := { cnt := 239#8, run := true, ie := true, ovf := false }, busy := false, upc := none }

/-- `SECRD`: `RES <- SEC`, and nothing else but the end of the command (R152). -/
def Obligations.SecrdReadsSeconds : Prop :=
  ∀ s : State, encode .secrd = 0x3100000000#40 ∧
    exec .secrd s = .next { s with res := s.sec, busy := false, upc := none }

/-- `SECCLR`: `SEC <- 0`, unconditionally, and nothing else but the end of the command (R154). -/
def Obligations.SecclrClearsSeconds : Prop :=
  ∀ s : State, encode .secclr = 0x3200000000#40 ∧
    exec .secclr s = .next { s with sec := 0#8, busy := false, upc := none }

/-- `IEN` sets `GIE` and `IDIS` clears it, and nothing else but the end of the command
(R156, R157). -/
def Obligations.IenIdisWriteGie : Prop :=
  ∀ s : State, encode .ien = 0x3300000000#40 ∧ encode .idis = 0x3400000000#40 ∧
    exec .ien s = .next { s with gie := true, busy := false, upc := none } ∧
    exec .idis s = .next { s with gie := false, busy := false, upc := none }

/-- The lost second: a tick handler run between the host's `SECRD` and its `SECCLR` that carries
`TICK` from 249 to 0 increments `SEC`, and `SECCLR` wipes it; the same handler run after `SECCLR`
counts (R211, program P2, interleavings A and B). -/
def Obligations.SecondLostBetweenReadAndClear : Prop :=
  ∀ (s : State) (rest : List CmdWord) (after : List Gap), s.inv = true → s.upc = none →
    s.cmds = 0x3100000000#40 :: 0x3200000000#40 :: rest →
    s.takeable .tickOvf = true → s.tick = 249#8 →
    (s.env = [] :: [.take .tickOvf] :: after →
      ∃ t u, step s = .next t ∧ step t = .next u ∧ t.res = s.sec ∧ u.sec = 0#8 ∧ u.tick = 0#8) ∧
    (s.env = [] :: [] :: after →
      ∃ t u, step s = .next t ∧ step t = .next u ∧ t.res = s.sec ∧ u.sec = 0#8 ∧
        u.tick = 249#8 ∧ (u.takeInterrupt .tickOvf).sec = 1#8)

/-- With interrupts disabled the read and the reset of `SEC` are atomic with respect to the tick
handler, whatever the gaps bring (R77, R157 corner case 3, R211). -/
def Obligations.MaskedReadAndClearIsAtomic : Prop :=
  ∀ (s : State) (rest : List CmdWord), s.inv = true → s.upc = none → s.gie = false →
    s.cmds = 0x3100000000#40 :: 0x3200000000#40 :: rest →
    ∃ t u, step s = .next t ∧ step t = .next u ∧ t.res = s.sec ∧ u.res = s.sec ∧ u.sec = 0#8 ∧
      u.tick = s.tick ∧ u.gie = false

/-! ## Symbol ROM -/

/-- `SYM` of a digit 0 to 9 leaves the raw table entry in `RES`, and changes nothing else but the
end of the command, in every state (R165, R169). -/
def Obligations.SymReadsTable : Prop :=
  ∀ (digit : Byte) (s : State), digit.toNat < 10 →
    encode (.sym digit) = cmdWord 0x40#8 digit 0#8 0#8 0#8 ∧
    exec (.sym digit) s = .next { s with
      res := s.cfg.symtab.getD digit.toNat 0#8, busy := false, upc := none }

/-- The ten entries of the reference configuration: entry 0 is R166's own, entries 1 to 9 are general
knowledge and the model's (log 23). In every well-formed configuration what R166 asks of any table
holds: that such a configuration alone runs is the model's choice (log 20), and a look-up past the
table, which no command makes, has the model's default (log 24). -/
def Obligations.SymbolTableEntries : Prop :=
  Config.reference.symtab =
    [0x3F#8, 0x06#8, 0x5B#8, 0x4F#8, 0x66#8, 0x6D#8, 0x7D#8, 0x07#8, 0x7F#8, 0x6F#8] ∧
  Config.reference.ok = true ∧
  ∀ c : Config, c.ok = true →
    c.symtab.length = 10 ∧ symtabEntry c 0#8 = 0x3F#8 ∧ ∀ d, (symtabEntry c d).getLsbD 7 = false

/-! ## Timers and interrupts -/

/-- Counting (R171, R172): a count pulse moves its timer and nothing else; a running timer counts up
by one a pulse, and on the pulse after 255 its counter is 0 and its pending bit set, and it runs
on; a stopped timer does not move. -/
def Obligations.TimerCountsAndOverflows : Prop :=
  (∀ s : State, s.countPulse .tickOvf = { s with tmrT := s.tmrT.pulse } ∧
    s.countPulse .wakeOvf = { s with tmrS := s.tmrS.pulse }) ∧
  ∀ (t : Timer) (k : Nat),
    (t.run = true → t.cnt.toNat + k ≤ 255 →
      Timer.pulse^[k] t = { t with cnt := t.cnt + BitVec.ofNat 8 k }) ∧
    (t.run = true → t.cnt.toNat + k = 256 →
      Timer.pulse^[k] t = { t with cnt := 0#8, ovf := true }) ∧
    (t.run = false → Timer.pulse^[k] t = t)

/-- A timer armed with a reload overflows `256 - reload` count pulses later and not before, and its
pending bit stays set however many overflows follow (R139, R151, R175). -/
def Obligations.ArmedTimerPeriod : Prop :=
  ∀ (reload : Byte) (k : Nat),
    (Timer.pulse^[k] (Timer.arm reload)).ovf = decide (256 - reload.toNat ≤ k)

/-- Taking an interrupt: entry, handler body and return as one step. The tick interrupt reloads its
timer, counts the tick and, at 250, the second, and wakes a sleeping main context if `TICK_WAKES`; the
wake interrupt stops the sleep timer and wakes a sleeping main context; neither does anything else,
and a source that is not takeable is not taken (R176, R178, R180, R181, R183). -/
def Obligations.InterruptTaken : Prop :=
  ∀ s : State,
    ((s.gie = true ∧ s.tmrT.ovf = true ∧ s.tmrT.ie = true) →
      s.takeInterrupt .tickOvf = { s with
        tmrT := { s.tmrT with cnt := 239#8, ovf := false }
        tick := if s.tick + 1#8 = 250#8 then 0#8 else s.tick + 1#8
        sec := if s.tick + 1#8 = 250#8 then s.sec + 1#8 else s.sec
        gie := true
        sleeping := s.sleeping && !s.cfg.tickWakes }) ∧
    (¬ (s.gie = true ∧ s.tmrT.ovf = true ∧ s.tmrT.ie = true) → s.takeInterrupt .tickOvf = s) ∧
    ((s.gie = true ∧ s.tmrS.ovf = true ∧ s.tmrS.ie = true) →
      s.takeInterrupt .wakeOvf = { s with
        tmrS := { s.tmrS with run := false, ovf := false }, gie := true, sleeping := false }) ∧
    (¬ (s.gie = true ∧ s.tmrS.ovf = true ∧ s.tmrS.ie = true) → s.takeInterrupt .wakeOvf = s)

/-- An idle block for which the host has no word only waits: a step answers a next state, in which the
timers, the tick service and the environment may have moved on; every register of the main context,
every port and `GIE` are as before, and so are the chain and its draws while its lines are driven
(R22, R113, R119, R182, R201). What the timers do once the environment's moves are used up is the
model's schedule (log 8), and the statement holds of any. -/
def Obligations.IdleStepOnlyWaits : Prop :=
  ∀ s : State, s.cfg.ok = true → s.upc = none → s.sleeping = false → s.cmds = [] →
    ∃ t, step s = .next t ∧ t.env = s.env.tail ∧
      t = { s with
        env := t.env, ext := t.ext, tick := t.tick, sec := t.sec, tmrT := t.tmrT, tmrS := t.tmrS,
        chain := t.chain, draws := t.draws } ∧
      (s.driven = true → t.chain = s.chain ∧ t.draws = s.draws)

/-- Two interrupts takeable at once: whichever is taken first, the other stays takeable, and the
order cannot be observed in the end state (R177). -/
def Obligations.InterruptOrderUnobservable : Prop :=
  ∀ s : State, s.takeable .tickOvf = true → s.takeable .wakeOvf = true →
    (s.takeInterrupt .tickOvf).takeable .wakeOvf = true ∧
    (s.takeInterrupt .wakeOvf).takeable .tickOvf = true ∧
    (s.takeInterrupt .tickOvf).takeInterrupt .wakeOvf =
      (s.takeInterrupt .wakeOvf).takeInterrupt .tickOvf

/-- "feeding the tick interrupt handler exactly 250 times increments the seconds counter by exactly
1 and leaves the tick counter at 0; feeding it 249 times leaves seconds unchanged and tick counter
at 249" (R180). -/
def Obligations.TwoHundredFiftyTicksMakeASecond : Prop :=
  ∀ s : State, s.tick = 0#8 →
    ((State.tickHandler^[249] s).tick = 249#8 ∧ (State.tickHandler^[249] s).sec = s.sec) ∧
    ((State.tickHandler^[250] s).tick = 0#8 ∧ (State.tickHandler^[250] s).sec = s.sec + 1#8)

/-! ## Reset, and the machine as a whole -/

/-- The values the spec gives at reset, whatever the parameters (R41, R42, R201). What R41 leaves
unspecified is not stated: those values are the model's (log 4). -/
def Obligations.ResetValues : Prop :=
  ∀ (params : Inputs) (p : Nat),
    let s := State.resetUnder params
    s.busy = false ∧ s.upc = none ∧ s.sleeping = false ∧ s.se = false ∧ s.gie = false ∧
      s.dir p = 0x00#8 ∧ s.out p = 0x00#8 ∧ s.tick = 0#8 ∧ s.sec = 0#8 ∧ s.cmderr = false ∧
      s.tmrT.run = false ∧ s.tmrT.ie = false ∧ s.tmrT.ovf = false ∧
      s.tmrS.run = false ∧ s.tmrS.ie = false ∧ s.tmrS.ovf = false

/-- The invariant holds at reset, under every well-formed configuration and whatever the host and the
environment have to come (R31, R41, R42). -/
def Obligations.InvariantAtReset : Prop :=
  State.reset.inv = true ∧
  ∀ params : Inputs, params.cfg.ok = true → Memory.wf params.ext = true →
    (State.resetUnder params).inv = true

/-- Every step keeps the invariant: canonical registers (R25), `BUSY` exactly while an operation is
in progress (R21), `TICK` below 250 (R32), sleep only inside an operation with `SE = 1` and `GIE = 1`
(R36, R183), the edge detectors in step (R112), `SE = 0` when idle (R144). -/
def Obligations.StepKeepsInvariant : Prop :=
  ∀ s t : State, s.inv = true → step s = .next t → t.inv = true

/-- No operation fails: from every state that meets the invariant a step answers a next state,
whatever the host issues and whatever the environment does (R6, R185). -/
def Obligations.NoOperationFails : Prop :=
  ∀ s : State, s.inv = true → ∃ t, step s = .next t

/-- Every command answers a next state under a well-formed configuration, in every state (R6,
R101). -/
def Obligations.EveryCommandAnswers : Prop :=
  ∀ (i : Instr) (s : State), s.cfg.ok = true → ∃ t, exec i s = .next t

/-- The parameters of the step relation are no state of the block: no step writes one. The
configuration stays; of the words and the moves to come a step only takes some off the front; and
`EXT` changes by the environment's own moves only (R27, R31, R42). -/
def Obligations.StepOnlyTakesParameters : Prop :=
  ∀ s t : State, step s = .next t →
    t.cfg = s.cfg ∧ t.cmds <:+ s.cmds ∧ t.env <:+ s.env ∧
      ((∀ g ∈ s.env, ∀ port levels, Event.ext port levels ∉ g) → t.ext = s.ext)

/-- `CMDERR` is sticky: no step clears it (R38). -/
def Obligations.CommandErrorIsSticky : Prop :=
  ∀ s t : State, s.cmderr = true → step s = .next t → t.cmderr = true

/-- `RES` is written by `PRD`, `SECRD` and `SYM` and by no other operation (R20). -/
def Obligations.OnlyReadsWriteResult : Prop :=
  ∀ (i : Instr) (s t : State), exec i s = .next t →
    t.res = s.res ∨ (∃ pin, i = .prd pin) ∨ i = .secrd ∨ ∃ digit, i = .sym digit

/-- No operation but `SLPMS`, by itself or in `IND`, enters sleep (R144, R183). -/
def Obligations.OnlySleepsSleep : Prop :=
  ∀ (i : Instr) (s t : State), exec i s = .next t → s.sleeping = false → t.sleeping = true →
    (∃ ms, i = .slpms ms) ∨ ∃ s0 s1 s2 s3, i = .ind s0 s1 s2 s3

/-- The tick timer, once started, runs on: no step stops it; and no step clears an interrupt enable
of either timer (R150, R174). -/
def Obligations.StartedTimersStayEnabled : Prop :=
  ∀ s t : State, step s = .next t →
    (s.tmrT.run = true → t.tmrT.run = true) ∧
    (s.tmrT.ie = true → t.tmrT.ie = true) ∧
    (s.tmrS.ie = true → t.tmrS.ie = true)
end

