-- ==== Sys2Proof/Laws/Memory.lean ====
section
/-! SUPPORT. The laws of the cells: what a write makes a read answer, and that every operation keeps
the canonical form. -/

namespace Sys2Proof.Machine

@[simp] theorem Memory.get_nil (x : Nat) : Memory.get [] x = Memory.unlisted := rfl

theorem Memory.get_cons (c : Host.Cell) (m : Memory) (x : Nat) :
    Memory.get (c :: m) x = if x = c.1 then c.2 else Memory.get m x := rfl

/-- A well-formed list starts below all the addresses after its head. -/
theorem Memory.wf_cons {c : Host.Cell} {m : Memory} :
    Memory.wf (c :: m) = true ↔
      c.2 ≠ Memory.unlisted ∧ (∀ d ∈ m, c.1 < d.1) ∧ Memory.wf m = true := by
  obtain ⟨a, v⟩ := c
  simp [Memory.wf, List.all_eq_true, and_assoc]

/-- An address below all the listed ones reads as unlisted. -/
theorem Memory.get_of_lt {m : Memory} {x : Nat} (h : ∀ d ∈ m, x < d.1) :
    Memory.get m x = Memory.unlisted := by
  induction m with
  | nil => rfl
  | cons c m ih =>
    rw [Memory.get_cons, if_neg (Nat.ne_of_lt (h c (by simp))), ih fun d hd => h d (by simp [hd])]

theorem Memory.get_cons_same {m : Memory} {x : Nat} {v : Byte} (h : ∀ d ∈ m, x < d.1) :
    Memory.get (Memory.cons x v m) x = v := by
  unfold Memory.cons
  split
  · next hv => rw [Memory.get_of_lt h, hv]
  · simp [Memory.get_cons]

theorem Memory.get_cons_other {m : Memory} {x y : Nat} {v : Byte} (h : y ≠ x) :
    Memory.get (Memory.cons x v m) y = Memory.get m y := by
  unfold Memory.cons
  split
  · rfl
  · rw [Memory.get_cons, if_neg h]

/-- A read of the address written answers the value written. -/
theorem Memory.get_put_same {m : Memory} (x : Nat) (v : Byte) (h : Memory.wf m = true) :
    Memory.get (Memory.put m x v) x = v := by
  induction m with
  | nil => exact Memory.get_cons_same (by simp)
  | cons c m ih =>
    obtain ⟨a, u⟩ := c
    obtain ⟨-, hlt, hwf⟩ := Memory.wf_cons.1 h
    simp only [Memory.put]
    split
    · next hx =>
      refine Memory.get_cons_same fun d hd => ?_
      rcases List.mem_cons.1 hd with rfl | hd
      · exact hx
      · exact Nat.lt_trans hx (hlt d hd)
    · split
      · next hx => exact Memory.get_cons_same (hx ▸ hlt)
      · next hx => rw [Memory.get_cons, if_neg hx, ih hwf]

/-- A read of any other address answers what it answered before. -/
theorem Memory.get_put_other (m : Memory) {x y : Nat} (v : Byte) (h : y ≠ x) :
    Memory.get (Memory.put m x v) y = Memory.get m y := by
  induction m with
  | nil => exact Memory.get_cons_other h
  | cons c m ih =>
    obtain ⟨a, u⟩ := c
    simp only [Memory.put]
    split
    · exact Memory.get_cons_other h
    · split
      · next hx => rw [Memory.get_cons_other h, Memory.get_cons, if_neg (by rw [← hx]; exact h)]
      · rw [Memory.get_cons, Memory.get_cons, ih]

theorem Memory.mem_cons {m : Memory} {x : Nat} {v : Byte} {d : Host.Cell}
    (h : d ∈ Memory.cons x v m) : d.1 = x ∨ d ∈ m := by
  unfold Memory.cons at h
  split at h
  · exact .inr h
  · rcases List.mem_cons.1 h with rfl | h
    · exact .inl rfl
    · exact .inr h

/-- A write lists no address but the one written and those listed before. -/
theorem Memory.mem_put {m : Memory} {x : Nat} {v : Byte} {d : Host.Cell}
    (h : d ∈ Memory.put m x v) : d.1 = x ∨ d ∈ m := by
  induction m with
  | nil => exact Memory.mem_cons h
  | cons c m ih =>
    obtain ⟨a, u⟩ := c
    simp only [Memory.put] at h
    split at h
    · exact Memory.mem_cons h
    · split at h
      · exact (Memory.mem_cons h).imp_right fun h => List.mem_cons_of_mem _ h
      · rcases List.mem_cons.1 h with rfl | h
        · exact .inr (by simp)
        · exact (ih h).imp_right fun h => List.mem_cons_of_mem _ h

theorem Memory.cons_wf {m : Memory} {x : Nat} {v : Byte} (h : ∀ d ∈ m, x < d.1)
    (hm : Memory.wf m = true) : Memory.wf (Memory.cons x v m) = true := by
  unfold Memory.cons
  split
  · exact hm
  · next hv => exact Memory.wf_cons.2 ⟨hv, h, hm⟩

/-- A write keeps the canonical form. -/
theorem Memory.put_wf {m : Memory} (x : Nat) (v : Byte) (h : Memory.wf m = true) :
    Memory.wf (Memory.put m x v) = true := by
  induction m with
  | nil => exact Memory.cons_wf (by simp) rfl
  | cons c m ih =>
    obtain ⟨a, u⟩ := c
    obtain ⟨hu, hlt, hwf⟩ := Memory.wf_cons.1 h
    simp only [Memory.put]
    split
    · next hx =>
      refine Memory.cons_wf (fun d hd => ?_) h
      rcases List.mem_cons.1 hd with rfl | hd
      · exact hx
      · exact Nat.lt_trans hx (hlt d hd)
    · split
      · next hx => exact Memory.cons_wf (hx ▸ hlt) hwf
      · next hge hne =>
        refine Memory.wf_cons.2 ⟨hu, fun d hd => ?_, ih hwf⟩
        rcases Memory.mem_put hd with hd | hd
        · rw [hd]; exact Nat.lt_of_le_of_ne (Nat.le_of_not_lt hge) (Ne.symm hne)
        · exact hlt d hd

/-- A write to a `DIR` or `OUT` register of a port stores it where registers are (R25, R60). -/
theorem ioHome_put {c : Config} {m : Memory} {x : Nat} (v : Byte) (h : ioHome c m = true)
    (hx : x < 3 * c.nports) (h1 : x % 3 ≠ 1) : ioHome c (Memory.put m x v) = true := by
  unfold ioHome at *
  rw [List.all_eq_true] at *
  intro d hd
  rcases Memory.mem_put hd with hd | hd
  · simp [hd, hx, h1]
  · exact h d hd

end Sys2Proof.Machine
end

