-- ==== Sys2Proof/Laws/State.lean ====
section
/-! SUPPORT. What each named update of the state leaves as it was, one lemma per field, and what it
writes where that is short. -/

namespace Sys2Proof.Machine

variable (s : State)

/-! ### `State.setTmp` -/

@[simp] theorem State.setTmp_cfg (v : Byte) : (s.setTmp v).cfg = s.cfg := rfl
@[simp] theorem State.setTmp_cmds (v : Byte) : (s.setTmp v).cmds = s.cmds := rfl
@[simp] theorem State.setTmp_env (v : Byte) : (s.setTmp v).env = s.env := rfl
@[simp] theorem State.setTmp_ext (v : Byte) : (s.setTmp v).ext = s.ext := rfl
@[simp] theorem State.setTmp_cmd (v : Byte) : (s.setTmp v).cmd = s.cmd := rfl
@[simp] theorem State.setTmp_res (v : Byte) : (s.setTmp v).res = s.res := rfl
@[simp] theorem State.setTmp_busy (v : Byte) : (s.setTmp v).busy = s.busy := rfl
@[simp] theorem State.setTmp_upc (v : Byte) : (s.setTmp v).upc = s.upc := rfl
@[simp] theorem State.setTmp_dly (v : Byte) : (s.setTmp v).dly = s.dly := rfl
@[simp] theorem State.setTmp_mscnt (v : Byte) : (s.setTmp v).mscnt = s.mscnt := rfl
@[simp] theorem State.setTmp_io (v : Byte) : (s.setTmp v).io = s.io := rfl
@[simp] theorem State.setTmp_chain (v : Byte) : (s.setTmp v).chain = s.chain := rfl
@[simp] theorem State.setTmp_tick (v : Byte) : (s.setTmp v).tick = s.tick := rfl
@[simp] theorem State.setTmp_sec (v : Byte) : (s.setTmp v).sec = s.sec := rfl
@[simp] theorem State.setTmp_tmrT (v : Byte) : (s.setTmp v).tmrT = s.tmrT := rfl
@[simp] theorem State.setTmp_tmrS (v : Byte) : (s.setTmp v).tmrS = s.tmrS := rfl
@[simp] theorem State.setTmp_gie (v : Byte) : (s.setTmp v).gie = s.gie := rfl
@[simp] theorem State.setTmp_se (v : Byte) : (s.setTmp v).se = s.se := rfl
@[simp] theorem State.setTmp_sleeping (v : Byte) : (s.setTmp v).sleeping = s.sleeping := rfl
@[simp] theorem State.setTmp_cmderr (v : Byte) : (s.setTmp v).cmderr = s.cmderr := rfl
@[simp] theorem State.setTmp_draws (v : Byte) : (s.setTmp v).draws = s.draws := rfl
@[simp] theorem State.setTmp_edges (v : Byte) : (s.setTmp v).edges = s.edges := rfl

/-! ### `State.loadShift` -/

@[simp] theorem State.loadShift_cfg (v : Byte) : (s.loadShift v).cfg = s.cfg := rfl
@[simp] theorem State.loadShift_cmds (v : Byte) : (s.loadShift v).cmds = s.cmds := rfl
@[simp] theorem State.loadShift_env (v : Byte) : (s.loadShift v).env = s.env := rfl
@[simp] theorem State.loadShift_ext (v : Byte) : (s.loadShift v).ext = s.ext := rfl
@[simp] theorem State.loadShift_cmd (v : Byte) : (s.loadShift v).cmd = s.cmd := rfl
@[simp] theorem State.loadShift_res (v : Byte) : (s.loadShift v).res = s.res := rfl
@[simp] theorem State.loadShift_busy (v : Byte) : (s.loadShift v).busy = s.busy := rfl
@[simp] theorem State.loadShift_upc (v : Byte) : (s.loadShift v).upc = s.upc := rfl
@[simp] theorem State.loadShift_dly (v : Byte) : (s.loadShift v).dly = s.dly := rfl
@[simp] theorem State.loadShift_mscnt (v : Byte) : (s.loadShift v).mscnt = s.mscnt := rfl
@[simp] theorem State.loadShift_io (v : Byte) : (s.loadShift v).io = s.io := rfl
@[simp] theorem State.loadShift_chain (v : Byte) : (s.loadShift v).chain = s.chain := rfl
@[simp] theorem State.loadShift_tick (v : Byte) : (s.loadShift v).tick = s.tick := rfl
@[simp] theorem State.loadShift_sec (v : Byte) : (s.loadShift v).sec = s.sec := rfl
@[simp] theorem State.loadShift_tmrT (v : Byte) : (s.loadShift v).tmrT = s.tmrT := rfl
@[simp] theorem State.loadShift_tmrS (v : Byte) : (s.loadShift v).tmrS = s.tmrS := rfl
@[simp] theorem State.loadShift_gie (v : Byte) : (s.loadShift v).gie = s.gie := rfl
@[simp] theorem State.loadShift_se (v : Byte) : (s.loadShift v).se = s.se := rfl
@[simp] theorem State.loadShift_sleeping (v : Byte) : (s.loadShift v).sleeping = s.sleeping := rfl
@[simp] theorem State.loadShift_cmderr (v : Byte) : (s.loadShift v).cmderr = s.cmderr := rfl
@[simp] theorem State.loadShift_draws (v : Byte) : (s.loadShift v).draws = s.draws := rfl
@[simp] theorem State.loadShift_edges (v : Byte) : (s.loadShift v).edges = s.edges := rfl

/-! ### `State.nextBit` -/

@[simp] theorem State.nextBit_cfg : s.nextBit.cfg = s.cfg := rfl
@[simp] theorem State.nextBit_cmds : s.nextBit.cmds = s.cmds := rfl
@[simp] theorem State.nextBit_env : s.nextBit.env = s.env := rfl
@[simp] theorem State.nextBit_ext : s.nextBit.ext = s.ext := rfl
@[simp] theorem State.nextBit_cmd : s.nextBit.cmd = s.cmd := rfl
@[simp] theorem State.nextBit_res : s.nextBit.res = s.res := rfl
@[simp] theorem State.nextBit_busy : s.nextBit.busy = s.busy := rfl
@[simp] theorem State.nextBit_upc : s.nextBit.upc = s.upc := rfl
@[simp] theorem State.nextBit_dly : s.nextBit.dly = s.dly := rfl
@[simp] theorem State.nextBit_mscnt : s.nextBit.mscnt = s.mscnt := rfl
@[simp] theorem State.nextBit_io : s.nextBit.io = s.io := rfl
@[simp] theorem State.nextBit_chain : s.nextBit.chain = s.chain := rfl
@[simp] theorem State.nextBit_tick : s.nextBit.tick = s.tick := rfl
@[simp] theorem State.nextBit_sec : s.nextBit.sec = s.sec := rfl
@[simp] theorem State.nextBit_tmrT : s.nextBit.tmrT = s.tmrT := rfl
@[simp] theorem State.nextBit_tmrS : s.nextBit.tmrS = s.tmrS := rfl
@[simp] theorem State.nextBit_gie : s.nextBit.gie = s.gie := rfl
@[simp] theorem State.nextBit_se : s.nextBit.se = s.se := rfl
@[simp] theorem State.nextBit_sleeping : s.nextBit.sleeping = s.sleeping := rfl
@[simp] theorem State.nextBit_cmderr : s.nextBit.cmderr = s.cmderr := rfl
@[simp] theorem State.nextBit_draws : s.nextBit.draws = s.draws := rfl
@[simp] theorem State.nextBit_edges : s.nextBit.edges = s.edges := rfl

/-! ### `State.loadSymbols` -/

@[simp] theorem State.loadSymbols_cfg (b : Symbols) : (s.loadSymbols b).cfg = s.cfg := rfl
@[simp] theorem State.loadSymbols_cmds (b : Symbols) : (s.loadSymbols b).cmds = s.cmds := rfl
@[simp] theorem State.loadSymbols_env (b : Symbols) : (s.loadSymbols b).env = s.env := rfl
@[simp] theorem State.loadSymbols_ext (b : Symbols) : (s.loadSymbols b).ext = s.ext := rfl
@[simp] theorem State.loadSymbols_cmd (b : Symbols) : (s.loadSymbols b).cmd = s.cmd := rfl
@[simp] theorem State.loadSymbols_res (b : Symbols) : (s.loadSymbols b).res = s.res := rfl
@[simp] theorem State.loadSymbols_busy (b : Symbols) : (s.loadSymbols b).busy = s.busy := rfl
@[simp] theorem State.loadSymbols_upc (b : Symbols) : (s.loadSymbols b).upc = s.upc := rfl
@[simp] theorem State.loadSymbols_dly (b : Symbols) : (s.loadSymbols b).dly = s.dly := rfl
@[simp] theorem State.loadSymbols_mscnt (b : Symbols) : (s.loadSymbols b).mscnt = s.mscnt := rfl
@[simp] theorem State.loadSymbols_io (b : Symbols) : (s.loadSymbols b).io = s.io := rfl
@[simp] theorem State.loadSymbols_chain (b : Symbols) : (s.loadSymbols b).chain = s.chain := rfl
@[simp] theorem State.loadSymbols_tick (b : Symbols) : (s.loadSymbols b).tick = s.tick := rfl
@[simp] theorem State.loadSymbols_sec (b : Symbols) : (s.loadSymbols b).sec = s.sec := rfl
@[simp] theorem State.loadSymbols_tmrT (b : Symbols) : (s.loadSymbols b).tmrT = s.tmrT := rfl
@[simp] theorem State.loadSymbols_tmrS (b : Symbols) : (s.loadSymbols b).tmrS = s.tmrS := rfl
@[simp] theorem State.loadSymbols_gie (b : Symbols) : (s.loadSymbols b).gie = s.gie := rfl
@[simp] theorem State.loadSymbols_se (b : Symbols) : (s.loadSymbols b).se = s.se := rfl
@[simp] theorem State.loadSymbols_sleeping (b : Symbols) :
    (s.loadSymbols b).sleeping = s.sleeping := rfl
@[simp] theorem State.loadSymbols_cmderr (b : Symbols) : (s.loadSymbols b).cmderr = s.cmderr := rfl
@[simp] theorem State.loadSymbols_draws (b : Symbols) : (s.loadSymbols b).draws = s.draws := rfl
@[simp] theorem State.loadSymbols_edges (b : Symbols) : (s.loadSymbols b).edges = s.edges := rfl

/-! ### `State.loadSegment` -/

@[simp] theorem State.loadSegment_cfg : s.loadSegment.cfg = s.cfg := rfl
@[simp] theorem State.loadSegment_cmds : s.loadSegment.cmds = s.cmds := rfl
@[simp] theorem State.loadSegment_env : s.loadSegment.env = s.env := rfl
@[simp] theorem State.loadSegment_ext : s.loadSegment.ext = s.ext := rfl
@[simp] theorem State.loadSegment_cmd : s.loadSegment.cmd = s.cmd := rfl
@[simp] theorem State.loadSegment_res : s.loadSegment.res = s.res := rfl
@[simp] theorem State.loadSegment_busy : s.loadSegment.busy = s.busy := rfl
@[simp] theorem State.loadSegment_upc : s.loadSegment.upc = s.upc := rfl
@[simp] theorem State.loadSegment_dly : s.loadSegment.dly = s.dly := rfl
@[simp] theorem State.loadSegment_mscnt : s.loadSegment.mscnt = s.mscnt := rfl
@[simp] theorem State.loadSegment_io : s.loadSegment.io = s.io := rfl
@[simp] theorem State.loadSegment_chain : s.loadSegment.chain = s.chain := rfl
@[simp] theorem State.loadSegment_tick : s.loadSegment.tick = s.tick := rfl
@[simp] theorem State.loadSegment_sec : s.loadSegment.sec = s.sec := rfl
@[simp] theorem State.loadSegment_tmrT : s.loadSegment.tmrT = s.tmrT := rfl
@[simp] theorem State.loadSegment_tmrS : s.loadSegment.tmrS = s.tmrS := rfl
@[simp] theorem State.loadSegment_gie : s.loadSegment.gie = s.gie := rfl
@[simp] theorem State.loadSegment_se : s.loadSegment.se = s.se := rfl
@[simp] theorem State.loadSegment_sleeping : s.loadSegment.sleeping = s.sleeping := rfl
@[simp] theorem State.loadSegment_cmderr : s.loadSegment.cmderr = s.cmderr := rfl
@[simp] theorem State.loadSegment_draws : s.loadSegment.draws = s.draws := rfl
@[simp] theorem State.loadSegment_edges : s.loadSegment.edges = s.edges := rfl

/-! ### `State.nextDigit` -/

@[simp] theorem State.nextDigit_cfg : s.nextDigit.cfg = s.cfg := rfl
@[simp] theorem State.nextDigit_cmds : s.nextDigit.cmds = s.cmds := rfl
@[simp] theorem State.nextDigit_env : s.nextDigit.env = s.env := rfl
@[simp] theorem State.nextDigit_ext : s.nextDigit.ext = s.ext := rfl
@[simp] theorem State.nextDigit_cmd : s.nextDigit.cmd = s.cmd := rfl
@[simp] theorem State.nextDigit_res : s.nextDigit.res = s.res := rfl
@[simp] theorem State.nextDigit_busy : s.nextDigit.busy = s.busy := rfl
@[simp] theorem State.nextDigit_upc : s.nextDigit.upc = s.upc := rfl
@[simp] theorem State.nextDigit_dly : s.nextDigit.dly = s.dly := rfl
@[simp] theorem State.nextDigit_mscnt : s.nextDigit.mscnt = s.mscnt := rfl
@[simp] theorem State.nextDigit_io : s.nextDigit.io = s.io := rfl
@[simp] theorem State.nextDigit_chain : s.nextDigit.chain = s.chain := rfl
@[simp] theorem State.nextDigit_tick : s.nextDigit.tick = s.tick := rfl
@[simp] theorem State.nextDigit_sec : s.nextDigit.sec = s.sec := rfl
@[simp] theorem State.nextDigit_tmrT : s.nextDigit.tmrT = s.tmrT := rfl
@[simp] theorem State.nextDigit_tmrS : s.nextDigit.tmrS = s.tmrS := rfl
@[simp] theorem State.nextDigit_gie : s.nextDigit.gie = s.gie := rfl
@[simp] theorem State.nextDigit_se : s.nextDigit.se = s.se := rfl
@[simp] theorem State.nextDigit_sleeping : s.nextDigit.sleeping = s.sleeping := rfl
@[simp] theorem State.nextDigit_cmderr : s.nextDigit.cmderr = s.cmderr := rfl
@[simp] theorem State.nextDigit_draws : s.nextDigit.draws = s.draws := rfl
@[simp] theorem State.nextDigit_edges : s.nextDigit.edges = s.edges := rfl

/-! ### `State.armTimer` -/

@[simp] theorem State.armTimer_cfg : s.armTimer.cfg = s.cfg := rfl
@[simp] theorem State.armTimer_cmds : s.armTimer.cmds = s.cmds := rfl
@[simp] theorem State.armTimer_env : s.armTimer.env = s.env := rfl
@[simp] theorem State.armTimer_ext : s.armTimer.ext = s.ext := rfl
@[simp] theorem State.armTimer_cmd : s.armTimer.cmd = s.cmd := rfl
@[simp] theorem State.armTimer_res : s.armTimer.res = s.res := rfl
@[simp] theorem State.armTimer_busy : s.armTimer.busy = s.busy := rfl
@[simp] theorem State.armTimer_upc : s.armTimer.upc = s.upc := rfl
@[simp] theorem State.armTimer_temps : s.armTimer.temps = s.temps := rfl
@[simp] theorem State.armTimer_dly : s.armTimer.dly = s.dly := rfl
@[simp] theorem State.armTimer_mscnt : s.armTimer.mscnt = s.mscnt := rfl
@[simp] theorem State.armTimer_io : s.armTimer.io = s.io := rfl
@[simp] theorem State.armTimer_chain : s.armTimer.chain = s.chain := rfl
@[simp] theorem State.armTimer_tick : s.armTimer.tick = s.tick := rfl
@[simp] theorem State.armTimer_sec : s.armTimer.sec = s.sec := rfl
@[simp] theorem State.armTimer_tmrT : s.armTimer.tmrT = s.tmrT := rfl
@[simp] theorem State.armTimer_gie : s.armTimer.gie = s.gie := rfl
@[simp] theorem State.armTimer_se : s.armTimer.se = s.se := rfl
@[simp] theorem State.armTimer_sleeping : s.armTimer.sleeping = s.sleeping := rfl
@[simp] theorem State.armTimer_cmderr : s.armTimer.cmderr = s.cmderr := rfl
@[simp] theorem State.armTimer_draws : s.armTimer.draws = s.draws := rfl
@[simp] theorem State.armTimer_edges : s.armTimer.edges = s.edges := rfl

/-! ### `State.enterSleep` -/

@[simp] theorem State.enterSleep_cfg : s.enterSleep.cfg = s.cfg := rfl
@[simp] theorem State.enterSleep_cmds : s.enterSleep.cmds = s.cmds := rfl
@[simp] theorem State.enterSleep_env : s.enterSleep.env = s.env := rfl
@[simp] theorem State.enterSleep_ext : s.enterSleep.ext = s.ext := rfl
@[simp] theorem State.enterSleep_cmd : s.enterSleep.cmd = s.cmd := rfl
@[simp] theorem State.enterSleep_res : s.enterSleep.res = s.res := rfl
@[simp] theorem State.enterSleep_busy : s.enterSleep.busy = s.busy := rfl
@[simp] theorem State.enterSleep_upc : s.enterSleep.upc = s.upc := rfl
@[simp] theorem State.enterSleep_temps : s.enterSleep.temps = s.temps := rfl
@[simp] theorem State.enterSleep_dly : s.enterSleep.dly = s.dly := rfl
@[simp] theorem State.enterSleep_mscnt : s.enterSleep.mscnt = s.mscnt := rfl
@[simp] theorem State.enterSleep_io : s.enterSleep.io = s.io := rfl
@[simp] theorem State.enterSleep_chain : s.enterSleep.chain = s.chain := rfl
@[simp] theorem State.enterSleep_tick : s.enterSleep.tick = s.tick := rfl
@[simp] theorem State.enterSleep_sec : s.enterSleep.sec = s.sec := rfl
@[simp] theorem State.enterSleep_tmrT : s.enterSleep.tmrT = s.tmrT := rfl
@[simp] theorem State.enterSleep_tmrS : s.enterSleep.tmrS = s.tmrS := rfl
@[simp] theorem State.enterSleep_se : s.enterSleep.se = s.se := rfl
@[simp] theorem State.enterSleep_cmderr : s.enterSleep.cmderr = s.cmderr := rfl
@[simp] theorem State.enterSleep_draws : s.enterSleep.draws = s.draws := rfl
@[simp] theorem State.enterSleep_edges : s.enterSleep.edges = s.edges := rfl

/-! ### `State.startTick` -/

@[simp] theorem State.startTick_cfg : s.startTick.cfg = s.cfg := rfl
@[simp] theorem State.startTick_cmds : s.startTick.cmds = s.cmds := rfl
@[simp] theorem State.startTick_env : s.startTick.env = s.env := rfl
@[simp] theorem State.startTick_ext : s.startTick.ext = s.ext := rfl
@[simp] theorem State.startTick_cmd : s.startTick.cmd = s.cmd := rfl
@[simp] theorem State.startTick_res : s.startTick.res = s.res := rfl
@[simp] theorem State.startTick_busy : s.startTick.busy = s.busy := rfl
@[simp] theorem State.startTick_upc : s.startTick.upc = s.upc := rfl
@[simp] theorem State.startTick_temps : s.startTick.temps = s.temps := rfl
@[simp] theorem State.startTick_dly : s.startTick.dly = s.dly := rfl
@[simp] theorem State.startTick_mscnt : s.startTick.mscnt = s.mscnt := rfl
@[simp] theorem State.startTick_io : s.startTick.io = s.io := rfl
@[simp] theorem State.startTick_chain : s.startTick.chain = s.chain := rfl
@[simp] theorem State.startTick_tick : s.startTick.tick = s.tick := rfl
@[simp] theorem State.startTick_sec : s.startTick.sec = s.sec := rfl
@[simp] theorem State.startTick_tmrS : s.startTick.tmrS = s.tmrS := rfl
@[simp] theorem State.startTick_gie : s.startTick.gie = s.gie := rfl
@[simp] theorem State.startTick_se : s.startTick.se = s.se := rfl
@[simp] theorem State.startTick_sleeping : s.startTick.sleeping = s.sleeping := rfl
@[simp] theorem State.startTick_cmderr : s.startTick.cmderr = s.cmderr := rfl
@[simp] theorem State.startTick_draws : s.startTick.draws = s.draws := rfl
@[simp] theorem State.startTick_edges : s.startTick.edges = s.edges := rfl

/-! ### `State.freeTemps` -/

@[simp] theorem State.freeTemps_cfg : s.freeTemps.cfg = s.cfg := rfl
@[simp] theorem State.freeTemps_cmds : s.freeTemps.cmds = s.cmds := rfl
@[simp] theorem State.freeTemps_env : s.freeTemps.env = s.env := rfl
@[simp] theorem State.freeTemps_ext : s.freeTemps.ext = s.ext := rfl
@[simp] theorem State.freeTemps_cmd : s.freeTemps.cmd = s.cmd := rfl
@[simp] theorem State.freeTemps_res : s.freeTemps.res = s.res := rfl
@[simp] theorem State.freeTemps_busy : s.freeTemps.busy = s.busy := rfl
@[simp] theorem State.freeTemps_upc : s.freeTemps.upc = s.upc := rfl
@[simp] theorem State.freeTemps_dly : s.freeTemps.dly = s.dly := rfl
@[simp] theorem State.freeTemps_mscnt : s.freeTemps.mscnt = s.mscnt := rfl
@[simp] theorem State.freeTemps_io : s.freeTemps.io = s.io := rfl
@[simp] theorem State.freeTemps_chain : s.freeTemps.chain = s.chain := rfl
@[simp] theorem State.freeTemps_tick : s.freeTemps.tick = s.tick := rfl
@[simp] theorem State.freeTemps_sec : s.freeTemps.sec = s.sec := rfl
@[simp] theorem State.freeTemps_tmrT : s.freeTemps.tmrT = s.tmrT := rfl
@[simp] theorem State.freeTemps_tmrS : s.freeTemps.tmrS = s.tmrS := rfl
@[simp] theorem State.freeTemps_gie : s.freeTemps.gie = s.gie := rfl
@[simp] theorem State.freeTemps_se : s.freeTemps.se = s.se := rfl
@[simp] theorem State.freeTemps_sleeping : s.freeTemps.sleeping = s.sleeping := rfl
@[simp] theorem State.freeTemps_cmderr : s.freeTemps.cmderr = s.cmderr := rfl
@[simp] theorem State.freeTemps_edges : s.freeTemps.edges = s.edges := rfl

/-! ### `State.refuseCommand` -/

@[simp] theorem State.refuseCommand_cfg : s.refuseCommand.cfg = s.cfg := rfl
@[simp] theorem State.refuseCommand_cmds : s.refuseCommand.cmds = s.cmds := rfl
@[simp] theorem State.refuseCommand_env : s.refuseCommand.env = s.env := rfl
@[simp] theorem State.refuseCommand_ext : s.refuseCommand.ext = s.ext := rfl
@[simp] theorem State.refuseCommand_cmd : s.refuseCommand.cmd = s.cmd := rfl
@[simp] theorem State.refuseCommand_res : s.refuseCommand.res = s.res := rfl
@[simp] theorem State.refuseCommand_temps : s.refuseCommand.temps = s.temps := rfl
@[simp] theorem State.refuseCommand_dly : s.refuseCommand.dly = s.dly := rfl
@[simp] theorem State.refuseCommand_mscnt : s.refuseCommand.mscnt = s.mscnt := rfl
@[simp] theorem State.refuseCommand_io : s.refuseCommand.io = s.io := rfl
@[simp] theorem State.refuseCommand_chain : s.refuseCommand.chain = s.chain := rfl
@[simp] theorem State.refuseCommand_tick : s.refuseCommand.tick = s.tick := rfl
@[simp] theorem State.refuseCommand_sec : s.refuseCommand.sec = s.sec := rfl
@[simp] theorem State.refuseCommand_tmrT : s.refuseCommand.tmrT = s.tmrT := rfl
@[simp] theorem State.refuseCommand_tmrS : s.refuseCommand.tmrS = s.tmrS := rfl
@[simp] theorem State.refuseCommand_gie : s.refuseCommand.gie = s.gie := rfl
@[simp] theorem State.refuseCommand_se : s.refuseCommand.se = s.se := rfl
@[simp] theorem State.refuseCommand_sleeping : s.refuseCommand.sleeping = s.sleeping := rfl
@[simp] theorem State.refuseCommand_draws : s.refuseCommand.draws = s.draws := rfl
@[simp] theorem State.refuseCommand_edges : s.refuseCommand.edges = s.edges := rfl

/-! ### `State.floatChain` -/

@[simp] theorem State.floatChain_cfg : s.floatChain.cfg = s.cfg := rfl
@[simp] theorem State.floatChain_cmds : s.floatChain.cmds = s.cmds := rfl
@[simp] theorem State.floatChain_env : s.floatChain.env = s.env := rfl
@[simp] theorem State.floatChain_ext : s.floatChain.ext = s.ext := rfl
@[simp] theorem State.floatChain_cmd : s.floatChain.cmd = s.cmd := rfl
@[simp] theorem State.floatChain_res : s.floatChain.res = s.res := rfl
@[simp] theorem State.floatChain_busy : s.floatChain.busy = s.busy := rfl
@[simp] theorem State.floatChain_upc : s.floatChain.upc = s.upc := rfl
@[simp] theorem State.floatChain_temps : s.floatChain.temps = s.temps := rfl
@[simp] theorem State.floatChain_dly : s.floatChain.dly = s.dly := rfl
@[simp] theorem State.floatChain_mscnt : s.floatChain.mscnt = s.mscnt := rfl
@[simp] theorem State.floatChain_io : s.floatChain.io = s.io := rfl
@[simp] theorem State.floatChain_tick : s.floatChain.tick = s.tick := rfl
@[simp] theorem State.floatChain_sec : s.floatChain.sec = s.sec := rfl
@[simp] theorem State.floatChain_tmrT : s.floatChain.tmrT = s.tmrT := rfl
@[simp] theorem State.floatChain_tmrS : s.floatChain.tmrS = s.tmrS := rfl
@[simp] theorem State.floatChain_gie : s.floatChain.gie = s.gie := rfl
@[simp] theorem State.floatChain_se : s.floatChain.se = s.se := rfl
@[simp] theorem State.floatChain_sleeping : s.floatChain.sleeping = s.sleeping := rfl
@[simp] theorem State.floatChain_cmderr : s.floatChain.cmderr = s.cmderr := rfl
@[simp] theorem State.floatChain_edges : s.floatChain.edges = s.edges := rfl

/-! ### `State.tickHandler` -/

@[simp] theorem State.tickHandler_cfg : s.tickHandler.cfg = s.cfg := rfl
@[simp] theorem State.tickHandler_cmds : s.tickHandler.cmds = s.cmds := rfl
@[simp] theorem State.tickHandler_env : s.tickHandler.env = s.env := rfl
@[simp] theorem State.tickHandler_ext : s.tickHandler.ext = s.ext := rfl
@[simp] theorem State.tickHandler_cmd : s.tickHandler.cmd = s.cmd := rfl
@[simp] theorem State.tickHandler_res : s.tickHandler.res = s.res := rfl
@[simp] theorem State.tickHandler_busy : s.tickHandler.busy = s.busy := rfl
@[simp] theorem State.tickHandler_upc : s.tickHandler.upc = s.upc := rfl
@[simp] theorem State.tickHandler_temps : s.tickHandler.temps = s.temps := rfl
@[simp] theorem State.tickHandler_dly : s.tickHandler.dly = s.dly := rfl
@[simp] theorem State.tickHandler_mscnt : s.tickHandler.mscnt = s.mscnt := rfl
@[simp] theorem State.tickHandler_io : s.tickHandler.io = s.io := rfl
@[simp] theorem State.tickHandler_chain : s.tickHandler.chain = s.chain := rfl
@[simp] theorem State.tickHandler_tmrS : s.tickHandler.tmrS = s.tmrS := rfl
@[simp] theorem State.tickHandler_gie : s.tickHandler.gie = s.gie := rfl
@[simp] theorem State.tickHandler_se : s.tickHandler.se = s.se := rfl
@[simp] theorem State.tickHandler_sleeping : s.tickHandler.sleeping = s.sleeping := rfl
@[simp] theorem State.tickHandler_cmderr : s.tickHandler.cmderr = s.cmderr := rfl
@[simp] theorem State.tickHandler_draws : s.tickHandler.draws = s.draws := rfl
@[simp] theorem State.tickHandler_edges : s.tickHandler.edges = s.edges := rfl

/-! ### `State.wakeHandler` -/

@[simp] theorem State.wakeHandler_cfg : s.wakeHandler.cfg = s.cfg := rfl
@[simp] theorem State.wakeHandler_cmds : s.wakeHandler.cmds = s.cmds := rfl
@[simp] theorem State.wakeHandler_env : s.wakeHandler.env = s.env := rfl
@[simp] theorem State.wakeHandler_ext : s.wakeHandler.ext = s.ext := rfl
@[simp] theorem State.wakeHandler_cmd : s.wakeHandler.cmd = s.cmd := rfl
@[simp] theorem State.wakeHandler_res : s.wakeHandler.res = s.res := rfl
@[simp] theorem State.wakeHandler_busy : s.wakeHandler.busy = s.busy := rfl
@[simp] theorem State.wakeHandler_upc : s.wakeHandler.upc = s.upc := rfl
@[simp] theorem State.wakeHandler_temps : s.wakeHandler.temps = s.temps := rfl
@[simp] theorem State.wakeHandler_dly : s.wakeHandler.dly = s.dly := rfl
@[simp] theorem State.wakeHandler_mscnt : s.wakeHandler.mscnt = s.mscnt := rfl
@[simp] theorem State.wakeHandler_io : s.wakeHandler.io = s.io := rfl
@[simp] theorem State.wakeHandler_chain : s.wakeHandler.chain = s.chain := rfl
@[simp] theorem State.wakeHandler_tick : s.wakeHandler.tick = s.tick := rfl
@[simp] theorem State.wakeHandler_sec : s.wakeHandler.sec = s.sec := rfl
@[simp] theorem State.wakeHandler_tmrT : s.wakeHandler.tmrT = s.tmrT := rfl
@[simp] theorem State.wakeHandler_gie : s.wakeHandler.gie = s.gie := rfl
@[simp] theorem State.wakeHandler_se : s.wakeHandler.se = s.se := rfl
@[simp] theorem State.wakeHandler_sleeping : s.wakeHandler.sleeping = s.sleeping := rfl
@[simp] theorem State.wakeHandler_cmderr : s.wakeHandler.cmderr = s.cmderr := rfl
@[simp] theorem State.wakeHandler_draws : s.wakeHandler.draws = s.draws := rfl
@[simp] theorem State.wakeHandler_edges : s.wakeHandler.edges = s.edges := rfl

/-! ### `State.accept` -/

@[simp] theorem State.accept_cfg (w : CmdWord) : (s.accept w).cfg = s.cfg := rfl
@[simp] theorem State.accept_env (w : CmdWord) : (s.accept w).env = s.env := rfl
@[simp] theorem State.accept_ext (w : CmdWord) : (s.accept w).ext = s.ext := rfl
@[simp] theorem State.accept_res (w : CmdWord) : (s.accept w).res = s.res := rfl
@[simp] theorem State.accept_upc (w : CmdWord) : (s.accept w).upc = s.upc := rfl
@[simp] theorem State.accept_temps (w : CmdWord) : (s.accept w).temps = s.temps := rfl
@[simp] theorem State.accept_dly (w : CmdWord) : (s.accept w).dly = s.dly := rfl
@[simp] theorem State.accept_mscnt (w : CmdWord) : (s.accept w).mscnt = s.mscnt := rfl
@[simp] theorem State.accept_io (w : CmdWord) : (s.accept w).io = s.io := rfl
@[simp] theorem State.accept_chain (w : CmdWord) : (s.accept w).chain = s.chain := rfl
@[simp] theorem State.accept_tick (w : CmdWord) : (s.accept w).tick = s.tick := rfl
@[simp] theorem State.accept_sec (w : CmdWord) : (s.accept w).sec = s.sec := rfl
@[simp] theorem State.accept_tmrT (w : CmdWord) : (s.accept w).tmrT = s.tmrT := rfl
@[simp] theorem State.accept_tmrS (w : CmdWord) : (s.accept w).tmrS = s.tmrS := rfl
@[simp] theorem State.accept_gie (w : CmdWord) : (s.accept w).gie = s.gie := rfl
@[simp] theorem State.accept_se (w : CmdWord) : (s.accept w).se = s.se := rfl
@[simp] theorem State.accept_sleeping (w : CmdWord) : (s.accept w).sleeping = s.sleeping := rfl
@[simp] theorem State.accept_cmderr (w : CmdWord) : (s.accept w).cmderr = s.cmderr := rfl
@[simp] theorem State.accept_draws (w : CmdWord) : (s.accept w).draws = s.draws := rfl
@[simp] theorem State.accept_edges (w : CmdWord) : (s.accept w).edges = s.edges := rfl

/-! ### `State.offer` -/

@[simp] theorem State.offer_cfg (w : CmdWord) : (s.offer w).cfg = s.cfg := rfl
@[simp] theorem State.offer_env (w : CmdWord) : (s.offer w).env = s.env := rfl
@[simp] theorem State.offer_ext (w : CmdWord) : (s.offer w).ext = s.ext := rfl
@[simp] theorem State.offer_cmd (w : CmdWord) : (s.offer w).cmd = s.cmd := rfl
@[simp] theorem State.offer_res (w : CmdWord) : (s.offer w).res = s.res := rfl
@[simp] theorem State.offer_temps (w : CmdWord) : (s.offer w).temps = s.temps := rfl
@[simp] theorem State.offer_dly (w : CmdWord) : (s.offer w).dly = s.dly := rfl
@[simp] theorem State.offer_mscnt (w : CmdWord) : (s.offer w).mscnt = s.mscnt := rfl
@[simp] theorem State.offer_io (w : CmdWord) : (s.offer w).io = s.io := rfl
@[simp] theorem State.offer_chain (w : CmdWord) : (s.offer w).chain = s.chain := rfl
@[simp] theorem State.offer_tick (w : CmdWord) : (s.offer w).tick = s.tick := rfl
@[simp] theorem State.offer_sec (w : CmdWord) : (s.offer w).sec = s.sec := rfl
@[simp] theorem State.offer_tmrT (w : CmdWord) : (s.offer w).tmrT = s.tmrT := rfl
@[simp] theorem State.offer_tmrS (w : CmdWord) : (s.offer w).tmrS = s.tmrS := rfl
@[simp] theorem State.offer_gie (w : CmdWord) : (s.offer w).gie = s.gie := rfl
@[simp] theorem State.offer_se (w : CmdWord) : (s.offer w).se = s.se := rfl
@[simp] theorem State.offer_cmderr (w : CmdWord) : (s.offer w).cmderr = s.cmderr := rfl
@[simp] theorem State.offer_draws (w : CmdWord) : (s.offer w).draws = s.draws := rfl
@[simp] theorem State.offer_edges (w : CmdWord) : (s.offer w).edges = s.edges := rfl

/-! ### `State.leaveHandler` -/

@[simp] theorem State.leaveHandler_cfg (x : Source) : (s.leaveHandler x).cfg = s.cfg := rfl
@[simp] theorem State.leaveHandler_cmds (x : Source) : (s.leaveHandler x).cmds = s.cmds := rfl
@[simp] theorem State.leaveHandler_env (x : Source) : (s.leaveHandler x).env = s.env := rfl
@[simp] theorem State.leaveHandler_ext (x : Source) : (s.leaveHandler x).ext = s.ext := rfl
@[simp] theorem State.leaveHandler_cmd (x : Source) : (s.leaveHandler x).cmd = s.cmd := rfl
@[simp] theorem State.leaveHandler_res (x : Source) : (s.leaveHandler x).res = s.res := rfl
@[simp] theorem State.leaveHandler_busy (x : Source) : (s.leaveHandler x).busy = s.busy := rfl
@[simp] theorem State.leaveHandler_upc (x : Source) : (s.leaveHandler x).upc = s.upc := rfl
@[simp] theorem State.leaveHandler_temps (x : Source) : (s.leaveHandler x).temps = s.temps := rfl
@[simp] theorem State.leaveHandler_dly (x : Source) : (s.leaveHandler x).dly = s.dly := rfl
@[simp] theorem State.leaveHandler_mscnt (x : Source) : (s.leaveHandler x).mscnt = s.mscnt := rfl
@[simp] theorem State.leaveHandler_io (x : Source) : (s.leaveHandler x).io = s.io := rfl
@[simp] theorem State.leaveHandler_chain (x : Source) : (s.leaveHandler x).chain = s.chain := rfl
@[simp] theorem State.leaveHandler_tick (x : Source) : (s.leaveHandler x).tick = s.tick := rfl
@[simp] theorem State.leaveHandler_sec (x : Source) : (s.leaveHandler x).sec = s.sec := rfl
@[simp] theorem State.leaveHandler_tmrT (x : Source) : (s.leaveHandler x).tmrT = s.tmrT := rfl
@[simp] theorem State.leaveHandler_tmrS (x : Source) : (s.leaveHandler x).tmrS = s.tmrS := rfl
/-- The return sets `GIE` (R179). -/
@[simp] theorem State.leaveHandler_gie (x : Source) : (s.leaveHandler x).gie = true := rfl
/-- The return ends a sleep where its source wakes (R183). -/
@[simp] theorem State.leaveHandler_sleeping (x : Source) :
    (s.leaveHandler x).sleeping = (s.sleeping && !s.wakes x) := rfl
@[simp] theorem State.leaveHandler_se (x : Source) : (s.leaveHandler x).se = s.se := rfl
@[simp] theorem State.leaveHandler_cmderr (x : Source) : (s.leaveHandler x).cmderr = s.cmderr := rfl
@[simp] theorem State.leaveHandler_draws (x : Source) : (s.leaveHandler x).draws = s.draws := rfl
@[simp] theorem State.leaveHandler_edges (x : Source) : (s.leaveHandler x).edges = s.edges := rfl

/-! ### `State.setTimer` -/

@[simp] theorem State.setTimer_cfg (x : Source) (t : Timer) : (s.setTimer x t).cfg = s.cfg := by
  cases x <;> rfl
@[simp] theorem State.setTimer_cmds (x : Source) (t : Timer) : (s.setTimer x t).cmds = s.cmds := by
  cases x <;> rfl
@[simp] theorem State.setTimer_env (x : Source) (t : Timer) : (s.setTimer x t).env = s.env := by
  cases x <;> rfl
@[simp] theorem State.setTimer_ext (x : Source) (t : Timer) : (s.setTimer x t).ext = s.ext := by
  cases x <;> rfl
@[simp] theorem State.setTimer_cmd (x : Source) (t : Timer) : (s.setTimer x t).cmd = s.cmd := by
  cases x <;> rfl
@[simp] theorem State.setTimer_res (x : Source) (t : Timer) : (s.setTimer x t).res = s.res := by
  cases x <;> rfl
@[simp] theorem State.setTimer_busy (x : Source) (t : Timer) : (s.setTimer x t).busy = s.busy := by
  cases x <;> rfl
@[simp] theorem State.setTimer_upc (x : Source) (t : Timer) : (s.setTimer x t).upc = s.upc := by
  cases x <;> rfl
@[simp] theorem State.setTimer_temps (x : Source) (t : Timer) : (s.setTimer x t).temps = s.temps
    := by
  cases x <;> rfl
@[simp] theorem State.setTimer_dly (x : Source) (t : Timer) : (s.setTimer x t).dly = s.dly := by
  cases x <;> rfl
@[simp] theorem State.setTimer_mscnt (x : Source) (t : Timer) : (s.setTimer x t).mscnt = s.mscnt
    := by
  cases x <;> rfl
@[simp] theorem State.setTimer_io (x : Source) (t : Timer) : (s.setTimer x t).io = s.io := by
  cases x <;> rfl
@[simp] theorem State.setTimer_chain (x : Source) (t : Timer) : (s.setTimer x t).chain = s.chain
    := by
  cases x <;> rfl
@[simp] theorem State.setTimer_tick (x : Source) (t : Timer) : (s.setTimer x t).tick = s.tick := by
  cases x <;> rfl
@[simp] theorem State.setTimer_sec (x : Source) (t : Timer) : (s.setTimer x t).sec = s.sec := by
  cases x <;> rfl
@[simp] theorem State.setTimer_gie (x : Source) (t : Timer) : (s.setTimer x t).gie = s.gie := by
  cases x <;> rfl
@[simp] theorem State.setTimer_se (x : Source) (t : Timer) : (s.setTimer x t).se = s.se := by
  cases x <;> rfl
@[simp] theorem State.setTimer_sleeping (x : Source) (t : Timer) :
    (s.setTimer x t).sleeping = s.sleeping := by
  cases x <;> rfl
@[simp] theorem State.setTimer_cmderr (x : Source) (t : Timer) :
    (s.setTimer x t).cmderr = s.cmderr := by
  cases x <;> rfl
@[simp] theorem State.setTimer_draws (x : Source) (t : Timer) : (s.setTimer x t).draws = s.draws
    := by
  cases x <;> rfl
@[simp] theorem State.setTimer_edges (x : Source) (t : Timer) : (s.setTimer x t).edges = s.edges
    := by
  cases x <;> rfl

/-! ### `State.countPulse` -/

@[simp] theorem State.countPulse_cfg (x : Source) : (s.countPulse x).cfg = s.cfg := by
  cases x <;> rfl
@[simp] theorem State.countPulse_cmds (x : Source) : (s.countPulse x).cmds = s.cmds := by
  cases x <;> rfl
@[simp] theorem State.countPulse_env (x : Source) : (s.countPulse x).env = s.env := by
  cases x <;> rfl
@[simp] theorem State.countPulse_ext (x : Source) : (s.countPulse x).ext = s.ext := by
  cases x <;> rfl
@[simp] theorem State.countPulse_cmd (x : Source) : (s.countPulse x).cmd = s.cmd := by
  cases x <;> rfl
@[simp] theorem State.countPulse_res (x : Source) : (s.countPulse x).res = s.res := by
  cases x <;> rfl
@[simp] theorem State.countPulse_busy (x : Source) : (s.countPulse x).busy = s.busy := by
  cases x <;> rfl
@[simp] theorem State.countPulse_upc (x : Source) : (s.countPulse x).upc = s.upc := by
  cases x <;> rfl
@[simp] theorem State.countPulse_temps (x : Source) : (s.countPulse x).temps = s.temps := by
  cases x <;> rfl
@[simp] theorem State.countPulse_dly (x : Source) : (s.countPulse x).dly = s.dly := by
  cases x <;> rfl
@[simp] theorem State.countPulse_mscnt (x : Source) : (s.countPulse x).mscnt = s.mscnt := by
  cases x <;> rfl
@[simp] theorem State.countPulse_io (x : Source) : (s.countPulse x).io = s.io := by
  cases x <;> rfl
@[simp] theorem State.countPulse_chain (x : Source) : (s.countPulse x).chain = s.chain := by
  cases x <;> rfl
@[simp] theorem State.countPulse_tick (x : Source) : (s.countPulse x).tick = s.tick := by
  cases x <;> rfl
@[simp] theorem State.countPulse_sec (x : Source) : (s.countPulse x).sec = s.sec := by
  cases x <;> rfl
@[simp] theorem State.countPulse_gie (x : Source) : (s.countPulse x).gie = s.gie := by
  cases x <;> rfl
@[simp] theorem State.countPulse_se (x : Source) : (s.countPulse x).se = s.se := by
  cases x <;> rfl
@[simp] theorem State.countPulse_sleeping (x : Source) : (s.countPulse x).sleeping = s.sleeping :=
    by
  cases x <;> rfl
@[simp] theorem State.countPulse_cmderr (x : Source) : (s.countPulse x).cmderr = s.cmderr := by
  cases x <;> rfl
@[simp] theorem State.countPulse_draws (x : Source) : (s.countPulse x).draws = s.draws := by
  cases x <;> rfl
@[simp] theorem State.countPulse_edges (x : Source) : (s.countPulse x).edges = s.edges := by
  cases x <;> rfl

/-! ### `State.enterHandler` -/

@[simp] theorem State.enterHandler_cfg (x : Source) : (s.enterHandler x).cfg = s.cfg := by
  cases x <;> rfl
@[simp] theorem State.enterHandler_cmds (x : Source) : (s.enterHandler x).cmds = s.cmds := by
  cases x <;> rfl
@[simp] theorem State.enterHandler_env (x : Source) : (s.enterHandler x).env = s.env := by
  cases x <;> rfl
@[simp] theorem State.enterHandler_ext (x : Source) : (s.enterHandler x).ext = s.ext := by
  cases x <;> rfl
@[simp] theorem State.enterHandler_cmd (x : Source) : (s.enterHandler x).cmd = s.cmd := by
  cases x <;> rfl
@[simp] theorem State.enterHandler_res (x : Source) : (s.enterHandler x).res = s.res := by
  cases x <;> rfl
@[simp] theorem State.enterHandler_busy (x : Source) : (s.enterHandler x).busy = s.busy := by
  cases x <;> rfl
@[simp] theorem State.enterHandler_upc (x : Source) : (s.enterHandler x).upc = s.upc := by
  cases x <;> rfl
@[simp] theorem State.enterHandler_temps (x : Source) : (s.enterHandler x).temps = s.temps := by
  cases x <;> rfl
@[simp] theorem State.enterHandler_dly (x : Source) : (s.enterHandler x).dly = s.dly := by
  cases x <;> rfl
@[simp] theorem State.enterHandler_mscnt (x : Source) : (s.enterHandler x).mscnt = s.mscnt := by
  cases x <;> rfl
@[simp] theorem State.enterHandler_io (x : Source) : (s.enterHandler x).io = s.io := by
  cases x <;> rfl
@[simp] theorem State.enterHandler_chain (x : Source) : (s.enterHandler x).chain = s.chain := by
  cases x <;> rfl
@[simp] theorem State.enterHandler_tick (x : Source) : (s.enterHandler x).tick = s.tick := by
  cases x <;> rfl
@[simp] theorem State.enterHandler_sec (x : Source) : (s.enterHandler x).sec = s.sec := by
  cases x <;> rfl
/-- The entry clears `GIE` (R178). -/
@[simp] theorem State.enterHandler_gie (x : Source) : (s.enterHandler x).gie = false := rfl
@[simp] theorem State.enterHandler_se (x : Source) : (s.enterHandler x).se = s.se := by
  cases x <;> rfl
@[simp] theorem State.enterHandler_sleeping (x : Source) :
    (s.enterHandler x).sleeping = s.sleeping := by
  cases x <;> rfl
@[simp] theorem State.enterHandler_cmderr (x : Source) : (s.enterHandler x).cmderr = s.cmderr := by
  cases x <;> rfl
@[simp] theorem State.enterHandler_draws (x : Source) : (s.enterHandler x).draws = s.draws := by
  cases x <;> rfl
@[simp] theorem State.enterHandler_edges (x : Source) : (s.enterHandler x).edges = s.edges := by
  cases x <;> rfl

/-! ### `State.finish` -/

@[simp] theorem State.finish_cfg (op : Instr) : (s.finish op).cfg = s.cfg := by
  unfold State.finish; split <;> rfl
@[simp] theorem State.finish_cmds (op : Instr) : (s.finish op).cmds = s.cmds := by
  unfold State.finish; split <;> rfl
@[simp] theorem State.finish_env (op : Instr) : (s.finish op).env = s.env := by
  unfold State.finish; split <;> rfl
@[simp] theorem State.finish_ext (op : Instr) : (s.finish op).ext = s.ext := by
  unfold State.finish; split <;> rfl
@[simp] theorem State.finish_cmd (op : Instr) : (s.finish op).cmd = s.cmd := by
  unfold State.finish; split <;> rfl
@[simp] theorem State.finish_res (op : Instr) : (s.finish op).res = s.res := by
  unfold State.finish; split <;> rfl
@[simp] theorem State.finish_dly (op : Instr) : (s.finish op).dly = s.dly := by
  unfold State.finish; split <;> rfl
@[simp] theorem State.finish_mscnt (op : Instr) : (s.finish op).mscnt = s.mscnt := by
  unfold State.finish; split <;> rfl
@[simp] theorem State.finish_io (op : Instr) : (s.finish op).io = s.io := by
  unfold State.finish; split <;> rfl
@[simp] theorem State.finish_chain (op : Instr) : (s.finish op).chain = s.chain := by
  unfold State.finish; split <;> rfl
@[simp] theorem State.finish_tick (op : Instr) : (s.finish op).tick = s.tick := by
  unfold State.finish; split <;> rfl
@[simp] theorem State.finish_sec (op : Instr) : (s.finish op).sec = s.sec := by
  unfold State.finish; split <;> rfl
@[simp] theorem State.finish_tmrT (op : Instr) : (s.finish op).tmrT = s.tmrT := by
  unfold State.finish; split <;> rfl
@[simp] theorem State.finish_tmrS (op : Instr) : (s.finish op).tmrS = s.tmrS := by
  unfold State.finish; split <;> rfl
@[simp] theorem State.finish_gie (op : Instr) : (s.finish op).gie = s.gie := by
  unfold State.finish; split <;> rfl
@[simp] theorem State.finish_se (op : Instr) : (s.finish op).se = s.se := by
  unfold State.finish; split <;> rfl
@[simp] theorem State.finish_sleeping (op : Instr) : (s.finish op).sleeping = s.sleeping := by
  unfold State.finish; split <;> rfl
@[simp] theorem State.finish_cmderr (op : Instr) : (s.finish op).cmderr = s.cmderr := by
  unfold State.finish; split <;> rfl
@[simp] theorem State.finish_edges (op : Instr) : (s.finish op).edges = s.edges := by
  unfold State.finish; split <;> rfl

@[simp] theorem State.finish_busy (op : Instr) : (s.finish op).busy = false := by
  unfold State.finish; split <;> rfl
@[simp] theorem State.finish_upc (op : Instr) : (s.finish op).upc = none := by
  unfold State.finish; split <;> rfl
/-- An operation without temporaries ends with nothing drawn (R23). -/
theorem State.finish_plain (op : Instr) (h : usesTemps op = false) :
    s.finish op = { s with busy := false, upc := none } := by
  unfold State.finish; rw [if_neg (by simp [h])]

/-! ### What the short updates write -/

@[simp] theorem State.setTmp_tmp (v : Byte) : (s.setTmp v).temps.tmp = v := rfl
@[simp] theorem State.setTmp_shreg (v : Byte) : (s.setTmp v).temps.shreg = s.temps.shreg := rfl
@[simp] theorem State.setTmp_bitIdx (v : Byte) : (s.setTmp v).temps.bitIdx = s.temps.bitIdx := rfl
@[simp] theorem State.setTmp_digIdx (v : Byte) : (s.setTmp v).temps.digIdx = s.temps.digIdx := rfl
@[simp] theorem State.setTmp_mask (v : Byte) : (s.setTmp v).temps.mask = s.temps.mask := rfl
@[simp] theorem State.setTmp_symbuf (v : Byte) : (s.setTmp v).temps.symbuf = s.temps.symbuf := rfl
@[simp] theorem State.refuseCommand_cmderr : s.refuseCommand.cmderr = true := rfl
@[simp] theorem State.refuseCommand_busy : s.refuseCommand.busy = false := rfl
@[simp] theorem State.refuseCommand_upc : s.refuseCommand.upc = none := rfl
@[simp] theorem State.accept_cmd (w : CmdWord) : (s.accept w).cmd = w := rfl
@[simp] theorem State.accept_busy (w : CmdWord) : (s.accept w).busy = true := rfl
@[simp] theorem State.accept_cmds (w : CmdWord) : (s.accept w).cmds = s.cmds.tail := rfl
@[simp] theorem State.armTimer_tmrS : s.armTimer.tmrS = Timer.arm s.cfg.reloadS := rfl
@[simp] theorem State.startTick_tmrT : s.startTick.tmrT = Timer.arm Config.reloadT := rfl
@[simp] theorem State.enterSleep_gie : s.enterSleep.gie = true := rfl
@[simp] theorem State.enterSleep_sleeping : s.enterSleep.sleeping = s.se := rfl
@[simp] theorem State.timer_tickOvf : s.timer .tickOvf = s.tmrT := rfl
@[simp] theorem State.timer_wakeOvf : s.timer .wakeOvf = s.tmrS := rfl

end Sys2Proof.Machine
end

