-- ==== Sys2Proof/Laws/Lines.lean ====
section
/-! SUPPORT. The laws of pins, lines and the I/O register space: a single-bit write, what the two
registers of a port and the levels are after a `MemWrite`, and the chain's edge rule. -/

namespace Sys2Proof.Machine

/-! ### Bits -/

/-- A single-bit write writes its bit and leaves the other seven (R100, R104). -/
theorem getBit_putBit (v : Byte) (k j : BitVec 3) (b : Bool) :
    getBit (putBit v k b) j = if j = k then b else getBit v j := by
  have hj := j.isLt
  have hkj : j = k ↔ j.toNat = k.toNat := BitVec.toNat_inj.symm
  have hbit : (1#8 <<< k.toNat).getLsbD j.toNat = decide (j.toNat = k.toNat) := by
    rw [BitVec.getLsbD_shiftLeft, BitVec.getLsbD_one, decide_eq_true (show j.toNat < 8 by omega)]
    by_cases h : j.toNat = k.toNat
    · simp [h]
    · by_cases hlt : j.toNat < k.toNat
      · simp [hlt, h]
      · simp [h]; omega
  unfold getBit putBit
  by_cases h : j.toNat = k.toNat
  · rw [h] at hbit
    cases b <;> simp [hkj, h, hbit, BitVec.getLsbD_or, BitVec.getLsbD_and]
  · cases b <;> simp [hkj, h, hbit, BitVec.getLsbD_or, BitVec.getLsbD_and]
    exact fun _ => hj

/-! ### Register addresses -/

variable {c : Config} {pin : Pin}

theorem Config.hasPin_lt (h : c.hasPin pin = true) : pin.port.toNat < c.nports := by
  simpa [Config.hasPin] using h

theorem dirAddr_lt (h : c.hasPin pin = true) : dirAddr pin < 3 * c.nports := by
  have := Config.hasPin_lt h; unfold dirAddr; omega
theorem inAddr_lt (h : c.hasPin pin = true) : inAddr pin < 3 * c.nports := by
  have := Config.hasPin_lt h; unfold inAddr; omega
theorem outAddr_lt (h : c.hasPin pin = true) : outAddr pin < 3 * c.nports := by
  have := Config.hasPin_lt h; unfold outAddr; omega
theorem dirAddr_mod (pin : Pin) : dirAddr pin % 3 ≠ 1 := by unfold dirAddr; omega
theorem outAddr_mod (pin : Pin) : outAddr pin % 3 ≠ 1 := by unfold outAddr; omega
theorem inAddr_mod (pin : Pin) : inAddr pin % 3 = 1 := by unfold inAddr; omega
theorem inAddr_div (pin : Pin) : inAddr pin / 3 = pin.port.toNat := by unfold inAddr; omega

/-! ### Reads and writes of a port that exists -/

variable (s : State)

theorem State.readToTmp_dir (h : s.cfg.hasPin pin = true) :
    s.readToTmp (dirAddr pin) = .next (s.setTmp (s.dir pin.port.toNat)) := by
  unfold State.readToTmp State.memRead
  rw [if_pos (dirAddr_lt h), if_neg (dirAddr_mod pin)]; rfl

theorem State.readToTmp_out (h : s.cfg.hasPin pin = true) :
    s.readToTmp (outAddr pin) = .next (s.setTmp (s.out pin.port.toNat)) := by
  unfold State.readToTmp State.memRead
  rw [if_pos (outAddr_lt h), if_neg (outAddr_mod pin)]; rfl

theorem State.memWrite_dir (v : Byte) (h : s.cfg.hasPin pin = true) :
    s.memWrite (dirAddr pin) v =
      .next { s with io := Memory.put s.io (dirAddr pin) v }.chainStep := by
  unfold State.memWrite; rw [if_pos (dirAddr_lt h), if_neg (dirAddr_mod pin)]

theorem State.memWrite_out (v : Byte) (h : s.cfg.hasPin pin = true) :
    s.memWrite (outAddr pin) v =
      .next { s with io := Memory.put s.io (outAddr pin) v }.chainStep := by
  unfold State.memWrite; rw [if_pos (outAddr_lt h), if_neg (outAddr_mod pin)]

/-- `DIR[q]` after a write of `DIR[p]`. -/
theorem State.dir_put_dir (v : Byte) (q : Nat) (h : Memory.wf s.io = true) :
    State.dir { s with io := Memory.put s.io (dirAddr pin) v } q =
      if q = pin.port.toNat then v else s.dir q := by
  unfold State.dir dirAddr
  split
  · next hq => rw [hq]; exact Memory.get_put_same _ _ h
  · next hq => exact Memory.get_put_other _ _ (by omega)

/-- `OUT[q]` after a write of `OUT[p]`. -/
theorem State.out_put_out (v : Byte) (q : Nat) (h : Memory.wf s.io = true) :
    State.out { s with io := Memory.put s.io (outAddr pin) v } q =
      if q = pin.port.toNat then v else s.out q := by
  unfold State.out outAddr
  split
  · next hq => rw [hq]; exact Memory.get_put_same _ _ h
  · next hq => exact Memory.get_put_other _ _ (by omega)

theorem State.out_put_dir (v : Byte) (q : Nat) :
    State.out { s with io := Memory.put s.io (dirAddr pin) v } q = s.out q :=
  Memory.get_put_other _ _ (by unfold dirAddr; omega)

theorem State.dir_put_out (v : Byte) (q : Nat) :
    State.dir { s with io := Memory.put s.io (outAddr pin) v } q = s.dir q :=
  Memory.get_put_other _ _ (by unfold outAddr; omega)

/-! ### Levels -/

/-- The level of an output pin is its `OUT` bit (R27). -/
theorem State.level_output (h : s.isOutput pin = true) :
    s.level pin = getBit (s.out pin.port.toNat) pin.bit := by
  exact if_pos h

/-- The levels rest on the stored registers and the environment's levels alone. -/
theorem State.level_congr {s t : State} (hio : t.io = s.io) (hext : t.ext = s.ext) (pin : Pin) :
    t.level pin = s.level pin := by
  unfold State.level State.dir State.out State.extLevels; rw [hio, hext]

/-- Where every pin that matters is an output, the environment's levels do not matter. -/
theorem State.level_congr_output {s t : State} (hio : t.io = s.io) (h : s.isOutput pin = true) :
    t.level pin = s.level pin := by
  have ht : t.isOutput pin = true := by
    unfold State.isOutput State.dir at *; rw [hio]; exact h
  rw [t.level_output ht, s.level_output h]; unfold State.out; rw [hio]

theorem State.isOutput_congr {s t : State} (hio : t.io = s.io) (pin : Pin) :
    t.isOutput pin = s.isOutput pin := by
  unfold State.isOutput State.dir; rw [hio]

theorem State.driven_congr {s t : State} (hcfg : t.cfg = s.cfg) (hio : t.io = s.io) :
    t.driven = s.driven := by
  unfold State.driven; rw [hcfg]; simp only [State.isOutput_congr hio]

theorem State.driven_iff :
    s.driven = true ↔ s.isOutput s.cfg.clkPin = true ∧ s.isOutput s.cfg.latPin = true ∧
      s.isOutput s.cfg.datPin = true := by
  unfold State.driven; simp [and_assoc]

/-- Whether a pin is an output after a single-bit write of a direction register. -/
theorem State.isOutput_put_dir (b : Bool) (q : Pin) (h : Memory.wf s.io = true) :
    State.isOutput
      { s with io := Memory.put s.io (dirAddr pin) (putBit (s.dir pin.port.toNat) pin.bit b) } q =
      if q = pin then b else s.isOutput q := by
  obtain ⟨p, k⟩ := pin
  obtain ⟨p', k'⟩ := q
  unfold State.isOutput
  rw [s.dir_put_dir _ _ h]
  by_cases hp : p' = p
  · subst hp
    simp [getBit_putBit]
  · have : p'.toNat ≠ p.toNat := fun e => hp (BitVec.eq_of_toNat_eq e)
    simp [hp, this]

/-- The `OUT` bit of a pin after a single-bit write of an output register. -/
theorem State.outBit_put_out (b : Bool) (q : Pin) (h : Memory.wf s.io = true) :
    getBit (State.out
      { s with io := Memory.put s.io (outAddr pin) (putBit (s.out pin.port.toNat) pin.bit b) }
        q.port.toNat) q.bit =
      if q = pin then b else getBit (s.out q.port.toNat) q.bit := by
  obtain ⟨p, k⟩ := pin
  obtain ⟨p', k'⟩ := q
  rw [s.out_put_out _ _ h]
  by_cases hp : p' = p
  · subst hp
    simp [getBit_putBit]
  · have : p'.toNat ≠ p.toNat := fun e => hp (BitVec.eq_of_toNat_eq e)
    simp [hp, this]

/-! ### The chain's edge rule: what it leaves -/

@[simp] theorem State.chainStep_cfg : s.chainStep.cfg = s.cfg := by
  unfold State.chainStep; split <;> rfl
@[simp] theorem State.chainStep_cmds : s.chainStep.cmds = s.cmds := by
  unfold State.chainStep; split <;> rfl
@[simp] theorem State.chainStep_env : s.chainStep.env = s.env := by
  unfold State.chainStep; split <;> rfl
@[simp] theorem State.chainStep_ext : s.chainStep.ext = s.ext := by
  unfold State.chainStep; split <;> rfl
@[simp] theorem State.chainStep_cmd : s.chainStep.cmd = s.cmd := by
  unfold State.chainStep; split <;> rfl
@[simp] theorem State.chainStep_res : s.chainStep.res = s.res := by
  unfold State.chainStep; split <;> rfl
@[simp] theorem State.chainStep_busy : s.chainStep.busy = s.busy := by
  unfold State.chainStep; split <;> rfl
@[simp] theorem State.chainStep_upc : s.chainStep.upc = s.upc := by
  unfold State.chainStep; split <;> rfl
@[simp] theorem State.chainStep_temps : s.chainStep.temps = s.temps := by
  unfold State.chainStep; split <;> rfl
@[simp] theorem State.chainStep_dly : s.chainStep.dly = s.dly := by
  unfold State.chainStep; split <;> rfl
@[simp] theorem State.chainStep_mscnt : s.chainStep.mscnt = s.mscnt := by
  unfold State.chainStep; split <;> rfl
@[simp] theorem State.chainStep_io : s.chainStep.io = s.io := by
  unfold State.chainStep; split <;> rfl
@[simp] theorem State.chainStep_tick : s.chainStep.tick = s.tick := by
  unfold State.chainStep; split <;> rfl
@[simp] theorem State.chainStep_sec : s.chainStep.sec = s.sec := by
  unfold State.chainStep; split <;> rfl
@[simp] theorem State.chainStep_tmrT : s.chainStep.tmrT = s.tmrT := by
  unfold State.chainStep; split <;> rfl
@[simp] theorem State.chainStep_tmrS : s.chainStep.tmrS = s.tmrS := by
  unfold State.chainStep; split <;> rfl
@[simp] theorem State.chainStep_gie : s.chainStep.gie = s.gie := by
  unfold State.chainStep; split <;> rfl
@[simp] theorem State.chainStep_se : s.chainStep.se = s.se := by
  unfold State.chainStep; split <;> rfl
@[simp] theorem State.chainStep_sleeping : s.chainStep.sleeping = s.sleeping := by
  unfold State.chainStep; split <;> rfl
@[simp] theorem State.chainStep_cmderr : s.chainStep.cmderr = s.cmderr := by
  unfold State.chainStep; split <;> rfl

/-- Driven lines: the edge rule of R112 on their levels. -/
theorem State.chainStep_driven (h : s.driven = true) :
    s.chainStep =
      { s with
        chain := s.chain.sense (s.level s.cfg.clkPin) (s.level s.cfg.latPin) (s.level s.cfg.datPin)
        edges := s.chain.seen (s.level s.cfg.clkPin) (s.level s.cfg.latPin) (s.level s.cfg.datPin)
          ++ s.edges } := by
  unfold State.chainStep; rw [if_pos h]

/-- An undriven line: free values (R113). -/
theorem State.chainStep_undriven (h : s.driven = false) : s.chainStep = s.floatChain := by
  unfold State.chainStep; rw [if_neg (by simp [h])]

theorem State.chainStep_chain (h : s.driven = true) :
    s.chainStep.chain =
      s.chain.sense (s.level s.cfg.clkPin) (s.level s.cfg.latPin) (s.level s.cfg.datPin) := by
  rw [s.chainStep_driven h]

theorem State.chainStep_edges (h : s.driven = true) :
    s.chainStep.edges =
      s.chain.seen (s.level s.cfg.clkPin) (s.level s.cfg.latPin) (s.level s.cfg.datPin)
        ++ s.edges := by
  rw [s.chainStep_driven h]

@[simp] theorem State.chainStep_level (pin : Pin) : s.chainStep.level pin = s.level pin :=
  State.level_congr s.chainStep_io s.chainStep_ext pin

/-- The edge rule leaves the edge detectors in step with the lines (R112). -/
theorem State.synced_chainStep : s.chainStep.synced = true := by
  unfold State.synced
  rw [State.driven_congr (t := s.chainStep) s.chainStep_cfg s.chainStep_io]
  cases h : s.driven with
  | false => rfl
  | true => simp [s.chainStep_chain h, Chain.sense]

/-- With the detectors in step and no line moved, the edge rule does nothing. -/
theorem Chain.sense_steady (ch : Chain) (d : Bool) : ch.sense ch.clkPrev ch.latPrev d = ch := by
  obtain ⟨sr, q, c, l⟩ := ch
  cases c <;> cases l <;> rfl

theorem Chain.seen_steady (ch : Chain) (d : Bool) : ch.seen ch.clkPrev ch.latPrev d = [] := by
  obtain ⟨sr, q, c, l⟩ := ch
  cases c <;> cases l <;> rfl

end Sys2Proof.Machine
end

