-- ==== Sys2Proof/Laws/Gaps.lean ====
section
/-! SUPPORT. What can happen between two micro-steps: counting, the taking of an interrupt, the
events of a gap, and the gap as a whole. `GapFrame` says once what none of them touches (R119,
R182). -/

namespace Sys2Proof.Machine

/-- What a gap leaves as it was: the registers of the main context, the ports and, while the lines
are driven, the chain (R64, R119, R182). -/
structure GapFrame (s t : State) : Prop where
  cfg    : t.cfg = s.cfg
  cmds   : t.cmds = s.cmds
  cmd    : t.cmd = s.cmd
  res    : t.res = s.res
  busy   : t.busy = s.busy
  upc    : t.upc = s.upc
  temps  : t.temps = s.temps
  dly    : t.dly = s.dly
  mscnt  : t.mscnt = s.mscnt
  io     : t.io = s.io
  se     : t.se = s.se
  cmderr : t.cmderr = s.cmderr
  chain  : s.driven = true → t.chain = s.chain
  edges  : t.edges = s.edges

theorem GapFrame.refl (s : State) : GapFrame s s := by constructor <;> simp

theorem GapFrame.driven {s t : State} (h : GapFrame s t) : t.driven = s.driven :=
  State.driven_congr h.cfg h.io

theorem GapFrame.trans {s t u : State} (h : GapFrame s t) (k : GapFrame t u) : GapFrame s u where
  cfg := k.cfg.trans h.cfg
  cmds := k.cmds.trans h.cmds
  cmd := k.cmd.trans h.cmd
  res := k.res.trans h.res
  busy := k.busy.trans h.busy
  upc := k.upc.trans h.upc
  temps := k.temps.trans h.temps
  dly := k.dly.trans h.dly
  mscnt := k.mscnt.trans h.mscnt
  io := k.io.trans h.io
  se := k.se.trans h.se
  cmderr := k.cmderr.trans h.cmderr
  chain := fun d => (k.chain (by rw [h.driven]; exact d)).trans (h.chain d)
  edges := k.edges.trans h.edges

variable (s : State)

/-! ### Counting and interrupts -/

theorem State.countPulse_frame (x : Source) : GapFrame s (s.countPulse x) := by
  constructor <;> simp

theorem State.takeInterrupt_eq_of_takeable {x : Source} (h : s.takeable x = true) :
    s.takeInterrupt x = ((s.enterHandler x).handlerBody x).leaveHandler x := by
  unfold State.takeInterrupt; rw [if_pos h]

/-- A source that is not takeable is not taken (R176). -/
theorem State.takeInterrupt_eq_self {x : Source} (h : s.takeable x = false) :
    s.takeInterrupt x = s := by
  unfold State.takeInterrupt; rw [if_neg (by simp [h])]

theorem State.takeInterrupt_frame (x : Source) : GapFrame s (s.takeInterrupt x) := by
  unfold State.takeInterrupt
  split
  · cases x <;> constructor <;> simp [State.handlerBody]
  · exact GapFrame.refl s

@[simp] theorem State.takeInterrupt_env (x : Source) : (s.takeInterrupt x).env = s.env := by
  unfold State.takeInterrupt; split
  · cases x <;> simp [State.handlerBody]
  · rfl

@[simp] theorem State.takeInterrupt_ext (x : Source) : (s.takeInterrupt x).ext = s.ext := by
  unfold State.takeInterrupt; split
  · cases x <;> simp [State.handlerBody]
  · rfl

@[simp] theorem State.takeInterrupt_draws (x : Source) : (s.takeInterrupt x).draws = s.draws := by
  unfold State.takeInterrupt; split
  · cases x <;> simp [State.handlerBody]
  · rfl

/-- Taking an interrupt leaves `GIE` as it was: 1 (R179). -/
@[simp] theorem State.takeInterrupt_gie (x : Source) : (s.takeInterrupt x).gie = s.gie := by
  unfold State.takeInterrupt; split
  · next h =>
    simp only [State.takeable, Bool.and_eq_true] at h
    exact h.1.1.symm
  · rfl

/-- Nothing but the return from an interrupt changes `SLEEPING`, and only to 0 (R183). -/
theorem State.takeInterrupt_sleeping_le (x : Source) (h : s.sleeping = false) :
    (s.takeInterrupt x).sleeping = false := by
  unfold State.takeInterrupt; split
  · cases x <;> simp [State.leaveHandler, State.handlerBody, h]
  · exact h

theorem State.takeable_gie {x : Source} (h : s.gie = false) : s.takeable x = false := by
  unfold State.takeable; simp [h]

theorem State.countPulses_frame (x : Source) (n : Nat) : GapFrame s (s.countPulses x n) := by
  induction n generalizing s with
  | zero => exact GapFrame.refl s
  | succ n ih => exact (s.countPulse_frame x).trans (ih _)

theorem State.countPulses_eq {α : Type} (f : State → α) (x : Source)
    (hf : ∀ u : State, f (u.countPulse x) = f u) (n : Nat) : f (s.countPulses x n) = f s := by
  induction n generalizing s with
  | zero => rfl
  | succ n ih => exact (ih _).trans (hf s)

@[simp] theorem State.countPulses_sleeping (x : Source) (n : Nat) :
    (s.countPulses x n).sleeping = s.sleeping :=
  s.countPulses_eq (·.sleeping) x (fun u => u.countPulse_sleeping x) n
@[simp] theorem State.countPulses_gie (x : Source) (n : Nat) :
    (s.countPulses x n).gie = s.gie :=
  s.countPulses_eq (·.gie) x (fun u => u.countPulse_gie x) n
@[simp] theorem State.countPulses_env (x : Source) (n : Nat) :
    (s.countPulses x n).env = s.env :=
  s.countPulses_eq (·.env) x (fun u => u.countPulse_env x) n
@[simp] theorem State.countPulses_ext (x : Source) (n : Nat) :
    (s.countPulses x n).ext = s.ext :=
  s.countPulses_eq (·.ext) x (fun u => u.countPulse_ext x) n
@[simp] theorem State.countPulses_draws (x : Source) (n : Nat) :
    (s.countPulses x n).draws = s.draws :=
  s.countPulses_eq (·.draws) x (fun u => u.countPulse_draws x) n
@[simp] theorem State.countPulses_tick (x : Source) (n : Nat) :
    (s.countPulses x n).tick = s.tick :=
  s.countPulses_eq (·.tick) x (fun u => u.countPulse_tick x) n
@[simp] theorem State.countPulses_sec (x : Source) (n : Nat) :
    (s.countPulses x n).sec = s.sec :=
  s.countPulses_eq (·.sec) x (fun u => u.countPulse_sec x) n
@[simp] theorem State.countPulses_wake_tmrT (n : Nat) :
    (s.countPulses .wakeOvf n).tmrT = s.tmrT :=
  s.countPulses_eq (·.tmrT) .wakeOvf (fun _ => rfl) n
@[simp] theorem State.countPulses_tick_tmrS (n : Nat) :
    (s.countPulses .tickOvf n).tmrS = s.tmrS :=
  s.countPulses_eq (·.tmrS) .tickOvf (fun _ => rfl) n

theorem State.runOut_frame (x : Source) : GapFrame s (s.runOut x) :=
  (s.countPulses_frame x _).trans (State.takeInterrupt_frame _ x)

@[simp] theorem State.runOut_env (x : Source) : (s.runOut x).env = s.env := by
  simp [State.runOut]
@[simp] theorem State.runOut_gie (x : Source) : (s.runOut x).gie = s.gie := by
  simp [State.runOut]
theorem State.runOut_sleeping_le (x : Source) (h : s.sleeping = false) :
    (s.runOut x).sleeping = false :=
  State.takeInterrupt_sleeping_le _ x (by simpa using h)

/-! ### Events and gaps -/

theorem State.occur_frame (e : Event) : GapFrame s (s.occur e) := by
  cases e with
  | pulseT => exact s.countPulse_frame _
  | pulseS => exact s.countPulse_frame _
  | take x => exact s.takeInterrupt_frame x
  | ext p v => constructor <;> simp [State.occur]

@[simp] theorem State.occur_gie (e : Event) : (s.occur e).gie = s.gie := by
  cases e <;> simp [State.occur]
@[simp] theorem State.occur_env (e : Event) : (s.occur e).env = s.env := by
  cases e <;> simp [State.occur]
@[simp] theorem State.occur_draws (e : Event) : (s.occur e).draws = s.draws := by
  cases e <;> simp [State.occur]
theorem State.occur_sleeping_le (e : Event) (h : s.sleeping = false) :
    (s.occur e).sleeping = false := by
  cases e with
  | pulseT => simpa [State.occur] using h
  | pulseS => simpa [State.occur] using h
  | take x => exact s.takeInterrupt_sleeping_le x h
  | ext p v => exact h

@[simp] theorem State.play_nil : s.play [] = s := rfl
theorem State.play_cons (e : Event) (g : Gap) : s.play (e :: g) = (s.occur e).play g := rfl

/-- What every event keeps, a gap keeps. -/
theorem State.play_induct {P : State → State → Prop} (refl : ∀ u, P u u)
    (trans : ∀ {u v w}, P u v → P v w → P u w) (one : ∀ u e, P u (State.occur u e)) (g : Gap) :
    P s (s.play g) := by
  induction g generalizing s with
  | nil => exact refl s
  | cons e g ih => exact trans (one s e) (ih _)

theorem State.play_frame (g : Gap) : GapFrame s (s.play g) :=
  s.play_induct GapFrame.refl GapFrame.trans State.occur_frame g

@[simp] theorem State.play_gie (g : Gap) : (s.play g).gie = s.gie := by
  induction g generalizing s with
  | nil => rfl
  | cons e g ih => rw [s.play_cons, ih, s.occur_gie]
@[simp] theorem State.play_env (g : Gap) : (s.play g).env = s.env := by
  induction g generalizing s with
  | nil => rfl
  | cons e g ih => rw [s.play_cons, ih, s.occur_env]
theorem State.play_sleeping_le (g : Gap) (h : s.sleeping = false) :
    (s.play g).sleeping = false := by
  induction g generalizing s with
  | nil => exact h
  | cons e g ih => exact ih _ (s.occur_sleeping_le e h)

theorem State.setEnv_frame (e : List Gap) : GapFrame s { s with env := e } := by
  constructor <;> simp

theorem State.drift_frame : GapFrame s s.drift := by
  unfold State.drift
  split
  · exact GapFrame.refl s
  · next h => constructor <;> simp [h]

@[simp] theorem State.drift_sleeping : s.drift.sleeping = s.sleeping := by
  unfold State.drift; split <;> rfl
@[simp] theorem State.drift_gie : s.drift.gie = s.gie := by unfold State.drift; split <;> rfl
@[simp] theorem State.drift_env : s.drift.env = s.env := by unfold State.drift; split <;> rfl
@[simp] theorem State.drift_ext : s.drift.ext = s.ext := by unfold State.drift; split <;> rfl
@[simp] theorem State.drift_tick : s.drift.tick = s.tick := by unfold State.drift; split <;> rfl
@[simp] theorem State.drift_sec : s.drift.sec = s.sec := by unfold State.drift; split <;> rfl
@[simp] theorem State.drift_tmrT : s.drift.tmrT = s.tmrT := by unfold State.drift; split <;> rfl
@[simp] theorem State.drift_tmrS : s.drift.tmrS = s.tmrS := by unfold State.drift; split <;> rfl
theorem State.drift_driven (h : s.driven = true) : s.drift = s := by
  unfold State.drift; rw [if_pos h]

theorem State.fairRest_frame : GapFrame s s.fairRest := by
  have h := (s.takeInterrupt_frame .tickOvf).trans (State.takeInterrupt_frame _ .wakeOvf)
  simp only [State.fairRest]
  split
  · have h2 := h.trans (State.runOut_frame _ .wakeOvf)
    split
    · exact h2.trans (State.runOut_frame _ .tickOvf)
    · exact h2
  · exact h

theorem State.fairIdle_frame : GapFrame s s.fairIdle :=
  (((s.takeInterrupt_frame .tickOvf).trans (State.takeInterrupt_frame _ .wakeOvf)).trans
    (State.runOut_frame _ .wakeOvf)).trans (State.runOut_frame _ .tickOvf)

@[simp] theorem State.fairRest_gie : s.fairRest.gie = s.gie := by
  simp only [State.fairRest]; split
  · split <;> simp
  · simp
@[simp] theorem State.fairRest_env : s.fairRest.env = s.env := by
  simp only [State.fairRest]; split
  · split <;> simp
  · simp

theorem State.doze_frame (gs : List Gap) : GapFrame s (s.doze gs) := by
  induction gs generalizing s with
  | nil => exact (s.setEnv_frame []).trans (State.fairRest_frame _)
  | cons g gs ih =>
    have h := (s.setEnv_frame gs).trans (State.play_frame _ g)
    simp only [State.doze]
    split
    · exact h.trans (ih _)
    · exact h

@[simp] theorem State.doze_gie (gs : List Gap) : (s.doze gs).gie = s.gie := by
  induction gs generalizing s with
  | nil => simp [State.doze]
  | cons g gs ih => simp only [State.doze]; split <;> simp [ih]

theorem State.nextGap_frame : GapFrame s s.nextGap := by
  unfold State.nextGap
  split
  · exact GapFrame.refl s
  · exact (s.setEnv_frame _).trans (State.play_frame _ _)

/-- A gap touches no register of the main context, no port and, on driven lines, not the chain
(R119, R182). -/
theorem State.between_frame : GapFrame s s.between := by
  simp only [State.between]
  split
  · exact s.drift_frame.trans (State.doze_frame _ _)
  · exact s.drift_frame.trans (State.nextGap_frame _)

/-- A gap never changes `GIE` (R179). -/
@[simp] theorem State.between_gie : s.between.gie = s.gie := by
  simp only [State.between]
  split
  · simp
  · unfold State.nextGap; split <;> simp

/-- A gap puts no one to sleep (R183). -/
theorem State.between_awake (h : s.sleeping = false) : s.between.sleeping = false := by
  simp only [State.between]
  rw [if_neg (by simp [h])]
  unfold State.nextGap
  split
  · simpa using h
  · exact State.play_sleeping_le _ _ (by simpa using h)

/-- Awake, a gap is the next one in store. -/
theorem State.between_eq_nextGap (h : s.sleeping = false) : s.between = s.drift.nextGap := by
  simp only [State.between]; rw [if_neg (by simp [h])]

/-- With nothing in store and driven lines, a gap of an awake main context does nothing. -/
theorem State.between_quiet (h : s.sleeping = false) (he : s.env = []) (hd : s.driven = true) :
    s.between = s := by
  rw [s.between_eq_nextGap h, s.drift_driven hd]
  unfold State.nextGap; rw [he]

/-- With nothing in store a gap of an awake main context only lets undriven lines drift. -/
theorem State.between_empty (h : s.sleeping = false) (he : s.env = []) :
    s.between = s.drift := by
  rw [s.between_eq_nextGap h]
  unfold State.nextGap; rw [s.drift_env, he]

/-- Events that a cleared `GIE` leaves harmless change neither counter of the tick service (R77). -/
theorem State.play_masked (g : Gap) (h : s.gie = false) :
    (s.play g).tick = s.tick ∧ (s.play g).sec = s.sec := by
  induction g generalizing s with
  | nil => exact ⟨rfl, rfl⟩
  | cons e g ih =>
    have hg : (s.occur e).gie = false := by simp [h]
    rw [s.play_cons]
    refine ⟨(ih _ hg).1.trans ?_, (ih _ hg).2.trans ?_⟩ <;>
      cases e <;> simp [State.occur, State.takeInterrupt_eq_self _ (s.takeable_gie h)]

theorem State.between_masked (h : s.sleeping = false) (hg : s.gie = false) :
    s.between.tick = s.tick ∧ s.between.sec = s.sec := by
  rw [s.between_eq_nextGap h]
  unfold State.nextGap
  split
  · simp
  · simpa using State.play_masked { s.drift with env := _ } _ (by simpa using hg)

end Sys2Proof.Machine
end

