-- ==== Sys2Proof/Laws/Run.lean ====
section
/-! SUPPORT. The laws of the sequencer: how a list of micro-steps runs, piece by piece, whatever the
gaps between them bring. -/

namespace Sys2Proof.Machine

@[simp] theorem andThen_next (s : State) (f : State → Outcome) : andThen (.next s) f = f s := rfl
@[simp] theorem andThen_fault (r : Fault) (f : State → Outcome) :
    andThen (.fault r) f = .fault r := rfl
@[simp] theorem andThen_refused (r : Refusal) (f : State → Outcome) :
    andThen (.refused r) f = .refused r := rfl

/-- A sequence that answers a next state did so at both places. -/
theorem andThen_eq_next {o : Outcome} {f : State → Outcome} {t : State}
    (h : andThen o f = .next t) : ∃ s, o = .next s ∧ f s = .next t := by
  cases o with
  | next s => exact ⟨s, rfl, h⟩
  | fault r => cases h
  | refused r => cases h

/-! ### What an empty environment leaves -/

/-- With no event in store, what a gap of an awake main context leaves as it was: everything but
undriven lines and the draws they make. -/
structure QuietFrame (s t : State) : Prop where
  env  : t.env = []
  ext  : t.ext = s.ext
  tick : t.tick = s.tick
  sec  : t.sec = s.sec
  tmrT : t.tmrT = s.tmrT
  tmrS : t.tmrS = s.tmrS
  gie  : t.gie = s.gie

theorem QuietFrame.trans {s t u : State} (h : QuietFrame s t) (k : QuietFrame t u) :
    QuietFrame s u where
  env := k.env
  ext := k.ext.trans h.ext
  tick := k.tick.trans h.tick
  sec := k.sec.trans h.sec
  tmrT := k.tmrT.trans h.tmrT
  tmrS := k.tmrS.trans h.tmrS
  gie := k.gie.trans h.gie

theorem State.between_quietFrame (s : State) (h : s.sleeping = false) (he : s.env = []) :
    QuietFrame s s.between := by
  rw [s.between_empty h he]
  constructor <;> simp [he]

/-! ### Running a list of micro-steps -/

/-- The gap before the next micro-step of operation `op`, at the position it records (R22). -/
def State.gapAt (s : State) (op : Instr) (todo : List Micro) : State :=
  { s with upc := some ⟨op, todo⟩ }.between

theorem State.gapAt_awake {s : State} (op : Instr) (todo : List Micro) (h : s.sleeping = false) :
    (s.gapAt op todo).sleeping = false :=
  State.between_awake _ h

/-- What the gap before a micro-step leaves as it was. -/
theorem State.gapAt_frame (s : State) (op : Instr) (todo : List Micro) :
    GapFrame { s with upc := some ⟨op, todo⟩ } (s.gapAt op todo) :=
  State.between_frame _

theorem State.gapAt_quiet {s : State} (op : Instr) (todo : List Micro) (h : s.sleeping = false)
    (he : s.env = []) : QuietFrame s (s.gapAt op todo) := by
  have q := State.between_quietFrame { s with upc := some ⟨op, todo⟩ } h he
  exact ⟨q.env, q.ext, q.tick, q.sec, q.tmrT, q.tmrS, q.gie⟩

/-- An awake main context runs its next micro-step after the gap before it. -/
theorem resume_awake (op : Instr) (m : Micro) (ms : List Micro) {s : State}
    (h : s.sleeping = false) :
    resume op (m :: ms) s = andThen (micro m (s.gapAt op (m :: ms))) (resume op ms) := by
  have hs : (s.gapAt op (m :: ms)).sleeping = false := State.gapAt_awake op _ h
  unfold State.gapAt at *
  simp only [resume]
  rw [if_neg (by simp [hs])]

/-- A command at the position it records goes on with the gap before its next micro-step (R22). -/
theorem resume_here {op : Instr} {m : Micro} {ms : List Micro} {s : State}
    (h : s.upc = some ⟨op, m :: ms⟩) :
    resume op (m :: ms) s = if s.between.sleeping then .next s.between
      else andThen (micro m s.between) (resume op ms) := by
  have hs : { s with upc := some ⟨op, m :: ms⟩ } = s := by rw [← h]
  simp only [resume, hs]

/-- The micro-steps `ms`, with `rest` after them, take `s` to `t`. -/
def Runs (op : Instr) (rest ms : List Micro) (s t : State) : Prop :=
  resume op (ms ++ rest) s = resume op rest t

theorem Runs.nil (op : Instr) (rest : List Micro) (s : State) : Runs op rest [] s s := rfl

/-- One list after another. -/
theorem Runs.append {op : Instr} {rest a b : List Micro} {s t u : State}
    (h : Runs op (b ++ rest) a s t) (k : Runs op rest b t u) : Runs op rest (a ++ b) s u := by
  unfold Runs at *
  rw [List.append_assoc, h, k]

/-- One micro-step. -/
theorem Runs.one {op : Instr} {rest : List Micro} {m : Micro} {s t : State}
    (h : s.sleeping = false) (hm : micro m (s.gapAt op (m :: rest)) = .next t) :
    Runs op rest [m] s t := by
  unfold Runs
  rw [List.singleton_append, resume_awake op m rest h, hm, andThen_next]

theorem Runs.cons {op : Instr} {rest ms : List Micro} {m : Micro} {s t u : State}
    (h : s.sleeping = false) (hm : micro m (s.gapAt op (m :: (ms ++ rest))) = .next t)
    (k : Runs op rest ms t u) : Runs op rest (m :: ms) s u :=
  Runs.append (a := [m]) (Runs.one h hm) k

/-- An operation whose list runs to its end ends the command. -/
theorem Runs.finish {op : Instr} {ms : List Micro} {s t : State} (h : Runs op [] ms s t) :
    resume op ms s = .next (t.finish op) := by
  unfold Runs at h
  rw [List.append_nil] at h
  rw [h]; rfl

/-- An operation's first micro-steps `ms`, with `rest` after them, take `s` to `t`. -/
def Starts (op : Instr) (rest ms : List Micro) (s t : State) : Prop :=
  runOp op (ms ++ rest) s = resume op rest t

/-- The state in which an operation's first micro-step runs. -/
def State.atStart (s : State) (op : Instr) (todo : List Micro) : State :=
  { s with upc := some ⟨op, todo⟩ }

theorem runOp_cons (op : Instr) (m : Micro) (ms : List Micro) (s : State) :
    runOp op (m :: ms) s = andThen (micro m (s.atStart op (m :: ms))) (resume op ms) := rfl

/-- The first list of an operation after another. -/
theorem Starts.append {op : Instr} {rest a b : List Micro} {s t u : State}
    (h : Starts op (b ++ rest) a s t) (k : Runs op rest b t u) : Starts op rest (a ++ b) s u := by
  unfold Starts Runs at *
  rw [List.append_assoc, h, k]

/-- One micro-step, the first. -/
theorem Starts.one {op : Instr} {rest : List Micro} {m : Micro} {s t : State}
    (hm : micro m (s.atStart op (m :: rest)) = .next t) : Starts op rest [m] s t := by
  unfold Starts
  rw [List.singleton_append, runOp_cons, hm, andThen_next]

theorem Starts.cons {op : Instr} {rest ms : List Micro} {m : Micro} {s t u : State}
    (hm : micro m (s.atStart op (m :: (ms ++ rest))) = .next t)
    (k : Runs op rest ms t u) : Starts op rest (m :: ms) s u :=
  Starts.append (a := [m]) (Starts.one hm) k

/-- An operation whose list runs to its end ends the command. -/
theorem Starts.finish {op : Instr} {ms : List Micro} {s t : State} (h : Starts op [] ms s t) :
    runOp op ms s = .next (t.finish op) := by
  unfold Starts at h
  rw [List.append_nil] at h
  rw [h]; rfl

/-- The position recorded before the first gap does not matter: the gap records its own. -/
theorem resume_upc (op : Instr) (m : Micro) (ms : List Micro) (s : State) (u : Option Upc) :
    resume op (m :: ms) { s with upc := u } = resume op (m :: ms) s := rfl

end Sys2Proof.Machine
end

