-- ==== Sys2Proof/Laws/Asleep.lean ====
section
/-! SUPPORT. A sleep nothing ends (R213): what a spent sleep timer and a main context that no tick
wakes keep, whatever happens. -/

namespace Sys2Proof.Machine

variable (s : State)

/-- The sleep timer is stopped with nothing pending. -/
def State.spent (s : State) : Prop := s.tmrS.run = false ∧ s.tmrS.ovf = false

theorem State.spent_congr {s t : State} (h : t.tmrS = s.tmrS) (k : s.spent) : t.spent := by
  unfold State.spent; rw [h]; exact k

theorem State.spent_pulse (x : Source) (h : s.spent) : (s.countPulse x).spent := by
  cases x
  · exact h
  · show (Timer.pulse s.tmrS).run = false ∧ (Timer.pulse s.tmrS).ovf = false
    unfold Timer.pulse; rw [if_neg (by simp [h.1])]; exact h
theorem State.spent_take (x : Source) (h : s.spent) : (s.takeInterrupt x).spent := by
  unfold State.takeInterrupt; split
  · cases x
    · exact h
    · exact ⟨rfl, rfl⟩
  · exact h
theorem State.spent_occur (e : Event) (h : s.spent) : (s.occur e).spent := by
  cases e with
  | pulseT => exact s.spent_pulse _ h
  | pulseS => exact s.spent_pulse _ h
  | take x => exact s.spent_take x h
  | ext p v => exact h
theorem State.spent_play (g : Gap) (h : s.spent) : (s.play g).spent :=
  s.play_induct (P := fun u v => u.spent → v.spent) (fun _ h => h) (fun a b h => b (a h))
    (fun u e h => u.spent_occur e h) g h

/-- Asleep with the sleep timer spent and no other wake source: what no gap ends (R213). -/
structure Stuck (s : State) : Prop where
  spent : s.spent
  asleep : s.sleeping = true
  deaf : s.cfg.tickWakes = false

theorem Stuck.take {s : State} (h : Stuck s) (x : Source) : Stuck (s.takeInterrupt x) where
  spent := s.spent_take x h.spent
  deaf := by rw [(s.takeInterrupt_frame x).cfg]; exact h.deaf
  asleep := by
    unfold State.takeInterrupt; split
    · next t =>
      cases x
      · show (s.sleeping && !s.cfg.tickWakes) = true
        rw [h.asleep, h.deaf]; rfl
      · simp [State.takeable, State.timer, h.spent.2] at t
    · exact h.asleep
theorem Stuck.pulse {s : State} (h : Stuck s) (x : Source) : Stuck (s.countPulse x) :=
  ⟨s.spent_pulse x h.spent, by simp [h.asleep], by rw [(s.countPulse_frame x).cfg]; exact h.deaf⟩
theorem Stuck.occur {s : State} (h : Stuck s) (e : Event) : Stuck (s.occur e) := by
  cases e with
  | pulseT => exact h.pulse _
  | pulseS => exact h.pulse _
  | take x => exact h.take x
  | ext p v => exact ⟨h.spent, h.asleep, h.deaf⟩
theorem Stuck.play {s : State} (h : Stuck s) (g : Gap) : Stuck (s.play g) :=
  s.play_induct (P := fun u v => Stuck u → Stuck v) (fun _ h => h) (fun a b h => b (a h))
    (fun _ e h => Stuck.occur h e) g h
theorem Stuck.pulses {s : State} (h : Stuck s) (x : Source) (n : Nat) :
    Stuck (s.countPulses x n) := by
  induction n generalizing s with
  | zero => exact h
  | succ n ih => exact ih (h.pulse x)
theorem Stuck.runOut {s : State} (h : Stuck s) (x : Source) : Stuck (s.runOut x) :=
  (h.pulses x _).take x
theorem Stuck.fairRest {s : State} (h : Stuck s) : Stuck s.fairRest := by
  have a := (h.take .tickOvf).take .wakeOvf
  simp only [State.fairRest]; split
  · split
    · exact (a.runOut _).runOut _
    · exact a.runOut _
  · exact a
theorem Stuck.doze {s : State} (h : Stuck s) (gs : List Gap) : Stuck (s.doze gs) := by
  induction gs generalizing s with
  | nil => exact Stuck.fairRest ⟨h.spent, h.asleep, h.deaf⟩
  | cons g gs ih =>
    have p : Stuck (({ s with env := gs } : State).play g) :=
      Stuck.play (s := { s with env := gs }) ⟨h.spent, h.asleep, h.deaf⟩ g
    simp only [State.doze]; rw [if_pos p.asleep]; exact ih p
/-- No gap ends such a sleep, whatever it brings. -/
theorem Stuck.between {s : State} (h : Stuck s) : Stuck s.between := by
  have d : Stuck s.drift :=
    ⟨State.spent_congr (by simp) h.spent, by simp [h.asleep],
      by rw [s.drift_frame.cfg]; exact h.deaf⟩
  simp only [State.between]; rw [if_pos (by simp [h.asleep])]; exact d.doze _

/-- A gap of an awake main context leaves a spent sleep timer spent. -/
theorem State.spent_between (ha : s.sleeping = false) (h : s.spent) : s.between.spent := by
  rw [s.between_eq_nextGap ha]; unfold State.nextGap
  have d : s.drift.spent := State.spent_congr (by simp) h
  split
  · exact d
  · exact State.spent_play _ _ d

end Sys2Proof.Machine
end

