-- ==== Sys2Proof/Laws/Pieces.lean ====
section
/-! SUPPORT. What the pieces of the pin and delay operations do: `PWR`,
`PDIR` and `BDLY` as they run
inside any operation, whatever the gaps between their micro-steps bring. -/

namespace Sys2Proof.Machine

/-- What the pieces of pin and delay operations leave as it was. -/
structure KeepFrame (s t : State) : Prop where
  cfg    : t.cfg = s.cfg
  cmds   : t.cmds = s.cmds
  cmd    : t.cmd = s.cmd
  res    : t.res = s.res
  busy   : t.busy = s.busy
  mscnt  : t.mscnt = s.mscnt
  se     : t.se = s.se
  cmderr : t.cmderr = s.cmderr
  gie    : t.gie = s.gie
  awake  : t.sleeping = false
  quiet  : s.env = [] → QuietFrame s t

theorem KeepFrame.refl {s : State} (h : s.sleeping = false) : KeepFrame s s := by
  constructor <;> first | rfl | exact h | exact fun e => ⟨e, rfl, rfl, rfl, rfl, rfl, rfl⟩

theorem KeepFrame.trans {s t u : State} (h : KeepFrame s t) (k : KeepFrame t u) :
    KeepFrame s u where
  cfg := k.cfg.trans h.cfg
  cmds := k.cmds.trans h.cmds
  cmd := k.cmd.trans h.cmd
  res := k.res.trans h.res
  busy := k.busy.trans h.busy
  mscnt := k.mscnt.trans h.mscnt
  se := k.se.trans h.se
  cmderr := k.cmderr.trans h.cmderr
  gie := k.gie.trans h.gie
  awake := k.awake
  quiet := fun e => (h.quiet e).trans (k.quiet (h.quiet e).env)

/-- What the gap before a micro-step of an awake main context leaves as it was. -/
structure GapKeep (s t : State) : Prop extends KeepFrame s t where
  dly   : t.dly = s.dly
  temps : t.temps = s.temps
  io    : t.io = s.io
  edges : t.edges = s.edges
  chain : s.driven = true → t.chain = s.chain
  draws : s.driven = true → t.draws = s.draws

@[simp] theorem State.play_draws (s : State) (g : Gap) : (s.play g).draws = s.draws := by
  induction g generalizing s with
  | nil => rfl
  | cons e g ih => rw [s.play_cons, ih, s.occur_draws]

/-- Driven lines draw nothing. -/
theorem State.between_draws {s : State} (h : s.sleeping = false) (hd : s.driven = true) :
    s.between.draws = s.draws := by
  rw [s.between_eq_nextGap h, s.drift_driven hd]
  unfold State.nextGap
  split
  · rfl
  · simp

theorem State.gapAt_keep {s : State} (op : Instr) (todo : List Micro) (h : s.sleeping = false) :
    GapKeep s (s.gapAt op todo) := by
  have f := s.gapAt_frame op todo
  exact
    { cfg := f.cfg, cmds := f.cmds, cmd := f.cmd, res := f.res, busy := f.busy, mscnt := f.mscnt
      se := f.se, cmderr := f.cmderr
      gie := State.between_gie { s with upc := some ⟨op, todo⟩ }
      awake := State.gapAt_awake op todo h
      quiet := State.gapAt_quiet op todo h
      dly := f.dly, temps := f.temps, io := f.io, edges := f.edges, chain := f.chain
      draws := fun d => State.between_draws (s := { s with upc := some ⟨op, todo⟩ }) h d }

/-- A pin write sees the edge rule once: what the chain is after it. -/
def SeesOnce (s t : State) : Prop :=
  s.driven = true → t.driven = true →
    t.chain = s.chain.sense (t.level s.cfg.clkPin) (t.level s.cfg.latPin) (t.level s.cfg.datPin) ∧
    t.edges = s.chain.seen (t.level s.cfg.clkPin) (t.level s.cfg.latPin) (t.level s.cfg.datPin)
      ++ s.edges

/-- The chain's free values at a draw (R113). -/
def chainDraw (n : Nat) : Chain :=
  ⟨Config.freeSr n, Config.freeQout n, Config.freeClkPrev n, Config.freeLatPrev n⟩

/-- What a read-modify-write of one I/O register does inside an operation (R71). -/
structure WriteDone (a : Nat) (v : Byte) (s t : State) : Prop extends KeepFrame s t where
  dly     : t.dly = s.dly
  io      : t.io = Memory.put s.io a v
  temps   : t.temps = { s.temps with tmp := Memory.get s.io a }
  synced  : t.synced = true
  sees    : SeesOnce s t
  undrive : s.driven = true → t.driven = false → t.chain = chainDraw s.draws

/-- An operation's start leaves everything as it was but `upc`. -/
theorem State.atStart_keep {s : State} (op : Instr) (todo : List Micro) (h : s.sleeping = false) :
    GapKeep s (s.atStart op todo) :=
  { cfg := rfl, cmds := rfl, cmd := rfl, res := rfl, busy := rfl, mscnt := rfl, se := rfl
    cmderr := rfl, gie := rfl, awake := h, quiet := fun e => ⟨e, rfl, rfl, rfl, rfl, rfl, rfl⟩
    dly := rfl, temps := rfl, io := rfl, edges := rfl, chain := fun _ => rfl
    draws := fun _ => rfl }

/-- The second micro-step of a read-modify-write, after its gap, from the state the first one ran
in. -/
theorem rmw_core (op : Instr) (rest : List Micro) (m2 : Micro) (a : Nat) (f : Temps → Byte)
    {s g1 : State} (k1 : GapKeep s g1)
    (write : ∀ g : State, g.cfg = s.cfg →
      micro m2 g = .next (State.chainStep { g with io := Memory.put g.io a (f g.temps) })) :
    ∃ t, Runs op rest [m2] (g1.setTmp (Memory.get g1.io a)) t ∧
      WriteDone a (f { s.temps with tmp := Memory.get s.io a }) s t := by
  obtain ⟨s1, hs1⟩ : ∃ u, u = g1.setTmp (Memory.get g1.io a) := ⟨_, rfl⟩
  have a1 : s1.sleeping = false := by rw [hs1]; exact k1.awake
  obtain ⟨g2, hg2⟩ : ∃ g, g = s1.gapAt op (m2 :: rest) := ⟨_, rfl⟩
  have k2 : GapKeep s1 g2 := hg2 ▸ State.gapAt_keep op _ a1
  have c1 : s1.cfg = s.cfg := by rw [hs1]; exact k1.cfg
  have io1 : s1.io = s.io := by rw [hs1]; exact k1.io
  have tm1 : s1.temps = { s.temps with tmp := Memory.get s.io a } := by
    rw [hs1, State.setTmp, k1.io, k1.temps]
  have k01 : KeepFrame s s1 := by rw [hs1]; exact { k1.toKeepFrame with quiet :=
      fun e => ⟨(k1.quiet e).env,
        (k1.quiet e).ext, (k1.quiet e).tick, (k1.quiet e).sec, (k1.quiet e).tmrT, (k1.quiet e).tmrS,
        (k1.quiet e).gie⟩ }
  have k02 := k01.trans k2.toKeepFrame
  obtain ⟨w, hw⟩ : ∃ w, w =
    { g2 with io := Memory.put s.io a (f { s.temps with tmp := Memory.get s.io a }) } := ⟨_, rfl⟩
  have e2 : micro m2 g2 = .next w.chainStep := by
    rw [write g2 (k2.cfg.trans c1), hw, k2.io, io1, k2.temps, tm1]
  have hdr : s1.driven = s.driven := State.driven_congr c1 io1
  refine ⟨w.chainStep, hs1 ▸ Runs.one a1 (hg2 ▸ e2), ?_⟩
  have kw : KeepFrame s w := by rw [hw]; exact { k02 with quiet := fun e => ⟨(k02.quiet e).env,
        (k02.quiet e).ext, (k02.quiet e).tick, (k02.quiet e).sec, (k02.quiet e).tmrT,
        (k02.quiet e).tmrS, (k02.quiet e).gie⟩ }
  have hch : s.driven = true → w.chain = s.chain := fun hd => by
    rw [hw]; exact (k2.chain (hdr.trans hd)).trans (by rw [hs1]; exact k1.chain hd)
  have hdw : s.driven = true → w.draws = s.draws := fun hd => by
    rw [hw]; exact (k2.draws (hdr.trans hd)).trans (by rw [hs1]; exact k1.draws hd)
  have hed : w.edges = s.edges := by
    rw [hw]; exact k2.edges.trans (by rw [hs1]; exact k1.edges)
  have hdt : w.chainStep.driven = w.driven := State.driven_congr w.chainStep_cfg w.chainStep_io
  exact
    { cfg := by simpa using kw.cfg
      cmds := by simpa using kw.cmds
      cmd := by simpa using kw.cmd
      res := by simpa using kw.res
      busy := by simpa using kw.busy
      mscnt := by simpa using kw.mscnt
      se := by simpa using kw.se
      cmderr := by simpa using kw.cmderr
      gie := by simpa using kw.gie
      awake := by simpa using kw.awake
      quiet := fun e => by
        have q := kw.quiet e
        constructor <;> simp [q.env, q.ext, q.tick, q.sec, q.tmrT, q.tmrS, q.gie]
      dly := by
        rw [w.chainStep_dly, hw]; exact k2.dly.trans (by rw [hs1]; exact k1.dly)
      io := by rw [w.chainStep_io, hw]
      temps := by rw [w.chainStep_temps, hw]; exact k2.temps.trans tm1
      synced := w.synced_chainStep
      sees := fun hd hd2 => by
        rw [w.chainStep_chain (hdt ▸ hd2), w.chainStep_edges (hdt ▸ hd2)]
        simp only [State.chainStep_level]
        rw [hch hd, hed, kw.cfg]
        exact ⟨rfl, rfl⟩
      undrive := fun hd hd2 => by
        rw [w.chainStep_undriven (hdt ▸ hd2), ← hdw hd]; rfl }

/-- A read-modify-write of one I/O register as two micro-steps, with whatever gaps (R71). -/
theorem rmw_runs (op : Instr) (rest : List Micro) (m1 m2 : Micro) (a : Nat) (f : Temps → Byte)
    {s : State} (ha : s.sleeping = false)
    (read : ∀ g : State, g.cfg = s.cfg → micro m1 g = .next (g.setTmp (Memory.get g.io a)))
    (write : ∀ g : State, g.cfg = s.cfg →
      micro m2 g = .next (State.chainStep { g with io := Memory.put g.io a (f g.temps) })) :
    ∃ t, Runs op rest [m1, m2] s t ∧
      WriteDone a (f { s.temps with tmp := Memory.get s.io a }) s t := by
  have k1 := State.gapAt_keep op (m1 :: m2 :: rest) ha
  obtain ⟨t, hr, hw⟩ := rmw_core op rest m2 a f k1 write
  exact ⟨t, Runs.cons ha (read _ k1.cfg) hr, hw⟩

/-- The same at the start of an operation. -/
theorem rmw_starts (op : Instr) (rest : List Micro) (m1 m2 : Micro) (a : Nat) (f : Temps → Byte)
    {s : State} (ha : s.sleeping = false)
    (read : ∀ g : State, g.cfg = s.cfg → micro m1 g = .next (g.setTmp (Memory.get g.io a)))
    (write : ∀ g : State, g.cfg = s.cfg →
      micro m2 g = .next (State.chainStep { g with io := Memory.put g.io a (f g.temps) })) :
    ∃ t, Starts op rest [m1, m2] s t ∧
      WriteDone a (f { s.temps with tmp := Memory.get s.io a }) s t := by
  have k1 := State.atStart_keep op (m1 :: m2 :: rest) ha
  obtain ⟨t, hr, hw⟩ := rmw_core op rest m2 a f k1 write
  exact ⟨t, Starts.cons (read _ k1.cfg) hr, hw⟩

/-- `PWR` inside an operation (R104): it writes its bit, and the chain sees the new levels. -/
theorem pwr_runs (op : Instr) (rest : List Micro) (pin : Pin) (lvl : LevelSrc) {s : State}
    (ha : s.sleeping = false) (hp : s.cfg.hasPin pin = true) :
    ∃ t, Runs op rest (pwrProg pin lvl) s t ∧
      WriteDone (outAddr pin) (putBit (s.out pin.port.toNat) pin.bit (lvl.value s.temps)) s t := by
  have h := rmw_runs op rest (.readOut pin) (.writeOut pin lvl) (outAddr pin)
    (fun t => putBit t.tmp pin.bit (lvl.value t)) ha
    (fun g hg => g.readToTmp_out (hg ▸ hp)) (fun g hg => g.memWrite_out _ (hg ▸ hp))
  cases lvl <;> exact h

/-- `PDIR` inside an operation (R100): it writes its bit, and the chain sees the new levels. -/
theorem pdir_runs (op : Instr) (rest : List Micro) (pin : Pin) (dir : Direction) {s : State}
    (ha : s.sleeping = false) (hp : s.cfg.hasPin pin = true) :
    ∃ t, Runs op rest (pdirProg pin dir) s t ∧
      WriteDone (dirAddr pin) (putBit (s.dir pin.port.toNat) pin.bit (dir = .output)) s t :=
  rmw_runs op rest (.readDir pin) (.writeDir pin dir) (dirAddr pin)
    (fun t => putBit t.tmp pin.bit (dir = .output)) ha
    (fun g hg => g.readToTmp_dir (hg ▸ hp)) (fun g hg => g.memWrite_dir _ (hg ▸ hp))

/-- `PWR` at the start of an operation (R104): it writes its bit,
and the chain sees the new levels. -/
theorem pwr_starts (op : Instr) (rest : List Micro) (pin : Pin) (lvl : LevelSrc) {s : State}
    (ha : s.sleeping = false) (hp : s.cfg.hasPin pin = true) :
    ∃ t, Starts op rest (pwrProg pin lvl) s t ∧
      WriteDone (outAddr pin) (putBit (s.out pin.port.toNat) pin.bit (lvl.value s.temps)) s t := by
  have h := rmw_starts op rest (.readOut pin) (.writeOut pin lvl) (outAddr pin)
    (fun t => putBit t.tmp pin.bit (lvl.value t)) ha
    (fun g hg => g.readToTmp_out (hg ▸ hp)) (fun g hg => g.memWrite_out _ (hg ▸ hp))
  cases lvl <;> exact h

/-- `PDIR` at the start of an operation (R100): it writes its bit,
and the chain sees the new levels. -/
theorem pdir_starts (op : Instr) (rest : List Micro) (pin : Pin) (dir : Direction) {s : State}
    (ha : s.sleeping = false) (hp : s.cfg.hasPin pin = true) :
    ∃ t, Starts op rest (pdirProg pin dir) s t ∧
      WriteDone (dirAddr pin) (putBit (s.dir pin.port.toNat) pin.bit (dir = .output)) s t :=
  rmw_starts op rest (.readDir pin) (.writeDir pin dir) (dirAddr pin)
    (fun t => putBit t.tmp pin.bit (dir = .output)) ha
    (fun g hg => g.readToTmp_dir (hg ▸ hp)) (fun g hg => g.memWrite_dir _ (hg ▸ hp))

/-- What `BDLY` leaves inside an operation. -/
structure DelayDone (s t : State) : Prop extends KeepFrame s t where
  temps : t.temps = s.temps
  io    : t.io = s.io
  edges : t.edges = s.edges
  chain : s.driven = true → t.chain = s.chain
  draws : s.driven = true → t.draws = s.draws

theorem DelayDone.trans {s t u : State} (h : DelayDone s t) (k : DelayDone t u) :
    DelayDone s u where
  toKeepFrame := h.toKeepFrame.trans k.toKeepFrame
  temps := k.temps.trans h.temps
  io := k.io.trans h.io
  edges := k.edges.trans h.edges
  chain := fun d =>
    (k.chain ((State.driven_congr h.cfg h.io).trans d)).trans (h.chain d)
  draws := fun d =>
    (k.draws ((State.driven_congr h.cfg h.io).trans d)).trans (h.draws d)

/-- The gap, and then a write of `DLY`. -/
theorem GapKeep.setDly {s g : State} (k : GapKeep s g) (v : Byte) :
    DelayDone s { g with dly := v } where
  toKeepFrame := { k.toKeepFrame with quiet := fun e => ⟨(k.quiet e).env, (k.quiet e).ext,
    (k.quiet e).tick, (k.quiet e).sec, (k.quiet e).tmrT, (k.quiet e).tmrS, (k.quiet e).gie⟩ }
  temps := k.temps
  io := k.io
  edges := k.edges
  chain := k.chain
  draws := k.draws

theorem delayUnits_run (op : Instr) (rest : List Micro) (n : Nat) {s : State}
    (ha : s.sleeping = false) :
    ∃ t, Runs op rest (List.replicate n .delayUnit) s t ∧ DelayDone s t ∧
      t.dly = s.dly - BitVec.ofNat 8 n := by
  induction n generalizing s with
  | zero =>
    exact ⟨s, Runs.nil op rest s, ⟨KeepFrame.refl ha, rfl, rfl, rfl, fun _ => rfl, fun _ => rfl⟩,
      by simp⟩
  | succ n ih =>
    have k := State.gapAt_keep op (.delayUnit :: (List.replicate n .delayUnit ++ rest)) ha
    have d := k.setDly ((s.gapAt op (.delayUnit ::
        (List.replicate n .delayUnit ++ rest))).dly - 1#8)
    obtain ⟨t, hr, hd, hv⟩ := ih d.awake
    refine ⟨t, Runs.cons ha rfl hr, d.trans hd, ?_⟩
    rw [hv]
    show Block.dly _ - 1#8 - _ = _
    rw [k.dly, show BitVec.ofNat 8 (n + 1) = 1#8 + BitVec.ofNat 8 n from by
      rw [Nat.add_comm, BitVec.ofNat_add]]
    exact (BitVec.sub_sub _ _ _)

/-- `BDLY` inside an operation (R135): only `DLY` changes, to 0. -/
theorem bdly_runs (op : Instr) (rest : List Micro) (units : Byte) {s : State}
    (ha : s.sleeping = false) :
    ∃ t, Runs op rest (bdlyProg units) s t ∧ DelayDone s t ∧ t.dly = 0#8 := by
  have k := State.gapAt_keep op
    (.loadDelay units :: (List.replicate units.toNat .delayUnit ++ rest)) ha
  have d := k.setDly units
  obtain ⟨t, hr, hd, hv⟩ := delayUnits_run op rest units.toNat d.awake
  refine ⟨t, Runs.cons ha rfl hr, d.trans hd, ?_⟩
  rw [hv]
  show units - _ = _
  simp

/-- `BDLY` at the start of an operation (R135). -/
theorem bdly_starts (op : Instr) (rest : List Micro) (units : Byte) {s : State}
    (ha : s.sleeping = false) :
    ∃ t, Starts op rest (bdlyProg units) s t ∧ DelayDone s t ∧ t.dly = 0#8 := by
  have k := State.atStart_keep op
    (.loadDelay units :: (List.replicate units.toNat .delayUnit ++ rest)) ha
  have d := k.setDly units
  obtain ⟨t, hr, hd, hv⟩ := delayUnits_run op rest units.toNat d.awake
  refine ⟨t, Starts.cons rfl hr, d.trans hd, ?_⟩
  rw [hv]
  show units - _ = _
  simp

end Sys2Proof.Machine
end

