-- ==== Sys2Proof/Laws/PinPieces.lean ====
section
/-! SUPPORT. What a `PWR` piece has done, bit by bit and to the chain; what a well-formed
configuration gives; and what the end of a command leaves. -/

namespace Sys2Proof.Machine

/-- What a `PWR` piece has done, bit by bit. -/
structure PwrDone (pin : Pin) (b : Bool) (s t : State) : Prop extends KeepFrame s t where
  dly    : t.dly = s.dly
  wf     : Memory.wf t.io = true
  bit    : ∀ q : Pin, getBit (t.out q.port.toNat) q.bit =
    if q = pin then b else getBit (s.out q.port.toNat) q.bit
  others : ∀ a, a ≠ outAddr pin → Memory.get t.io a = Memory.get s.io a
  isOut  : ∀ q, t.isOutput q = s.isOutput q
  synced : t.synced = true
  sees   : SeesOnce s t
  shreg  : t.temps.shreg = s.temps.shreg
  bitIdx : t.temps.bitIdx = s.temps.bitIdx
  digIdx : t.temps.digIdx = s.temps.digIdx
  mask   : t.temps.mask = s.temps.mask
  symbuf : t.temps.symbuf = s.temps.symbuf

theorem PwrDone.driven {pin : Pin} {b : Bool} {s t : State}
    (h : PwrDone pin b s t) : t.driven = s.driven := by
  unfold State.driven; simp only [h.cfg, h.isOut]

theorem WriteDone.pwr {pin : Pin} {b : Bool} {s t : State} (hw : Memory.wf s.io = true)
    (h : WriteDone (outAddr pin) (putBit (s.out pin.port.toNat) pin.bit b) s t) :
    PwrDone pin b s t where
  toKeepFrame := h.toKeepFrame
  dly := h.dly
  wf := by rw [h.io]; exact Memory.put_wf _ _ hw
  bit := fun q => by
    have := s.outBit_put_out (pin := pin) b q hw
    unfold State.out at *
    rw [h.io]; exact this
  others := fun a ha => by rw [h.io]; exact Memory.get_put_other _ _ ha
  isOut := fun q => by
    unfold State.isOutput
    have := s.dir_put_out (pin := pin) (putBit (s.out pin.port.toNat) pin.bit b) q.port.toNat
    unfold State.dir at *
    rw [h.io, this]
  synced := h.synced
  sees := h.sees
  shreg := by rw [h.temps]
  bitIdx := by rw [h.temps]
  digIdx := by rw [h.temps]
  mask := by rw [h.temps]
  symbuf := by rw [h.temps]

/-! ### What a well-formed configuration gives -/

theorem Config.ok_hasClk {c : Config} (h : c.ok = true) : c.hasPin c.clkPin = true := by
  simp only [Config.ok, Bool.and_eq_true] at h; exact h.1.1.1.1.1.2
theorem Config.ok_hasLat {c : Config} (h : c.ok = true) : c.hasPin c.latPin = true := by
  simp only [Config.ok, Bool.and_eq_true] at h; exact h.1.1.1.1.2
theorem Config.ok_hasDat {c : Config} (h : c.ok = true) : c.hasPin c.datPin = true := by
  simp only [Config.ok, Bool.and_eq_true] at h; exact h.1.1.1.2
theorem Config.ok_distinct {c : Config} (h : c.ok = true) :
    c.clkPin ≠ c.latPin ∧ c.clkPin ≠ c.datPin ∧ c.latPin ≠ c.datPin := by
  simp only [Config.ok, Bool.and_eq_true] at h
  simpa [Config.pinsDistinct, and_assoc] using h.1.1.2


/-- What `ready` asks. -/
theorem State.ready_iff (s : State) : s.ready = true ↔
    s.cfg.ok = true ∧ Memory.wf s.io = true ∧ s.synced = true ∧ s.sleeping = false := by
  simp [State.ready, and_assoc]

/-! ### The end of a command -/

theorem KeepFrame.finish_host {s t : State} (k : KeepFrame s t) (op : Instr) : s.keptHost
    (t.finish op) := by
  simp [State.keptHost, k.cfg, k.cmds, k.cmd, k.cmderr]
theorem KeepFrame.finish_quiet {s t : State} (k : KeepFrame s t) (op : Instr) : s.keptQuiet
    (t.finish op) := by
  intro e; have q := k.quiet e
  simp [q.env, q.ext, q.tick, q.sec, q.tmrT, q.tmrS, q.gie]
theorem KeepFrame.finish_ended {s t : State} (k : KeepFrame s t) (op : Instr) :
    (t.finish op).ended = true := by
  simp [State.ended, k.awake]
theorem State.finish_level (t : State) (op : Instr) (pin : Pin) :
    (t.finish op).level pin = t.level pin :=
  State.level_congr (by simp) (by simp) pin
theorem State.finish_out (t : State) (op : Instr) (p : Nat) : (t.finish op).out p = t.out p := by
  unfold State.out; simp
theorem State.finish_isOutput (t : State) (op : Instr) (p : Pin) :
    (t.finish op).isOutput p = t.isOutput p :=
  State.isOutput_congr (by simp) p
theorem State.finish_driven (t : State) (op : Instr) : (t.finish op).driven = t.driven :=
  State.driven_congr (by simp) (by simp)

theorem State.driven_level {s : State} (hd : s.driven = true) :
    s.level s.cfg.clkPin = getBit (s.out s.cfg.clkPin.port.toNat) s.cfg.clkPin.bit ∧
    s.level s.cfg.latPin = getBit (s.out s.cfg.latPin.port.toNat) s.cfg.latPin.bit ∧
    s.level s.cfg.datPin = getBit (s.out s.cfg.datPin.port.toNat) s.cfg.datPin.bit := by
  obtain ⟨a, b, c⟩ := s.driven_iff.1 hd
  exact ⟨s.level_output a, s.level_output b, s.level_output c⟩

theorem State.synced_prev {s : State} (hs : s.synced = true) (hd : s.driven = true) :
    s.chain.clkPrev = getBit (s.out s.cfg.clkPin.port.toNat) s.cfg.clkPin.bit ∧
    s.chain.latPrev = getBit (s.out s.cfg.latPin.port.toNat) s.cfg.latPin.bit := by
  obtain ⟨a, b, -⟩   := State.driven_level hd
  simp only [State.synced, hd, Bool.not_true, Bool.false_or, Bool.and_eq_true, beq_iff_eq] at hs
  rw [← a, ← b]; exact hs

/-- chain after a PWR piece, driven: in OUT bits -/
theorem PwrDone.chain_eq {pin : Pin} {b : Bool} {s t : State} (h : PwrDone pin b s t)
    (hs : s.synced = true)
    (hd : s.driven = true) :
    t.chain = s.chain.sense
      (if s.cfg.clkPin = pin then b else s.chain.clkPrev)
      (if s.cfg.latPin = pin then b else s.chain.latPrev)
      (if s.cfg.datPin = pin then b else getBit (s.out s.cfg.datPin.port.toNat) s.cfg.datPin.bit) ∧
    t.edges = s.chain.seen
      (if s.cfg.clkPin = pin then b else s.chain.clkPrev)
      (if s.cfg.latPin = pin then b else s.chain.latPrev)
      (if s.cfg.datPin = pin then b else getBit (s.out s.cfg.datPin.port.toNat) s.cfg.datPin.bit)
      ++ s.edges := by
  have hdt : t.driven = true := h.driven.trans hd
  obtain ⟨a, b', c⟩   := State.driven_level hdt
  obtain ⟨p1, p2⟩  := State.synced_prev hs hd
  have := h.sees hd hdt
  rw [h.cfg] at a b' c
  rw [a, b', c, h.bit, h.bit, h.bit, ← p1, ← p2] at this
  exact this

end Sys2Proof.Machine
end

