-- ==== Sys2Proof/Laws/ChainPieces.lean ====
section
/-! SUPPORT. What `PULSE`, `SHB` and `LAT` do as they run inside any operation, whatever the gaps
between their micro-steps bring. -/

namespace Sys2Proof.Machine

/-- What a run of pin writes and delays leaves as it was, but for the `OUT` bits of the pins `W`. -/
structure LineFrame (W : List Pin) (s t : State) : Prop extends KeepFrame s t where
  wf     : Memory.wf t.io = true
  keptO  : s.keptOut t W
  keptI  : s.keptIo t (W.map outAddr)
  isOut  : ∀ q, t.isOutput q = s.isOutput q
  synced : s.synced = true → t.synced = true

theorem LineFrame.driven {W : List Pin} {s t : State} (h : LineFrame W s t) :
    t.driven = s.driven := by
  unfold State.driven; simp only [h.cfg, h.isOut]

theorem LineFrame.trans {W : List Pin} {s t u : State} (h : LineFrame W s t)
    (k : LineFrame W t u) : LineFrame W s u where
  toKeepFrame := h.toKeepFrame.trans k.toKeepFrame
  wf := k.wf
  keptO := fun q hq => (k.keptO q hq).trans (h.keptO q hq)
  keptI := fun a ha => (k.keptI a ha).trans (h.keptI a ha)
  isOut := fun q => (k.isOut q).trans (h.isOut q)
  synced := fun d => k.synced (h.synced d)

theorem LineFrame.mono {W V : List Pin} {s t : State} (h : LineFrame W s t) (hs : W ⊆ V) :
    LineFrame V s t where
  toKeepFrame := h.toKeepFrame
  wf := h.wf
  keptO := fun q hq => h.keptO q fun c => hq (hs c)
  keptI := fun a ha => h.keptI a fun c => ha (List.map_subset _ hs c)
  isOut := h.isOut
  synced := h.synced

theorem PwrDone.line {pin : Pin} {b : Bool} {s t : State} (h : PwrDone pin b s t) :
    LineFrame [pin] s t where
  toKeepFrame := h.toKeepFrame
  wf := h.wf
  keptO := fun q hq => by rw [h.bit, if_neg (by simpa using hq)]
  keptI := fun a ha => h.others a (by simpa using ha)
  isOut := h.isOut
  synced := fun _ => h.synced

theorem DelayDone.line {W : List Pin} {s t : State} (h : DelayDone s t)
    (hw : Memory.wf s.io = true) : LineFrame W s t where
  toKeepFrame := h.toKeepFrame
  wf := by rw [h.io]; exact hw
  keptO := fun q _ => by unfold State.out; rw [h.io]
  keptI := fun a _ => by rw [h.io]
  isOut := fun q => State.isOutput_congr h.io q
  synced := fun hs => by
    have hdr : t.driven = s.driven := State.driven_congr h.cfg h.io
    cases hd : s.driven with
    | false => unfold State.synced; rw [hdr, hd]; rfl
    | true =>
      obtain ⟨a, b, -⟩ := s.driven_iff.1 hd
      unfold State.synced at *
      rw [hdr, h.cfg, h.chain hd, State.level_congr_output h.io a, State.level_congr_output h.io b]
      exact hs

theorem DelayDone.out {s t : State} (h : DelayDone s t) (p : Nat) : t.out p = s.out p := by
  unfold State.out; rw [h.io]

/-- The temporaries an outer operation keeps its place in are untouched. -/
structure SameTemps (s t : State) : Prop where
  shreg  : t.temps.shreg = s.temps.shreg
  bitIdx : t.temps.bitIdx = s.temps.bitIdx
  digIdx : t.temps.digIdx = s.temps.digIdx
  mask   : t.temps.mask = s.temps.mask
  symbuf : t.temps.symbuf = s.temps.symbuf

theorem SameTemps.trans {s t u : State} (h : SameTemps s t) (k : SameTemps t u) :
    SameTemps s u :=
  ⟨k.1.trans h.1, k.2.trans h.2, k.3.trans h.3, k.4.trans h.4, k.5.trans h.5⟩
theorem PwrDone.temps' {pin : Pin} {b : Bool} {s t : State}
    (h : PwrDone pin b s t) : SameTemps s t :=
  ⟨h.shreg, h.bitIdx, h.digIdx, h.mask, h.symbuf⟩
theorem DelayDone.temps' {s t : State} (h : DelayDone s t) : SameTemps s t := by
  constructor <;> rw [h.temps]

/-- The chain after a clock or latch pulse from `ch`, with the data line at `d` (R110, R111). -/
def afterPulse (c : Config) (pin : Pin) (ch : Chain) (d : Bool) : Chain :=
  if pin = c.clkPin then { ch with sr := shiftIn ch.sr d, clkPrev := true }
  else { ch with qout := ch.sr, latPrev := true }

/-- The edge that pulse makes. -/
def pulseEdge (c : Config) (pin : Pin) (ch : Chain) (d : Bool) : Edge :=
  if pin = c.clkPin then .clk d else .lat ch.sr

/-- What `PULSE` leaves (R114): the line high, `DLY` at 0 and, on driven lines, one rising edge. -/
structure PulseDone (pin : Pin) (s t : State) : Prop extends LineFrame [pin] s t,
    SameTemps s t where
  dly : t.dly = 0#8
  high : getBit (t.out pin.port.toNat) pin.bit = true
  chain : s.synced = true → s.driven = true → (pin = s.cfg.clkPin ∨ pin = s.cfg.latPin) →
    t.chain = afterPulse s.cfg pin s.chain
      (getBit (s.out s.cfg.datPin.port.toNat) s.cfg.datPin.bit) ∧
    t.edges = pulseEdge s.cfg pin s.chain
      (getBit (s.out s.cfg.datPin.port.toNat) s.cfg.datPin.bit) :: s.edges

/-- Low, delay, high, delay make a pulse. -/
theorem pulse_assemble {pin : Pin} {s t1 t2 t3 t4 : State} (hok : s.cfg.ok = true)
    (h1 : PwrDone pin false s t1) (h2 : DelayDone t1 t2) (h3 : PwrDone pin true t2 t3)
    (h4 : DelayDone t3 t4) (h4' : t4.dly = 0#8) : PulseDone pin s t4 where
  toLineFrame := ((h1.line.trans (h2.line h1.wf)).trans h3.line).trans (h4.line h3.wf)
  toSameTemps := ((h1.temps'.trans h2.temps').trans h3.temps').trans h4.temps'
  dly := h4'
  high := by rw [h4.out, h3.bit, if_pos rfl]
  chain := fun hs hd hpin => by
    obtain ⟨n1, n2, n3⟩ := Config.ok_distinct hok
    have hd1 := h1.driven.trans hd
    have l2 := (h2.line (W := []) h1.wf)
    have hd2 := l2.driven.trans hd1
    have hd3 := h3.driven.trans hd2
    have s2 : t2.synced = true := l2.synced h1.synced
    obtain ⟨c1, e1⟩ := h1.chain_eq hs hd
    obtain ⟨c3, e3⟩ := h3.chain_eq s2 hd2
    have cf2 : t2.cfg = s.cfg := h2.cfg.trans h1.cfg
    have dat : pin ≠ s.cfg.datPin := by rcases hpin with rfl | rfl <;> assumption
    rw [h4.chain hd3, h4.edges, c3, e3, h2.edges, h2.chain hd1, cf2, h2.out, c1, e1, h1.bit,
        if_neg (Ne.symm dat)]
    generalize getBit (s.out s.cfg.datPin.port.toNat) s.cfg.datPin.bit = d
    rcases hpin with rfl | rfl
    · simp only [if_neg (Ne.symm n1), if_neg (Ne.symm n2), if_true]
      cases hh : s.chain.clkPrev <;> cases h5 : s.chain.latPrev <;>
        simp [Chain.sense, Chain.seen, afterPulse, pulseEdge, hh, h5]
    · simp only [if_neg n1, if_neg (Ne.symm n3), if_true]
      cases hh : s.chain.clkPrev <;> cases h5 : s.chain.latPrev <;>
        simp [Chain.sense, Chain.seen, afterPulse, pulseEdge, hh, h5, Ne.symm n1]

/-- `PULSE` inside an operation. -/
theorem pulse_runs (op : Instr) (rest : List Micro) (pin : Pin) {s : State} (c : Config)
    (ha : s.sleeping = false) (hok : s.cfg.ok = true) (hw : Memory.wf s.io = true)
    (hp : s.cfg.hasPin pin = true) :
    ∃ t, Runs op rest (pulseProg c pin) s t ∧ PulseDone pin s t := by
  obtain ⟨t1, r1, w1⟩ := pwr_runs op (bdlyProg c.delaySteps ++ (pwrProg pin (.lit true) ++
    (bdlyProg c.delaySteps ++ rest))) pin (.lit false) ha hp
  have h1 := w1.pwr hw
  obtain ⟨t2, r2, h2, -⟩ := bdly_runs op (pwrProg pin (.lit true) ++
    (bdlyProg c.delaySteps ++ rest)) c.delaySteps h1.awake
  have hp2 : t2.cfg.hasPin pin = true := by rw [h2.cfg, h1.cfg]; exact hp
  obtain ⟨t3, r3, w3⟩ := pwr_runs op (bdlyProg c.delaySteps ++ rest) pin (.lit true) h2.awake hp2
  have h3 := w3.pwr (by rw [h2.io]; exact h1.wf)
  obtain ⟨t4, r4, h4, h4'⟩ := bdly_runs op rest c.delaySteps h3.awake
  refine ⟨t4, ?_, pulse_assemble hok h1 h2 h3 h4 h4'⟩
  unfold pulseProg
  refine Runs.append (t := t3) (Runs.append (t := t2) (Runs.append (t := t1) ?_ ?_) ?_) r4
  · simpa [List.append_assoc] using r1
  · simpa [List.append_assoc] using r2
  · simpa [List.append_assoc] using r3

/-- `PULSE` at the start of an operation. -/
theorem pulse_starts (op : Instr) (rest : List Micro) (pin : Pin) {s : State} (c : Config)
    (ha : s.sleeping = false) (hok : s.cfg.ok = true) (hw : Memory.wf s.io = true)
    (hp : s.cfg.hasPin pin = true) :
    ∃ t, Starts op rest (pulseProg c pin) s t ∧ PulseDone pin s t := by
  obtain ⟨t1, r1, w1⟩ := pwr_starts op (bdlyProg c.delaySteps ++ (pwrProg pin (.lit true) ++
    (bdlyProg c.delaySteps ++ rest))) pin (.lit false) ha hp
  have h1 := w1.pwr hw
  obtain ⟨t2, r2, h2, -⟩ := bdly_runs op (pwrProg pin (.lit true) ++
    (bdlyProg c.delaySteps ++ rest)) c.delaySteps h1.awake
  have hp2 : t2.cfg.hasPin pin = true := by rw [h2.cfg, h1.cfg]; exact hp
  obtain ⟨t3, r3, w3⟩ := pwr_runs op (bdlyProg c.delaySteps ++ rest) pin (.lit true) h2.awake hp2
  have h3 := w3.pwr (by rw [h2.io]; exact h1.wf)
  obtain ⟨t4, r4, h4, h4'⟩ := bdly_runs op rest c.delaySteps h3.awake
  refine ⟨t4, ?_, pulse_assemble hok h1 h2 h3 h4 h4'⟩
  unfold pulseProg
  refine Starts.append (t := t3) (Starts.append (t := t2) (Starts.append (t := t1) ?_ ?_) ?_) r4
  · simpa [List.append_assoc] using r1
  · simpa [List.append_assoc] using r2
  · simpa [List.append_assoc] using r3

/-! ### `SHB` -/

/-- What the passes of `SHB`'s loop leave, but for the chain. -/
structure ShiftDone (W : List Pin) (s t : State) : Prop extends LineFrame W s t where
  dly : t.dly = 0#8
  shreg  : t.temps.shreg = s.temps.shreg
  digIdx : t.temps.digIdx = s.temps.digIdx
  mask   : t.temps.mask = s.temps.mask
  symbuf : t.temps.symbuf = s.temps.symbuf
  clkHigh : getBit (t.out s.cfg.clkPin.port.toNat) s.cfg.clkPin.bit = true

/-- One pass of `SHB`'s loop (R115). -/
theorem shiftBit_runs (op : Instr) (rest : List Micro) {s : State}
    (ha : s.sleeping = false) (hok : s.cfg.ok = true) (hw : Memory.wf s.io = true) :
    ∃ t, Runs op rest (shiftBitProg s.cfg) s t ∧ ShiftDone [s.cfg.clkPin, s.cfg.datPin] s t ∧
      t.temps.bitIdx = s.temps.bitIdx - 1 ∧
      getBit (t.out s.cfg.datPin.port.toNat) s.cfg.datPin.bit =
        s.temps.shreg.getLsbD s.temps.bitIdx.toNat ∧
      (s.synced = true → s.driven = true →
        t.chain = { s.chain with
          sr := shiftIn s.chain.sr (s.temps.shreg.getLsbD s.temps.bitIdx.toNat), clkPrev := true } ∧
        t.edges = .clk (s.temps.shreg.getLsbD s.temps.bitIdx.toNat) :: s.edges) := by
  obtain ⟨n1, n2, n3⟩ := Config.ok_distinct hok
  obtain ⟨t1, r1, w1⟩ := pwr_runs op (pulseProg s.cfg s.cfg.clkPin ++
      ([.nextBit] ++ rest)) s.cfg.datPin .shregBit ha
    (Config.ok_hasDat hok)
  have h1 := w1.pwr hw
  obtain ⟨t2, r2, h2⟩ := pulse_runs op ([.nextBit] ++ rest) s.cfg.clkPin s.cfg h1.awake
    (by rw [h1.cfg]; exact hok) h1.wf (by rw [h1.cfg]; exact Config.ok_hasClk hok)
  have k := State.gapAt_keep op (.nextBit :: rest) h2.awake
  obtain ⟨g, hg⟩ : ∃ g, g = t2.gapAt op (.nextBit :: rest) := ⟨_, rfl⟩
  rw [← hg] at k
  have r3 : Runs op rest [.nextBit] t2 g.nextBit := Runs.one h2.awake (by rw [← hg]; rfl)
  have d3 : DelayDone t2 g := ⟨k.toKeepFrame, k.temps, k.io, k.edges, k.chain, k.draws⟩
  have l3 : LineFrame [s.cfg.clkPin, s.cfg.datPin] t2 g := d3.line h2.wf
  have l3' : LineFrame [s.cfg.clkPin, s.cfg.datPin] t2 g.nextBit :=
    { l3 with
      quiet := fun e => ⟨(l3.quiet e).env, (l3.quiet e).ext, (l3.quiet e).tick, (l3.quiet e).sec,
        (l3.quiet e).tmrT, (l3.quiet e).tmrS, (l3.quiet e).gie⟩ }
  refine ⟨g.nextBit, ?_, ?_, ?_, ?_, ?_⟩
  · unfold shiftBitProg
    refine Runs.append (t := t2) (Runs.append (t := t1) ?_ ?_) r3
    · simpa [List.append_assoc] using r1
    · simpa [List.append_assoc] using r2
  · exact
      { toLineFrame := ((h1.line.mono (by simp)).trans (h2.toLineFrame.mono (by simp))).trans l3'
        dly := k.dly.trans h2.dly
        shreg := by rw [← h1.shreg, ← h2.shreg, ← k.temps]; rfl
        digIdx := by rw [← h1.digIdx, ← h2.digIdx, ← k.temps]; rfl
        mask := by rw [← h1.mask, ← h2.mask, ← k.temps]; rfl
        symbuf := by rw [← h1.symbuf, ← h2.symbuf, ← k.temps]; rfl
        clkHigh := by
          show getBit (g.out _) _ = _
          rw [d3.out]; exact h2.high }
  · show g.temps.bitIdx - 1 = _
    rw [k.temps, h2.bitIdx, h1.bitIdx]
  · show getBit (g.out _) _ = _
    rw [d3.out, h2.keptO s.cfg.datPin (by simpa using Ne.symm n2), h1.bit, if_pos rfl]; rfl
  · intro hs hd
    have hd1 := h1.driven.trans hd
    obtain ⟨c1, e1⟩ := h1.chain_eq hs hd
    rw [if_neg n2, if_neg n3, if_pos rfl, Chain.sense_steady] at c1
    rw [if_neg n2, if_neg n3, if_pos rfl, Chain.seen_steady] at e1
    obtain ⟨c2, e2⟩ := h2.chain h1.synced hd1 (.inl (by rw [h1.cfg]))
    rw [h1.cfg, h1.bit, if_pos rfl, c1] at c2 e2
    rw [e1] at e2
    show g.chain = _ ∧ g.edges = _
    rw [k.chain (h2.driven.trans hd1), k.edges, c2, e2]
    exact ⟨by simp [afterPulse, LevelSrc.value], by simp [pulseEdge, LevelSrc.value]⟩

/-- `SR` after bits `n-1` to 0 of a byte, in that order (R110). -/
def shiftInBits (sr : ChainWord) (b : Byte) : Nat → ChainWord
  | 0 => sr
  | n + 1 => shiftInBits (shiftIn sr (b.getLsbD n)) b n

/-- The edges of those shifts, newest first. -/
def bitEdges (b : Byte) : Nat → List Edge
  | 0 => []
  | n + 1 => bitEdges b n ++ [.clk (b.getLsbD n)]

/-- `n + 1` passes of `SHB`'s loop (R115). -/
theorem shiftBits_runs (op : Instr) (rest : List Micro) (n : Nat) {s : State}
    (ha : s.sleeping = false) (hok : s.cfg.ok = true) (hw : Memory.wf s.io = true)
    (hb : s.temps.bitIdx = (n : Int)) :
    ∃ t, Runs op rest (shiftBits s.cfg (n + 1)) s t ∧
      ShiftDone [s.cfg.clkPin, s.cfg.datPin] s t ∧
      getBit (t.out s.cfg.datPin.port.toNat) s.cfg.datPin.bit = s.temps.shreg.getLsbD 0 ∧
      (s.synced = true → s.driven = true →
        t.chain = { s.chain with
          sr := shiftInBits s.chain.sr s.temps.shreg (n + 1), clkPrev := true } ∧
        t.edges = bitEdges s.temps.shreg (n + 1) ++ s.edges) := by
  induction n generalizing s with
  | zero =>
    obtain ⟨t, hr, hd, -, ho, hc⟩ := shiftBit_runs op rest ha hok hw
    refine ⟨t, by simpa [shiftBits] using hr, hd, by simpa [hb] using ho, fun h1 h2 => ?_⟩
    simpa [shiftInBits, bitEdges, hb] using hc h1 h2
  | succ n ih =>
    obtain ⟨t, hr, hd, hbi, ho, hc⟩ := shiftBit_runs op (shiftBits s.cfg (n + 1) ++ rest) ha hok hw
    have hcf := hd.cfg
    obtain ⟨u, kr, kd, ko, kc⟩ := ih hd.awake (by rw [hcf]; exact hok) hd.wf
      (by rw [hbi, hb]; push_cast; ring)
    rw [hcf] at kr kd ko
    refine ⟨u, Runs.append hr kr, ?_, by rw [ko, hd.shreg], fun h1 h2 => ?_⟩
    · exact
        { toLineFrame := hd.toLineFrame.trans kd.toLineFrame
          dly := kd.dly
          shreg := kd.shreg.trans hd.shreg
          digIdx := kd.digIdx.trans hd.digIdx
          mask := kd.mask.trans hd.mask
          symbuf := kd.symbuf.trans hd.symbuf
          clkHigh := by have := kd.clkHigh; rw [hcf] at this; exact this }
    · obtain ⟨c1, e1⟩ := hc h1 h2
      obtain ⟨c2, e2⟩ := kc (hd.synced h1) (hd.driven.trans h2)
      rw [c2, e2, c1, e1, hd.shreg]
      have : s.temps.bitIdx.toNat = n + 1 := by rw [hb]; simp
      rw [this]
      exact ⟨rfl, by simp [bitEdges]⟩

/-- What `SHB` leaves (R115): `SR` is the old low byte above the byte transmitted. -/
structure ShbDone (b : Byte) (s t : State) : Prop extends LineFrame [s.cfg.clkPin,
    s.cfg.datPin] s t where
  dly : t.dly = 0#8
  digIdx : t.temps.digIdx = s.temps.digIdx
  mask   : t.temps.mask = s.temps.mask
  symbuf : t.temps.symbuf = s.temps.symbuf
  clkHigh : getBit (t.out s.cfg.clkPin.port.toNat) s.cfg.clkPin.bit = true
  datBit : getBit (t.out s.cfg.datPin.port.toNat) s.cfg.datPin.bit = b.getLsbD 0
  chain : s.synced = true → s.driven = true →
    t.chain = ⟨s.chain.sr.extractLsb' 0 8 ++ b, s.chain.qout, true, s.chain.latPrev⟩ ∧
    t.edges = bitEdges b 8 ++ s.edges

theorem shiftInBits_eight (sr : ChainWord) (b : Byte) :
    shiftInBits sr b 8 = sr.extractLsb' 0 8 ++ b := by
  apply BitVec.eq_of_getLsbD_eq
  intro i hi
  simp only [shiftInBits, shiftIn]
  simp only [BitVec.getLsbD_append, BitVec.getLsbD_extractLsb', BitVec.getLsbD_ofBool]
  interval_cases i <;> simp

/-- `SHB` after its load, from the state the load ran in. -/
theorem shb_core (op : Instr) (rest : List Micro) (src : ByteSrc) {s g : State} (k : GapKeep s g)
    (hok : s.cfg.ok = true) (hw : Memory.wf s.io = true) :
    ∃ t, Runs op rest (shiftBits s.cfg 8) (g.loadShift (src.value g.temps)) t ∧
      ShbDone (src.value s.temps) s t := by
  have hv : src.value g.temps = src.value s.temps := by rw [k.temps]
  rw [hv]
  obtain ⟨s1, hs1⟩ : ∃ u, u = g.loadShift (src.value s.temps) := ⟨_, rfl⟩
  have d1 : DelayDone s g := ⟨k.toKeepFrame, k.temps, k.io, k.edges, k.chain, k.draws⟩
  have l1 : LineFrame [s.cfg.clkPin, s.cfg.datPin] s g := d1.line hw
  have l1' : LineFrame [s.cfg.clkPin, s.cfg.datPin] s s1 := by
    rw [hs1]
    exact { l1 with
      quiet := fun e => ⟨(l1.quiet e).env, (l1.quiet e).ext, (l1.quiet e).tick, (l1.quiet e).sec,
        (l1.quiet e).tmrT, (l1.quiet e).tmrS, (l1.quiet e).gie⟩ }
  obtain ⟨t, hr, hd, ho, hc⟩ := shiftBits_runs op rest 7 l1'.awake (by rw [l1'.cfg]; exact hok)
    l1'.wf (by rw [hs1]; rfl)
  rw [l1'.cfg] at hr hd ho
  have hsh : s1.temps.shreg = src.value s.temps := by rw [hs1]; rfl
  rw [← hs1]
  refine ⟨t, hr, ?_⟩
  exact
    { toLineFrame := l1'.trans hd.toLineFrame
      dly := hd.dly
      digIdx := by rw [hd.digIdx, hs1, ← k.temps]; rfl
      mask := by rw [hd.mask, hs1, ← k.temps]; rfl
      symbuf := by rw [hd.symbuf, hs1, ← k.temps]; rfl
      clkHigh := by have := hd.clkHigh; rw [l1'.cfg] at this; exact this
      datBit := by rw [ho, hsh]
      chain := fun h1 h2 => by
        obtain ⟨c, e⟩ := hc (l1'.synced h1) (l1'.driven.trans h2)
        rw [c, e, hsh, shiftInBits_eight, hs1]
        simp only [State.loadShift_chain, State.loadShift_edges]
        rw [k.chain h2, k.edges]
        exact ⟨rfl, rfl⟩ }

/-- `SHB` inside an operation. -/
theorem shb_runs (op : Instr) (rest : List Micro) (src : ByteSrc) {s : State}
    (ha : s.sleeping = false) (hok : s.cfg.ok = true) (hw : Memory.wf s.io = true) :
    ∃ t, Runs op rest (shbProg s.cfg src) s t ∧ ShbDone (src.value s.temps) s t := by
  obtain ⟨t, hr, hd⟩ := shb_core op rest src
    (State.gapAt_keep op (.loadShift src :: (shiftBits s.cfg 8 ++ rest)) ha) hok hw
  exact ⟨t, Runs.cons ha rfl hr, hd⟩

/-- `SHB` at the start of an operation. -/
theorem shb_starts (op : Instr) (rest : List Micro) (src : ByteSrc) {s : State}
    (ha : s.sleeping = false) (hok : s.cfg.ok = true) (hw : Memory.wf s.io = true) :
    ∃ t, Starts op rest (shbProg s.cfg src) s t ∧ ShbDone (src.value s.temps) s t := by
  obtain ⟨t, hr, hd⟩ := shb_core op rest src
    (State.atStart_keep op (.loadShift src :: (shiftBits s.cfg 8 ++ rest)) ha) hok hw
  exact ⟨t, Starts.cons rfl hr, hd⟩
end Sys2Proof.Machine
end

