-- ==== Sys2Proof/Laws/SleepPieces.lean ====
section
/-! SUPPORT. What `SLPMS` does as it runs inside any operation: it ends or is left asleep;
and with no event in store it ends. -/

namespace Sys2Proof.Machine

/-! ### Nothing in a gap writes `IE_S` (R174) -/

/-- Counting leaves the enable as it was. -/
theorem Timer.pulse_ie (t : Timer) : t.pulse.ie = t.ie := by
  unfold Timer.pulse; split
  · split <;> rfl
  · rfl
theorem State.occur_ieS (s : State) (e : Event) : (s.occur e).tmrS.ie = s.tmrS.ie := by
  cases e with
  | pulseT => rfl
  | pulseS => exact Timer.pulse_ie _
  | take x =>
    simp only [State.occur, State.takeInterrupt]; split
    · cases x <;> rfl
    · rfl
  | ext p v => rfl
theorem State.play_ieS (s : State) (g : Gap) : (s.play g).tmrS.ie = s.tmrS.ie := by
  induction g generalizing s with
  | nil => rfl
  | cons e g ih => rw [s.play_cons, ih, s.occur_ieS]
theorem State.take_ieS (s : State) (x : Source) : (s.takeInterrupt x).tmrS.ie = s.tmrS.ie :=
  s.occur_ieS (.take x)
theorem State.runOut_ieS (s : State) (x : Source) : (s.runOut x).tmrS.ie = s.tmrS.ie := by
  unfold State.runOut
  rw [State.take_ieS]
  refine s.countPulses_eq (fun u => u.tmrS.ie) x (fun u => ?_) _
  cases x
  · rfl
  · exact Timer.pulse_ie _
theorem State.fairRest_ieS (s : State) : s.fairRest.tmrS.ie = s.tmrS.ie := by
  simp only [State.fairRest]; split
  · split <;> simp [State.runOut_ieS, State.take_ieS]
  · simp [State.take_ieS]
theorem State.doze_ieS (s : State) (gs : List Gap) : (s.doze gs).tmrS.ie = s.tmrS.ie := by
  induction gs generalizing s with
  | nil => simp only [State.doze]; rw [State.fairRest_ieS]
  | cons g gs ih => simp only [State.doze]; split <;> simp [ih, State.play_ieS]
theorem State.between_ieS (s : State) : s.between.tmrS.ie = s.tmrS.ie := by
  simp only [State.between]; split
  · rw [State.doze_ieS]; unfold State.drift; split <;> rfl
  · unfold State.nextGap; split
    · unfold State.drift; split <;> rfl
    · rw [State.play_ieS]; unfold State.drift; split <;> rfl

/-- What the pieces of a sleep leave as it was. -/
structure SleepKeep (s t : State) : Prop where
  cfg    : t.cfg = s.cfg
  cmds   : t.cmds = s.cmds
  cmd    : t.cmd = s.cmd
  res    : t.res = s.res
  busy   : t.busy = s.busy
  cmderr : t.cmderr = s.cmderr
  dly    : t.dly = s.dly
  temps  : t.temps = s.temps
  io     : t.io = s.io
  edges  : t.edges = s.edges
  chain  : s.driven = true → t.chain = s.chain

theorem SleepKeep.trans {s t u : State} (h : SleepKeep s t)
    (k : SleepKeep t u) : SleepKeep s u where
  cfg := k.cfg.trans h.cfg
  cmds := k.cmds.trans h.cmds
  cmd := k.cmd.trans h.cmd
  res := k.res.trans h.res
  busy := k.busy.trans h.busy
  cmderr := k.cmderr.trans h.cmderr
  dly := k.dly.trans h.dly
  temps := k.temps.trans h.temps
  io := k.io.trans h.io
  edges := k.edges.trans h.edges
  chain := fun d => (k.chain ((State.driven_congr h.cfg h.io).trans d)).trans (h.chain d)

theorem State.gapAt_sleepKeep (s : State) (op : Instr) (todo : List Micro) : SleepKeep s
    (s.gapAt op todo) := by
  have f := s.gapAt_frame op todo
  exact ⟨f.cfg, f.cmds, f.cmd, f.res, f.busy, f.cmderr, f.dly, f.temps, f.io, f.edges, f.chain⟩

/-- A micro-step and its gap, asleep or awake. -/
theorem resume_cons (op : Instr) (m : Micro) (ms : List Micro) (s : State) :
    resume op (m :: ms) s = if (s.gapAt op (m :: ms)).sleeping then .next (s.gapAt op (m :: ms))
      else andThen (micro m (s.gapAt op (m :: ms))) (resume op ms) := rfl

/-- The micro-steps `ms` run to their end in a state with `P`, or the main context is left asleep
in one of them (R213). -/
def RunsOr (op : Instr) (rest ms : List Micro) (s : State) (P : State → Prop) : Prop :=
  (∃ t, Runs op rest ms s t ∧ P t) ∨ ∃ t, resume op (ms ++ rest) s = .next t ∧ t.sleeping = true

/-- One list after another. -/
theorem RunsOr.append {op : Instr} {rest a b : List Micro} {s : State} {P Q : State → Prop}
    (h : RunsOr op (b ++ rest) a s P) (k : ∀ t,
        P t → RunsOr op rest b t Q) : RunsOr op rest (a ++ b) s Q := by
  rcases h with ⟨t, hr, hp⟩ | ⟨t, hr, hs⟩
  · rcases k t hp with ⟨u, kr, kq⟩ | ⟨u, kr, ks⟩
    · exact .inl ⟨u, hr.append kr, kq⟩
    · exact .inr ⟨u, by rw [List.append_assoc, hr]; exact kr, ks⟩
  · exact .inr ⟨t, by rw [List.append_assoc]; exact hr, hs⟩

/-- What one iteration of `SLPMS` leaves (R138). -/
structure IterDone (s t : State) : Prop extends SleepKeep s t where
  mscnt : t.mscnt = s.mscnt - 1#16
  gie : t.gie = true
  ie : t.tmrS.ie = true
  awake : t.sleeping = false

/-- One iteration of `SLPMS`, whatever the gaps bring. -/
theorem iter_runs (op : Instr) (rest : List Micro) {s : State} (ha : s.sleeping = false) :
    RunsOr op rest sleepIteration s (IterDone s) := by
  -- S1
  obtain ⟨g1, hg1⟩ : ∃ g, g = s.gapAt op (.armTimer :: ([.maskInterrupts, .armSleep, .enterSleep,
      .countMilli] ++ rest)) := ⟨_, rfl⟩
  have a1 : g1.sleeping = false := hg1 ▸ State.gapAt_awake op _ ha
  have k1 : SleepKeep s g1 := hg1 ▸ s.gapAt_sleepKeep op _
  have m1 : g1.mscnt = s.mscnt := hg1 ▸ (s.gapAt_frame op _).mscnt
  obtain ⟨s1, hs1⟩ : ∃ u, u = g1.armTimer := ⟨_, rfl⟩
  have k1' : SleepKeep s s1 := hs1 ▸ { k1 with }
  have r1 : resume op (sleepIteration ++ rest) s = resume op ([.maskInterrupts, .armSleep,
      .enterSleep, .countMilli] ++ rest) s1 := by
    refine (resume_awake op _ _ ha).trans ?_; rw [hs1, hg1]; rfl
  have b1 : s1.sleeping = false := by rw [hs1]; exact a1
  have mm1 : s1.mscnt = s.mscnt := by rw [hs1]; exact m1
  have ie1 : s1.tmrS.ie = true := by rw [hs1]; rfl
  -- S2
  obtain ⟨g2, hg2⟩ : ∃ g, g = s1.gapAt op (.maskInterrupts :: ([.armSleep, .enterSleep,
      .countMilli] ++ rest)) := ⟨_, rfl⟩
  have a2 : g2.sleeping = false := hg2 ▸ State.gapAt_awake op _ b1
  have k2 : SleepKeep s1 g2 := hg2 ▸ s1.gapAt_sleepKeep op _
  have m2 : g2.mscnt = s.mscnt := (hg2 ▸ (s1.gapAt_frame op _).mscnt : g2.mscnt = s1.mscnt).trans mm1
  have ie2 : g2.tmrS.ie = true := by rw [hg2]; unfold State.gapAt; rw [State.between_ieS]; exact ie1
  obtain ⟨s2, hs2⟩ : ∃ u, u = { g2 with gie := false } := ⟨_, rfl⟩
  have k2' : SleepKeep s s2 := hs2 ▸ k1'.trans { k2 with }
  have r2 : resume op ([.maskInterrupts, .armSleep, .enterSleep,
      .countMilli] ++ rest) s1 = resume op ([.armSleep, .enterSleep, .countMilli] ++ rest) s2 := by
    refine (resume_awake op _ _ b1).trans ?_; rw [hs2, hg2]; rfl
  have b2 : s2.sleeping = false := by rw [hs2]; exact a2
  have mm2 : s2.mscnt = s.mscnt := by rw [hs2]; exact m2
  have iee2 : s2.tmrS.ie = true := by rw [hs2]; exact ie2
  -- S3
  obtain ⟨g3, hg3⟩ : ∃ g, g = s2.gapAt op (.armSleep :: ([.enterSleep, .countMilli] ++ rest)) :=
      ⟨_, rfl⟩
  have a3 : g3.sleeping = false := hg3 ▸ State.gapAt_awake op _ b2
  have k3 : SleepKeep s2 g3 := hg3 ▸ s2.gapAt_sleepKeep op _
  have m3 : g3.mscnt = s.mscnt := (hg3 ▸ (s2.gapAt_frame op _).mscnt : g3.mscnt = s2.mscnt).trans mm2
  have ie3 : g3.tmrS.ie = true := by rw [hg3]; unfold State.gapAt; rw [State.between_ieS]; exact iee2
  obtain ⟨s3, hs3⟩ : ∃ u, u = { g3 with se := true } := ⟨_, rfl⟩
  have k3' : SleepKeep s s3 := hs3 ▸ k2'.trans { k3 with }
  have r3 : resume op ([.armSleep, .enterSleep,
      .countMilli] ++ rest) s2 = resume op ([.enterSleep, .countMilli] ++ rest) s3 := by
    refine (resume_awake op _ _ b2).trans ?_; rw [hs3, hg3]; rfl
  have b3 : s3.sleeping = false := by rw [hs3]; exact a3
  have mm3 : s3.mscnt = s.mscnt := by rw [hs3]; exact m3
  have iee3 : s3.tmrS.ie = true := by rw [hs3]; exact ie3
  -- S4
  obtain ⟨g4, hg4⟩ : ∃ g, g = s3.gapAt op (.enterSleep :: ([.countMilli] ++ rest)) := ⟨_, rfl⟩
  have k4 : SleepKeep s3 g4 := hg4 ▸ s3.gapAt_sleepKeep op _
  have m4 : g4.mscnt = s.mscnt := (hg4 ▸ (s3.gapAt_frame op _).mscnt : g4.mscnt = s3.mscnt).trans mm3
  have ie4 : g4.tmrS.ie = true := by rw [hg4]; unfold State.gapAt; rw [State.between_ieS]; exact iee3
  obtain ⟨s4, hs4⟩ : ∃ u, u = g4.enterSleep := ⟨_, rfl⟩
  have k4' : SleepKeep s s4 := hs4 ▸ k3'.trans { k4 with }
  have r4 : resume op ([.enterSleep, .countMilli] ++ rest) s3 = resume op
      ([.countMilli] ++ rest) s4 := by
    refine (resume_awake op _ _ b3).trans ?_; rw [hs4, hg4]; rfl
  have mm4 : s4.mscnt = s.mscnt := by rw [hs4]; exact m4
  have iee4 : s4.tmrS.ie = true := by rw [hs4]; exact ie4
  have gg4 : s4.gie = true := by rw [hs4]; rfl
  -- S5
  obtain ⟨g5, hg5⟩ : ∃ g, g = s4.gapAt op (.countMilli :: rest) := ⟨_, rfl⟩
  have k5 : SleepKeep s4 g5 := hg5 ▸ s4.gapAt_sleepKeep op _
  have m5 : g5.mscnt = s.mscnt := (hg5 ▸ (s4.gapAt_frame op _).mscnt : g5.mscnt = s4.mscnt).trans mm4
  have ie5 : g5.tmrS.ie = true := by rw [hg5]; unfold State.gapAt; rw [State.between_ieS]; exact iee4
  have gg5 : g5.gie = true := by rw [hg5]; unfold State.gapAt; rw [State.between_gie]; exact gg4
  have k5' := k4'.trans k5
  have rr := resume_cons op .countMilli rest s4
  rw [← hg5] at rr
  cases h5 : g5.sleeping with
  | true =>
    refine .inr ⟨g5, ?_, h5⟩
    rw [r1, r2, r3, r4]
    exact rr.trans (if_pos h5)
  | false =>
    refine .inl ⟨{ g5 with mscnt := g5.mscnt - 1#16 }, ?_, ?_⟩
    · unfold Runs
      rw [r1, r2, r3, r4]
      refine rr.trans ((if_neg (by simp [h5])).trans ?_); rfl
    · exact { toSleepKeep := { k5' with }
              mscnt := by show g5.mscnt - 1#16 = _; rw [m5]
              gie := gg5, ie := ie5, awake := h5 }

theorem SleepKeep.refl (s : State) : SleepKeep s s := by constructor <;> simp

/-- What `n` iterations leave. -/
structure ItersDone (n : Nat) (s t : State) : Prop extends SleepKeep s t where
  mscnt : t.mscnt = s.mscnt - BitVec.ofNat 16 n
  gie : t.gie = if n = 0 then s.gie else true
  ie : n ≠ 0 ∨ s.tmrS.ie = true → t.tmrS.ie = true
  awake : t.sleeping = false

/-- `n` iterations of `SLPMS`, whatever the gaps bring. -/
theorem iters_runs (op : Instr) (rest : List Micro) (n : Nat) {s : State}
    (ha : s.sleeping = false) :
    RunsOr op rest (sleepIterations n) s (ItersDone n s) := by
  induction n generalizing s with
  | zero => exact .inl ⟨s, Runs.nil op rest s, ⟨SleepKeep.refl s, by simp, by simp, by simp, ha⟩⟩
  | succ n ih =>
    refine RunsOr.append (iter_runs op _ ha) fun t ht => ?_
    rcases ih (s := t) ht.awake with ⟨u, kr, kd⟩ | h
    · refine .inl ⟨u, kr, ⟨ht.toSleepKeep.trans kd.toSleepKeep, ?_, ?_, ?_, kd.awake⟩⟩
      · rw [kd.mscnt, ht.mscnt, show BitVec.ofNat 16 (n + 1) = 1#16 + BitVec.ofNat 16 n from by
          rw [Nat.add_comm, BitVec.ofNat_add]]
        exact BitVec.sub_sub _ _ _
      · rw [kd.gie]; by_cases h : n = 0 <;> simp [h, ht.gie]
      · exact fun _ => kd.ie (.inr ht.ie)
    · exact .inr h

/-- What `SLPMS` leaves when it ends (R138). -/
structure SlpDone (ms : Millis) (s t : State) : Prop extends SleepKeep s t where
  mscnt : t.mscnt = 0#16
  se : t.se = false
  gie : t.gie = if ms = 0#16 then s.gie else true
  ie : ms ≠ 0#16 → t.tmrS.ie = true
  awake : t.sleeping = false

theorem RunsOr.ofRuns {op : Instr} {rest ms : List Micro} {s t : State} {P : State → Prop}
    (h : Runs op rest ms s t) (hp : P t) :
    RunsOr op rest ms s P := .inl ⟨t, h, hp⟩

/-- `SLPMS` after its load. -/
theorem slp_tail (op : Instr) (rest : List Micro) (ms : Millis) {s s1 : State} (k : SleepKeep s s1)
    (hg : s1.gie = s.gie) (hm : s1.mscnt = ms) (ha : s1.sleeping = false) :
    RunsOr op rest (sleepIterations ms.toNat ++ [.disarmSleep]) s1 (SlpDone ms s) := by
  refine RunsOr.append (iters_runs op _ ms.toNat ha) fun t ht => ?_
  have f := t.gapAt_frame op (.disarmSleep :: rest)
  have kk := (k.trans ht.toSleepKeep).trans (t.gapAt_sleepKeep op (.disarmSleep :: rest))
  have z : ms.toNat = 0 ↔ ms = 0#16 := by
    constructor
    · intro h; exact BitVec.eq_of_toNat_eq (by simpa using h)
    · rintro rfl; rfl
  refine RunsOr.ofRuns (t := { t.gapAt op (.disarmSleep :: rest) with se :=
      false }) (Runs.one ht.awake rfl)
    ⟨{ kk with }, ?_, rfl, ?_, ?_, State.gapAt_awake op _ ht.awake⟩
  · show Block.mscnt _ = _
    rw [f.mscnt]; show t.mscnt = _
    rw [ht.mscnt, hm]; simp
  · show (t.gapAt _ _).gie = _
    unfold State.gapAt; rw [State.between_gie]; show t.gie = _
    rw [ht.gie, hg]; simp only [z]
  · intro h
    show (t.gapAt _ _).tmrS.ie = _
    unfold State.gapAt; rw [State.between_ieS]
    exact ht.ie (.inl fun c => h (z.1 c))

/-- `SLPMS` inside an operation. -/
theorem slp_runs (op : Instr) (rest : List Micro) (ms : Millis) {s : State}
    (ha : s.sleeping = false) :
    RunsOr op rest (slpmsProg ms) s (SlpDone ms s) := by
  obtain ⟨todo, htd⟩ : ∃ l, l = Micro.loadMillis ms ::
      (sleepIterations ms.toNat ++ [.disarmSleep] ++ rest) := ⟨_, rfl⟩
  obtain ⟨g, hg⟩ : ∃ g, g = s.gapAt op todo := ⟨_, rfl⟩
  have k : SleepKeep s g := hg ▸ s.gapAt_sleepKeep op todo
  have a : g.sleeping = false := hg ▸ State.gapAt_awake op _ ha
  have gg : g.gie = s.gie := by rw [hg]; unfold State.gapAt; rw [State.between_gie]
  have hr : Runs op (sleepIterations ms.toNat ++ [.disarmSleep] ++ rest) [.loadMillis ms] s { g with mscnt := ms } :=
    Runs.one ha (by rw [hg, htd]; rfl)
  have := slp_tail op rest ms (s := s) (s1 := { g with mscnt := ms })
    { k with } gg rfl a
  unfold slpmsProg
  rcases this with ⟨t, tr, td⟩ | ⟨t, tr, ts⟩
  · exact .inl ⟨t, Runs.append (a := [.loadMillis ms]) hr tr, td⟩
  · exact .inr ⟨t, Eq.trans hr tr, ts⟩


/-! ### Counting to the overflow -/


/-- Counting without a wrap (R171). -/
theorem pulse_count (t : Timer) (k : Nat) (hr : t.run = true) (h : t.cnt.toNat + k ≤ 255) :
    Timer.pulse^[k] t = { t with cnt := t.cnt + BitVec.ofNat 8 k } := by
  induction k with
  | zero => simp
  | succ k ih =>
    rw [Function.iterate_succ_apply', ih (by omega)]
    unfold Timer.pulse
    have hv : (t.cnt + BitVec.ofNat 8 k).toNat = t.cnt.toNat + k := by
      rw [BitVec.toNat_add, BitVec.toNat_ofNat]; omega
    have hne : ¬ (t.cnt + BitVec.ofNat 8 k = 0xFF#8) := fun e => by
      have := congrArg BitVec.toNat e; rw [hv] at this; simp at this; omega
    simp only [hr, if_true, hne, if_false]
    rw [BitVec.add_assoc, ← BitVec.ofNat_add]

/-- The pulse that wraps (R172). -/
theorem pulse_over (t : Timer) (hr : t.run = true) :
    Timer.pulse^[256 - t.cnt.toNat] t = { t with cnt := 0#8, ovf := true } := by
  have hlt := t.cnt.isLt
  obtain ⟨k, hk⟩ : ∃ k, 256 - t.cnt.toNat = k + 1 := ⟨255 - t.cnt.toNat, by omega⟩
  rw [hk, Function.iterate_succ_apply', pulse_count t k hr (by omega)]
  have : t.cnt + BitVec.ofNat 8 k = 0xFF#8 := by
    apply BitVec.eq_of_toNat_eq; rw [BitVec.toNat_add, BitVec.toNat_ofNat]; simp; omega
  unfold Timer.pulse
  simp [hr, this]

/-- A running, enabled sleep timer wakes a main context with `GIE = 1` (R181, R183). -/
theorem runOut_wake (u : State) (hg : u.gie = true) (r : u.tmrS.run = true) (ie : u.tmrS.ie = true) :
    u.runOut .wakeOvf = { u with tmrS := ⟨0#8, false, true, false⟩, sleeping := false } := by
  have h1 : u.countPulses .wakeOvf (256 - (u.timer
      .wakeOvf).cnt.toNat) = { u with tmrS := { u.tmrS with cnt := 0#8, ovf := true } } := by
    have key : ∀ n (v : State), v.countPulses .wakeOvf n = { v with tmrS := Timer.pulse^[n] v.tmrS } := by
      intro n; induction n with
      | zero => intro v; rfl
      | succ n ih => intro v; rw [State.countPulses, ih, Function.iterate_succ_apply]; rfl
    rw [key]; show State.mk .. = _
    rw [show (u.timer .wakeOvf) = u.tmrS from rfl, pulse_over u.tmrS r]
  unfold State.runOut
  rw [h1, State.takeInterrupt_eq_of_takeable _ (by simp [State.takeable, hg, State.timer, ie])]
  simp [State.leaveHandler, State.handlerBody, State.wakeHandler, State.enterHandler,
      State.setTimer, State.timer, State.wakes, ie, hg]

/-- The rest of a sleep whose timer has just been armed: it ends (log 8). -/
theorem fairRest_sleep (u : State) (hs : u.sleeping = true) (hg : u.gie = true)
    (r : Byte) (ht : u.tmrS = Timer.arm r) :
    u.fairRest.sleeping = false ∧ u.fairRest.ext = u.ext ∧
    (u.tickPending = false → u.fairRest = { u with tmrS := ⟨0#8, false, true, false⟩, sleeping := false }) := by
  obtain ⟨v, hv⟩ : ∃ v, v = u.takeInterrupt .tickOvf := ⟨_, rfl⟩
  have vS : v.tmrS = Timer.arm r := by rw [hv, State.takeInterrupt]; split <;> exact ht
  have vg : v.gie = true := by rw [hv]; simp [hg]
  have vx : v.ext = u.ext := by rw [hv]; simp
  have w : v.takeInterrupt .wakeOvf = v := v.takeInterrupt_eq_self (by simp [State.takeable,
      State.timer, vS, Timer.arm])
  have hro := runOut_wake v vg (by rw [vS]; rfl) (by rw [vS]; rfl)
  have e : u.fairRest = if v.sleeping then { v with tmrS := ⟨0#8, false, true, false⟩, sleeping :=
      false } else v := by
    simp only [State.fairRest]; rw [← hv, w, hro]; simp
  rw [e]
  refine ⟨?_, ?_, fun hp => ?_⟩
  · split <;> simp_all
  · split <;> simp [vx]
  · have : v = u := by
      rw [hv]; apply State.takeInterrupt_eq_self
      simp only [State.takeable, State.timer, hg]; simpa [State.tickPending] using hp
    rw [this, if_pos hs]

/-- What one iteration of `SLPMS` leaves with no event in store. -/
structure QuietIter (s t : State) : Prop where
  awake : t.sleeping = false
  env : t.env = []
  ext : t.ext = s.ext
  gie : t.gie = true
  cfg : t.cfg = s.cfg
  tmr : s.tickPending = false → t.tick = s.tick ∧ t.sec = s.sec ∧ t.tmrT = s.tmrT ∧ t.tmrS = ⟨0#8, false, true, false⟩

/-- With no event in store an iteration of `SLPMS` ends. -/
theorem iter_quiet (op : Instr) (rest : List Micro) {s : State} (ha : s.sleeping = false) (he : s.env = []) :
    ∃ t, Runs op rest sleepIteration s t ∧ QuietIter s t := by
  have awk : ∀ (u : State) (m : Micro) (ms : List Micro), u.sleeping = false → u.env = [] → ∃ g,
      resume op (m :: ms) u = andThen (micro m g) (resume op ms) ∧ QuietFrame u g ∧
          g.sleeping = false ∧ g.cfg = u.cfg ∧ g.se = u.se := by
    intro u m ms h1 h2
    exact ⟨u.gapAt op (m :: ms), resume_awake op m ms h1, State.gapAt_quiet op _ h1 h2,
        State.gapAt_awake op _ h1, (u.gapAt_frame op _).cfg, (u.gapAt_frame op _).se⟩
  obtain ⟨g1, e1, q1, a1, c1, -⟩ := awk s .armTimer ([.maskInterrupts, .armSleep, .enterSleep,
      .countMilli] ++ rest) ha he
  obtain ⟨g2, e2, q2, a2, c2, -⟩ := awk g1.armTimer .maskInterrupts ([.armSleep, .enterSleep,
      .countMilli] ++ rest) a1 q1.env
  obtain ⟨g3, e3, q3, a3, c3, -⟩ := awk { g2 with gie := false } .armSleep ([.enterSleep,
      .countMilli] ++ rest) a2 q2.env
  obtain ⟨g4, e4, q4, a4, c4, se4⟩ := awk { g3 with se :=
      true } .enterSleep ([.countMilli] ++ rest) a3 q3.env
  have E : resume op (sleepIteration ++ rest) s = resume op ([.countMilli] ++ rest) g4.enterSleep
      := by
    refine e1.trans ?_
    refine Eq.trans (show _ = resume op ([.maskInterrupts, .armSleep, .enterSleep,
        .countMilli] ++ rest) g1.armTimer from rfl) ?_
    refine e2.trans ?_
    refine Eq.trans (show _ = resume op ([.armSleep, .enterSleep,
        .countMilli] ++ rest) { g2 with gie := false } from rfl) ?_
    refine e3.trans ?_
    refine Eq.trans (show _ = resume op ([.enterSleep, .countMilli] ++ rest) { g3 with se :=
        true } from rfl) ?_
    exact e4
  obtain ⟨s4, hs4⟩ : ∃ u, u = g4.enterSleep := ⟨_, rfl⟩
  have sl4 : s4.sleeping = true := by rw [hs4]; exact se4
  have gi4 : s4.gie = true := by rw [hs4]; rfl
  have en4 : s4.env = [] := by rw [hs4]; exact q4.env
  have tS4 : s4.tmrS = Timer.arm g1.cfg.reloadS :=
      by rw [hs4]; show g4.tmrS = _; rw [q4.tmrS]; show g3.tmrS = _; rw [q3.tmrS];
          show g2.tmrS = _; rw [q2.tmrS]; rfl
  have tT4 : s4.tmrT = s.tmrT := by rw [hs4]; show g4.tmrT = _; rw [q4.tmrT]; show g3.tmrT = _; rw [q3.tmrT]; show g2.tmrT = _; rw [q2.tmrT]; exact q1.tmrT
  have tk4 : s4.tick = s.tick := by rw [hs4]; show g4.tick = _; rw [q4.tick]; show g3.tick = _; rw [q3.tick]; show g2.tick = _; rw [q2.tick]; exact q1.tick
  have sc4 : s4.sec = s.sec := by rw [hs4]; show g4.sec = _; rw [q4.sec]; show g3.sec = _; rw [q3.sec]; show g2.sec = _; rw [q2.sec]; exact q1.sec
  have ex4 : s4.ext = s.ext := by rw [hs4]; show g4.ext = _; rw [q4.ext]; show g3.ext = _; rw [q3.ext]; show g2.ext = _; rw [q2.ext]; exact q1.ext
  have cf4 : s4.cfg = s.cfg := by rw [hs4]; show g4.cfg = _; rw [c4]; show g3.cfg = _; rw [c3]; show g2.cfg = _; rw [c2]; exact c1
  obtain ⟨p, hp⟩ : ∃ p : State, p = State.drift { s4 with upc := some ⟨op,
      .countMilli :: rest⟩ } := ⟨_, rfl⟩
  have G : s4.gapAt op (.countMilli :: rest) = { p with env := [] }.fairRest := by
    unfold State.gapAt State.between
    simp only [← hp]
    rw [if_pos (by rw [hp]; simpa using sl4), show p.env = [] from by rw [hp]; simpa using en4]; rfl
  have F := fairRest_sleep { p with env :=
      [] } (by rw [hp]; simpa using sl4) (by rw [hp]; simpa using gi4) g1.cfg.reloadS
          (by rw [hp]; simpa using tS4)
  rw [← G] at F
  have rr := resume_cons op .countMilli rest s4
  rw [if_neg (by simp [F.1])] at rr
  obtain ⟨g5, hg5⟩ : ∃ g, g = s4.gapAt op (.countMilli :: rest) := ⟨_, rfl⟩
  rw [← hg5] at rr F G
  refine ⟨{ g5 with mscnt := g5.mscnt - 1#16 }, ?_, F.1, ?_, ?_, ?_, ?_, fun hpd => ?_⟩
  · unfold Runs; rw [E, ← hs4]; exact rr
  · show g5.env = []; rw [G]; simp
  · show g5.ext = _; rw [F.2.1, hp]; simpa using ex4
  · show g5.gie = _; rw [hg5]; unfold State.gapAt; simpa using gi4
  · show g5.cfg = _; rw [hg5]; exact ((s4.gapAt_frame op _).cfg).trans cf4
  · have := F.2.2 (by rw [hp]; simpa [State.tickPending, tT4] using hpd)
    show g5.tick = _ ∧ g5.sec = _ ∧ g5.tmrT = _ ∧ g5.tmrS = _
    rw [this, hp]; simp [tk4, sc4, tT4]

/-- With no event in store `n` iterations of `SLPMS` end. -/
theorem iters_quiet (op : Instr) (rest : List Micro) (n : Nat) {s : State}
    (ha : s.sleeping = false) (he : s.env = []) :
    ∃ t, Runs op rest (sleepIterations n) s t ∧ t.sleeping = false ∧ t.env = [] ∧ t.ext = s.ext ∧
        t.gie = (if n = 0 then s.gie else true) ∧
     (s.tickPending = false → t.tick = s.tick ∧ t.sec = s.sec ∧ t.tmrT = s.tmrT ∧
         t.tmrS = if n = 0 then s.tmrS else ⟨0#8, false, true, false⟩) := by
  induction n generalizing s with
  | zero => exact ⟨s, Runs.nil op rest s, ha, he, rfl, rfl, fun _ => ⟨rfl, rfl, rfl, rfl⟩⟩
  | succ n ih =>
    obtain ⟨t, r, q⟩ := iter_quiet op (sleepIterations n ++ rest) ha he
    obtain ⟨u, r2, a, b, c, d, e⟩ := ih q.awake q.env
    refine ⟨u, Runs.append r r2, a, b, c.trans q.ext, ?_, fun h => ?_⟩
    · rw [d]; by_cases h : n = 0 <;> simp [h, q.gie]
    · obtain ⟨k1, k2, k3, k4⟩ := q.tmr h
      obtain ⟨j1, j2, j3, j4⟩ := e (by simpa [State.tickPending, k3] using h)
      refine ⟨j1.trans k1, j2.trans k2, j3.trans k3, ?_⟩
      rw [j4, k4]; by_cases h : n = 0 <;> simp [h]
end Sys2Proof.Machine
end

