-- ==== Sys2Proof/Laws/DisplayPieces.lean ====
section
/-! SUPPORT. What the pieces of `DINIT` and one digit of `IND` do, whatever the gaps bring. -/

namespace Sys2Proof.Machine

/-- No rising edge: the chain's registers stay and no edge is seen (R110, R111). -/
theorem Chain.sense_noRise (ch : Chain) (c l d : Bool) (hc : c = true → ch.clkPrev = true)
    (hl : l = true → ch.latPrev = true) :
    (ch.sense c l d).sr = ch.sr ∧ (ch.sense c l d).qout = ch.qout ∧ ch.seen c l d = [] := by
  obtain ⟨sr, q, cp, lp⟩ := ch
  cases cp <;> cases lp <;> cases c <;> cases l <;> simp_all [Chain.sense, Chain.seen]

/-! ### `DINIT` -/

/-- What `PDIR(pin, 1) ;; PWR(pin, 0)` leaves (R125). -/
structure InitDone (pin : Pin) (s t : State) : Prop extends KeepFrame s t where
  dly : t.dly = s.dly
  wf : Memory.wf t.io = true
  synced : t.synced = true
  isOut : ∀ q, t.isOutput q = (decide (q = pin) || s.isOutput q)
  bit : ∀ q : Pin, getBit (t.out q.port.toNat) q.bit = if q = pin then false else getBit
      (s.out q.port.toNat) q.bit
  others : ∀ a, a ≠ dirAddr pin → a ≠ outAddr pin → Memory.get t.io a = Memory.get s.io a
  chain : s.synced = true → s.driven = true → t.driven = true ∧ t.chain.sr = s.chain.sr ∧
      t.chain.qout = s.chain.qout ∧ t.edges = s.edges

/-- The two writes make one initialized pin. -/
theorem initPin_core {pin : Pin} {s t1 t2 : State} (hw : Memory.wf s.io = true)
    (w1 : WriteDone (dirAddr pin) (putBit (s.dir pin.port.toNat) pin.bit
        (Direction.output = .output)) s t1)
    (h2 : PwrDone pin false t1 t2) : InitDone pin s t2 := by
  have iso : ∀ q, t1.isOutput q = (decide (q = pin) || s.isOutput q) := fun q => by
    have := s.isOutput_put_dir (pin := pin) (decide (Direction.output = .output)) q hw
    rw [← w1.io] at this
    rw [show t1.isOutput q = State.isOutput { s with io := t1.io } q from rfl, this]
    by_cases h : q = pin <;> simp [h]
  have out1 : ∀ p, t1.out p = s.out p := fun p => by
    have := s.out_put_dir (pin := pin) (putBit (s.dir pin.port.toNat) pin.bit
        (Direction.output = .output)) p
    rw [← w1.io] at this; exact this
  exact
  { toKeepFrame := w1.toKeepFrame.trans h2.toKeepFrame
    dly := h2.dly.trans w1.dly
    wf := h2.wf
    synced := h2.synced
    isOut := fun q => by rw [h2.isOut, iso]
    bit := fun q => by rw [h2.bit, out1]
    others := fun a h1 h3 => by rw [h2.others a h3, w1.io, Memory.get_put_other _ _ h1]
    chain := fun hs hd => by
      have hd1 : t1.driven = true := by
        obtain ⟨a, b, c⟩ := s.driven_iff.1 hd
        rw [t1.driven_iff, w1.cfg, iso, iso, iso]; simp [a, b, c]
      obtain ⟨l1, l2, l3⟩ := State.driven_level hd1
      obtain ⟨p1, p2⟩ := State.synced_prev hs hd
      obtain ⟨c1, e1⟩ := w1.sees hd hd1
      rw [w1.cfg, out1] at l1 l2
      have n1 := s.chain.sense_noRise (t1.level s.cfg.clkPin) (t1.level s.cfg.latPin)
          (t1.level s.cfg.datPin)
        (by rw [l1, ← p1]; exact id) (by rw [l2, ← p2]; exact id)
      obtain ⟨c2, e2⟩ := h2.chain_eq w1.synced hd1
      have n2 := t1.chain.sense_noRise (if t1.cfg.clkPin = pin then false else t1.chain.clkPrev)
        (if t1.cfg.latPin = pin then false else t1.chain.latPrev)
        (if t1.cfg.datPin = pin then false else getBit
            (t1.out t1.cfg.datPin.port.toNat) t1.cfg.datPin.bit)
        (by split <;> simp) (by split <;> simp)
      rw [c2, e2, n2.1, n2.2.1, n2.2.2, e1, n1.2.2, c1, n1.1, n1.2.1]
      exact ⟨h2.driven.trans hd1, rfl, rfl, rfl⟩ }

/-- One pin of `DINIT` inside an operation. -/
theorem initPin_runs (op : Instr) (rest : List Micro) (pin : Pin) {s : State}
    (ha : s.sleeping = false) (hw : Memory.wf s.io = true) (hp : s.cfg.hasPin pin = true) :
    ∃ t, Runs op rest (initPinProg pin) s t ∧ InitDone pin s t := by
  obtain ⟨t1, r1, w1⟩ := pdir_runs op (pwrProg pin (.lit false) ++ rest) pin .output ha hp
  obtain ⟨t2, r2, w2⟩ := pwr_runs op rest pin (.lit false) w1.awake (by rw [w1.cfg]; exact hp)
  have hw1 : Memory.wf t1.io = true := by rw [w1.io]; exact Memory.put_wf _ _ hw
  exact ⟨t2, Runs.append r1 r2, initPin_core hw w1 (w2.pwr hw1)⟩

/-- One pin of `DINIT` at the start of an operation. -/
theorem initPin_starts (op : Instr) (rest : List Micro) (pin : Pin) {s : State}
    (ha : s.sleeping = false) (hw : Memory.wf s.io = true) (hp : s.cfg.hasPin pin = true) :
    ∃ t, Starts op rest (initPinProg pin) s t ∧ InitDone pin s t := by
  obtain ⟨t1, r1, w1⟩ := pdir_starts op (pwrProg pin (.lit false) ++ rest) pin .output ha hp
  obtain ⟨t2, r2, w2⟩ := pwr_runs op rest pin (.lit false) w1.awake (by rw [w1.cfg]; exact hp)
  have hw1 : Memory.wf t1.io = true := by rw [w1.io]; exact Memory.put_wf _ _ hw
  exact ⟨t2, Starts.append r1 r2, initPin_core hw w1 (w2.pwr hw1)⟩


/-! ### One digit of `IND` -/

/-- What every piece of `IND` leaves as it was. -/
structure IndFrame (s t : State) : Prop where
  cfg    : t.cfg = s.cfg
  cmds   : t.cmds = s.cmds
  cmd    : t.cmd = s.cmd
  res    : t.res = s.res
  busy   : t.busy = s.busy
  cmderr : t.cmderr = s.cmderr
  wf     : Memory.wf t.io = true
  keptO  : s.keptOut t [s.cfg.clkPin, s.cfg.latPin, s.cfg.datPin]
  keptI  : s.keptIo t ([s.cfg.clkPin, s.cfg.latPin, s.cfg.datPin].map outAddr)
  isOut  : ∀ q, t.isOutput q = s.isOutput q
  synced : s.synced = true → t.synced = true
  awake  : t.sleeping = false

theorem IndFrame.trans {s t u : State} (h : IndFrame s t) (k : IndFrame t u) : IndFrame s u where
  cfg := k.cfg.trans h.cfg
  cmds := k.cmds.trans h.cmds
  cmd := k.cmd.trans h.cmd
  res := k.res.trans h.res
  busy := k.busy.trans h.busy
  cmderr := k.cmderr.trans h.cmderr
  wf := k.wf
  keptO := fun q hq => (k.keptO q (by rw [h.cfg]; exact hq)).trans (h.keptO q hq)
  keptI := fun a ha => (k.keptI a (by rw [h.cfg]; exact ha)).trans (h.keptI a ha)
  isOut := fun q => (k.isOut q).trans (h.isOut q)
  synced := fun d => k.synced (h.synced d)
  awake := k.awake
theorem IndFrame.driven {s t : State} (h : IndFrame s t) : t.driven = s.driven := by
  unfold State.driven; simp only [h.cfg, h.isOut]

theorem LineFrame.ind {W : List Pin} {s t : State} (h : LineFrame W s t) (hW : W ⊆ [s.cfg.clkPin,
    s.cfg.latPin, s.cfg.datPin]) :
    IndFrame s t :=
  have h := h.mono hW
  ⟨h.cfg, h.cmds, h.cmd, h.res, h.busy, h.cmderr, h.wf, h.keptO, h.keptI, h.isOut, h.synced,
      h.awake⟩
theorem SleepKeep.ind {s t : State} (h : SleepKeep s t) (hw : Memory.wf s.io = true)
    (ha : t.sleeping = false) : IndFrame s t :=
  ⟨h.cfg, h.cmds, h.cmd, h.res, h.busy, h.cmderr, by rw [h.io]; exact hw,
   fun q _ => by unfold State.out; rw [h.io], fun a _ => by rw [h.io],
       fun q => State.isOutput_congr h.io q,
   fun hs => by
    have hdr : t.driven = s.driven := State.driven_congr h.cfg h.io
    cases hd : s.driven with
    | false => unfold State.synced; rw [hdr, hd]; rfl
    | true =>
      obtain ⟨a, b, -⟩ := s.driven_iff.1 hd
      unfold State.synced at *
      rw [hdr, h.cfg, h.chain hd, State.level_congr_output h.io a, State.level_congr_output h.io b]
      exact hs, ha⟩

/-- Shifting latches nothing. -/
theorem latches_bits (b : Byte) (n : Nat) (es : List Edge) : latchesOf
    (bitEdges b n ++ es) = latchesOf es := by
  induction n generalizing es with
  | zero => rfl
  | succ n ih => simp only [bitEdges, List.append_assoc]; rw [ih]; rfl

/-- Shifting `n` bits makes `n` clock edges. -/
theorem clocked_bits (b : Byte) (n : Nat) (es : List Edge) : (clockedOf
    (bitEdges b n ++ es)).length = n + (clockedOf es).length := by
  induction n generalizing es with
  | zero => simp [bitEdges]
  | succ n ih => simp only [bitEdges, List.append_assoc]; rw [ih]; simp [clockedOf]; omega

/-- The low byte of a two-byte word. -/
theorem ext_low (x y : Byte) : BitVec.extractLsb' 0 8 (x ++ y) = y := by
  apply BitVec.eq_of_getLsbD_eq; intro i hi; rw [BitVec.getLsbD_extractLsb',
      BitVec.getLsbD_append]; simp [hi]

/-- What one digit of `IND` leaves when it ends (R128). -/
structure DigitDone (s t : State) : Prop extends IndFrame s t where
  dly : t.dly = 0#8
  mscnt : t.mscnt = 0#16
  se : t.se = false
  gie : t.gie = if s.cfg.dwellMs = 0#16 then s.gie else true
  symbuf : t.temps.symbuf = s.temps.symbuf
  digIdx : t.temps.digIdx = s.temps.digIdx - 1
  mask : t.temps.mask = s.temps.mask <<< 1
  clkHigh : getBit (t.out s.cfg.clkPin.port.toNat) s.cfg.clkPin.bit = true
  latHigh : getBit (t.out s.cfg.latPin.port.toNat) s.cfg.latPin.bit = true
  datBit : getBit (t.out s.cfg.datPin.port.toNat) s.cfg.datPin.bit = s.temps.mask.getLsbD 0
  chain : s.synced = true → s.driven = true →
    t.chain = ⟨frameOf s.cfg (s.temps.symbuf.get s.temps.digIdx) s.temps.mask,
      frameOf s.cfg (s.temps.symbuf.get s.temps.digIdx) s.temps.mask, true, true⟩ ∧
    latchesOf t.edges = frameOf s.cfg (s.temps.symbuf.get s.temps.digIdx) s.temps.mask :: latchesOf s.edges ∧
    (clockedOf t.edges).length = 16 + (clockedOf s.edges).length

/-- One digit of `IND`, whatever the gaps bring: it ends or is left asleep in its dwell. -/
theorem digit_runs (op : Instr) (rest : List Micro) {s : State}
    (ha : s.sleeping = false) (hok : s.cfg.ok = true) (hw : Memory.wf s.io = true) :
    RunsOr op rest (digitProg s.cfg) s (DigitDone s) := by
  obtain ⟨n1, n2, n3⟩ := Config.ok_distinct hok
  let R4 : List Micro := [.nextDigit] ++ rest
  let R3 : List Micro := slpmsProg s.cfg.dwellMs ++ R4
  let R2 : List Micro := latProg s.cfg ++ R3
  let R1 : List Micro := shbProg s.cfg .mask ++ R2
  let R0 : List Micro := shbProg s.cfg .shreg ++ R1
  -- load segment
  obtain ⟨g, hg⟩ : ∃ g, g = s.gapAt op (.loadSegment :: R0) := ⟨_, rfl⟩
  have kg : GapKeep s g := hg ▸ State.gapAt_keep op _ ha
  obtain ⟨s1, hs1⟩ : ∃ u, u = g.loadSegment := ⟨_, rfl⟩
  have r1 : Runs op R0 [.loadSegment] s s1 := Runs.one ha (by rw [hs1, hg]; rfl)
  have d1 : DelayDone s g := ⟨kg.toKeepFrame, kg.temps, kg.io, kg.edges, kg.chain, kg.draws⟩
  have l1 : LineFrame [] s g := d1.line hw
  have l1' : LineFrame [] s s1 := by
    rw [hs1]
    exact { l1 with
      quiet := fun e => ⟨(l1.quiet e).env, (l1.quiet e).ext, (l1.quiet e).tick, (l1.quiet e).sec,
        (l1.quiet e).tmrT, (l1.quiet e).tmrS, (l1.quiet e).gie⟩ }
  have i1 := l1'.ind (by simp)
  have t1s : s1.temps.shreg = segmentByte s.cfg (s.temps.symbuf.get s.temps.digIdx) := by
    rw [hs1]; show segmentByte g.cfg (g.temps.symbuf.get g.temps.digIdx) = _; rw [kg.cfg, kg.temps]
  have t1m : s1.temps.mask = s.temps.mask := by rw [hs1, ← kg.temps]; rfl
  have t1b : s1.temps.symbuf = s.temps.symbuf := by rw [hs1, ← kg.temps]; rfl
  have t1d : s1.temps.digIdx = s.temps.digIdx := by rw [hs1, ← kg.temps]; rfl
  have c1 : s.driven = true → s1.chain = s.chain := fun h => by rw [hs1]; exact kg.chain h
  have e1 : s1.edges = s.edges := by rw [hs1]; exact kg.edges
  -- shb shreg
  obtain ⟨s2, r2, h2⟩ := shb_runs op R1 .shreg i1.awake (by rw [i1.cfg]; exact hok) i1.wf
  rw [i1.cfg] at r2
  have i2 : IndFrame s s2 := i1.trans (h2.toLineFrame.ind (by intro x; simp; tauto))
  -- shb mask
  obtain ⟨s3, r3, h3⟩ := shb_runs op R2 .mask i2.awake (by rw [i2.cfg]; exact hok) i2.wf
  rw [i2.cfg] at r3
  have i3 : IndFrame s s3 := i2.trans (h3.toLineFrame.ind (by intro x; simp; tauto))
  -- lat
  obtain ⟨s4, r4, h4⟩ := pulse_runs op R3 s.cfg.latPin s.cfg i3.awake
      (by rw [i3.cfg]; exact hok) i3.wf (by rw [i3.cfg]; exact Config.ok_hasLat hok)
  have i4 : IndFrame s s4 := i3.trans (h4.toLineFrame.ind (by rw [i3.cfg]; simp))
  have r04 : Runs op R3 ([.loadSegment] ++ shbProg s.cfg .shreg ++ shbProg s.cfg
      .mask ++ latProg s.cfg) s s4 :=
    Runs.append (t := s3) (Runs.append (t := s2) (Runs.append (t := s1) r1 r2) r3) r4
  have ck4 : getBit (s4.out s.cfg.clkPin.port.toNat) s.cfg.clkPin.bit = true := by
    rw [h4.keptO s.cfg.clkPin (by simpa using n1)]; have :=
        h3.clkHigh; rw [i2.cfg] at this; exact this
  have db4 : getBit (s4.out s.cfg.datPin.port.toNat) s.cfg.datPin.bit = s.temps.mask.getLsbD 0 := by
    rw [h4.keptO s.cfg.datPin (by simpa using Ne.symm n3)]; have :=
        h3.datBit; rw [i2.cfg] at this; rw [this]
    show s2.temps.mask.getLsbD 0 = _; rw [h2.mask, t1m]
  have hmask : (ByteSrc.mask).value s2.temps = s.temps.mask :=
      by show s2.temps.mask = _; rw [h2.mask, t1m]
  have hseg : (ByteSrc.shreg).value s1.temps = segmentByte s.cfg
      (s.temps.symbuf.get s.temps.digIdx) := t1s
  have ch4 : s.synced = true → s.driven = true →
    s4.chain = ⟨frameOf s.cfg (s.temps.symbuf.get s.temps.digIdx) s.temps.mask,
      frameOf s.cfg (s.temps.symbuf.get s.temps.digIdx) s.temps.mask, true, true⟩ ∧
    latchesOf s4.edges = frameOf s.cfg (s.temps.symbuf.get s.temps.digIdx) s.temps.mask :: latchesOf s.edges ∧
    (clockedOf s4.edges).length = 16 + (clockedOf s.edges).length := by
    intro hs hd
    obtain ⟨c2, e2⟩ := h2.chain (i1.synced hs) (i1.driven.trans hd)
    obtain ⟨c3, e3⟩ := h3.chain (i2.synced hs) (i2.driven.trans hd)
    obtain ⟨c4, e4⟩ := h4.chain (i3.synced hs) (i3.driven.trans hd) (.inr (by rw [i3.cfg]))
    rw [i3.cfg] at c4 e4
    rw [hseg] at c2 e2; rw [hmask] at c3 e3
    have fr : s3.chain.sr = frameOf s.cfg (s.temps.symbuf.get s.temps.digIdx) s.temps.mask := by
      rw [c3, c2]
      simp only [ext_low]
      rfl
    have ckp : s3.chain.clkPrev = true := by rw [c3]
    rw [c4, e4, e3, e2, e1]
    simp only [afterPulse, pulseEdge, if_neg (Ne.symm n1), fr, ckp]
    refine ⟨trivial, ?_, ?_⟩
    · simp only [latchesOf, latches_bits]
    · simp only [clockedOf, clocked_bits]; omega
  have t4b : s4.temps.symbuf = s.temps.symbuf := by rw [h4.symbuf, h3.symbuf, h2.symbuf, t1b]
  have t4d : s4.temps.digIdx = s.temps.digIdx := by rw [h4.digIdx, h3.digIdx, h2.digIdx, t1d]
  have t4m : s4.temps.mask = s.temps.mask := by rw [h4.mask, h3.mask, h2.mask, t1m]
  have hlist : digitProg s.cfg = ([.loadSegment] ++ shbProg s.cfg .shreg ++ shbProg s.cfg
      .mask ++ latProg s.cfg) ++ (slpmsProg s.cfg.dwellMs ++ [.nextDigit]) := by
    simp [digitProg]
  rw [hlist]
  have r04' : Runs op (slpmsProg s.cfg.dwellMs ++ [.nextDigit] ++ rest)
      ([.loadSegment] ++ shbProg s.cfg .shreg ++ shbProg s.cfg .mask ++ latProg s.cfg) s s4 := by
    simpa [R3, R4, List.append_assoc] using r04
  refine RunsOr.append (P := fun u => u = s4) (RunsOr.ofRuns r04' rfl) ?_
  rintro u rfl
  refine RunsOr.append (slp_runs op _ s.cfg.dwellMs i4.awake) fun s5 h5 => ?_
  have i5 : IndFrame s s5 := i4.trans (h5.toSleepKeep.ind i4.wf h5.awake)
  obtain ⟨g6, hg6⟩ : ∃ g, g = s5.gapAt op (.nextDigit :: rest) := ⟨_, rfl⟩
  have k6 : GapKeep s5 g6 := hg6 ▸ State.gapAt_keep op _ i5.awake
  have d6 : DelayDone s5 g6 := ⟨k6.toKeepFrame, k6.temps, k6.io, k6.edges, k6.chain, k6.draws⟩
  have i6 : IndFrame s g6 := i5.trans ((d6.line (W := []) i5.wf).ind (by simp))
  refine RunsOr.ofRuns (t := g6.nextDigit) (Runs.one i5.awake (by rw [hg6]; rfl)) ?_
  have ot : ∀ p, g6.out p = u.out p := fun p => by unfold State.out; rw [k6.io, h5.io]
  exact
    { toIndFrame := ⟨i6.cfg, i6.cmds, i6.cmd, i6.res, i6.busy, i6.cmderr, i6.wf, i6.keptO,
        i6.keptI, i6.isOut, i6.synced, i6.awake⟩
      dly := by show g6.dly = _; rw [k6.dly, h5.dly]; exact h4.dly
      mscnt := by show g6.mscnt = _; rw [k6.mscnt]; exact h5.mscnt
      se := by show g6.se = _; rw [k6.se]; exact h5.se
      gie := by
        show g6.gie = _
        rw [k6.gie, h5.gie, h4.gie, h3.gie, h2.gie, l1'.gie]
      symbuf := by show g6.temps.symbuf = _; rw [k6.temps, h5.temps, t4b]
      digIdx := by show g6.temps.digIdx - 1 = _; rw [k6.temps, h5.temps, t4d]
      mask := by show g6.temps.mask <<< 1 = _; rw [k6.temps, h5.temps, t4m]
      clkHigh := by show getBit (g6.out _) _ = _; rw [ot]; exact ck4
      latHigh := by show getBit (g6.out _) _ = _; rw [ot]; exact h4.high
      datBit := by show getBit (g6.out _) _ = _; rw [ot]; exact db4
      chain := fun hs hd => by
        show g6.chain = _ ∧ latchesOf g6.edges = _ ∧ (clockedOf g6.edges).length = _
        rw [k6.chain (i5.driven.trans hd), k6.edges, h5.chain (i4.driven.trans hd), h5.edges]
        exact ch4 hs hd }

theorem IndFrame.refl {s : State} (hw : Memory.wf s.io = true)
    (ha : s.sleeping = false) : IndFrame s s :=
  ⟨rfl, rfl, rfl, rfl, rfl, rfl, hw, fun _ _ => rfl, fun _ _ => rfl, fun _ => rfl, id, ha⟩
end Sys2Proof.Machine
end

