-- ==== Sys2Proof/Laws/Fields.lean ====
section
/-! SUPPORT. The laws of the five fields of a command word (R80): reading a field of a word put
together from fields, and matching such a word against a row of R87 field by field. -/

namespace Sys2Proof

variable (op a b c d : Byte)

@[simp] theorem opField_cmdWord : opField (cmdWord op a b c d) = op := by
  unfold opField cmdWord
  apply BitVec.eq_of_getLsbD_eq; intro i hi
  simp only [BitVec.getLsbD_append, BitVec.getLsbD_extractLsb']
  interval_cases i <;> simp

@[simp] theorem aField_cmdWord : aField (cmdWord op a b c d) = a := by
  unfold aField cmdWord
  apply BitVec.eq_of_getLsbD_eq; intro i hi
  simp only [BitVec.getLsbD_append, BitVec.getLsbD_extractLsb']
  interval_cases i <;> simp

@[simp] theorem bField_cmdWord : bField (cmdWord op a b c d) = b := by
  unfold bField cmdWord
  apply BitVec.eq_of_getLsbD_eq; intro i hi
  simp only [BitVec.getLsbD_append, BitVec.getLsbD_extractLsb']
  interval_cases i <;> simp

@[simp] theorem cField_cmdWord : cField (cmdWord op a b c d) = c := by
  unfold cField cmdWord
  apply BitVec.eq_of_getLsbD_eq; intro i hi
  simp only [BitVec.getLsbD_append, BitVec.getLsbD_extractLsb']
  interval_cases i <;> simp

@[simp] theorem dField_cmdWord : dField (cmdWord op a b c d) = d := by
  unfold dField cmdWord
  apply BitVec.eq_of_getLsbD_eq; intro i hi
  simp only [BitVec.getLsbD_append, BitVec.getLsbD_extractLsb']
  interval_cases i <;> simp

/-- A word is put together from its fields (R80). -/
theorem cmdWord_fields (w : CmdWord) :
    cmdWord (opField w) (aField w) (bField w) (cField w) (dField w) = w := by
  unfold cmdWord opField aField bField cField dField
  apply BitVec.eq_of_getLsbD_eq; intro i hi
  simp only [BitVec.getLsbD_append, BitVec.getLsbD_extractLsb']
  interval_cases i <;> simp

/-- Masking goes field by field. -/
theorem cmdWord_and (m : CmdWord) :
    cmdWord op a b c d &&& m =
      cmdWord (op &&& opField m) (a &&& aField m) (b &&& bField m) (c &&& cField m)
        (d &&& dField m) := by
  unfold cmdWord opField aField bField cField dField
  apply BitVec.eq_of_getLsbD_eq; intro i hi
  simp only [BitVec.getLsbD_and, BitVec.getLsbD_append, BitVec.getLsbD_extractLsb']
  interval_cases i <;> simp

/-- Whether a word matches a row, field by field (R87). -/
theorem rowMatches_cmdWord (r : Row) :
    rowMatches (cmdWord op a b c d) r =
      (decide (op &&& opField r.mask = opField r.pattern) &&
        decide (a &&& aField r.mask = aField r.pattern) &&
        decide (b &&& bField r.mask = bField r.pattern) &&
        decide (c &&& cField r.mask = cField r.pattern) &&
        decide (d &&& dField r.mask = dField r.pattern)) := by
  rw [Bool.eq_iff_iff]
  unfold rowMatches
  rw [beq_iff_eq, cmdWord_and]
  simp only [Bool.and_eq_true, decide_eq_true_eq]
  constructor
  · intro h
    rw [← h]; simp
  · rintro ⟨⟨⟨⟨h1, h2⟩, h3⟩, h4⟩, h5⟩
    rw [h1, h2, h3, h4, h5, cmdWord_fields]

end Sys2Proof
end

