-- ==== Sys2Proof/Laws/Params.lean ====
section
/-! SUPPORT. The step relation and its parameters (R42): what a step is, and what a gap and a
micro-step leave of the parameters. -/

namespace Sys2Proof.Machine

variable (s : State)

/-- A state is its two parts. -/
@[simp] theorem State.mk_parts : (⟨s.toInputs, s.toBlock⟩ : State) = s := rfl

/-- The step relation under parameters, as a step of the state that pairs them (R42). -/
theorem stepUnder_eq_step (p : Inputs) (b : Block) : stepUnder p b = step ⟨p, b⟩ := rfl

/-- A step, in terms of the state that pairs the parameters with the block (R22, R31, R201). -/
theorem step_eq : step s = if s.cfg.ok then
    match s.upc with
    | some u => resume u.op u.todo s
    | none =>
      match s.between.offered with
      | some w => runWord w (s.between.accept w)
      | none => .next s.linger
  else .refused .illFormedConfig := rfl

/-- A step of a command in progress (R22). -/
theorem step_in_progress {u : Upc} (hok : s.cfg.ok = true) (hu : s.upc = some u) :
    step s = resume u.op u.todo s := by
  rw [step_eq, if_pos hok, hu]

/-- A step of an idle main context (R20, R201). -/
theorem step_idle (hok : s.cfg.ok = true) (hu : s.upc = none) :
    step s = match s.between.offered with
      | some w => runWord w (s.between.accept w)
      | none => .next s.linger := by
  rw [step_eq, if_pos hok, hu]

/-! ### What is taken of the moves to come -/

/-- No move in store drives the environment's levels. -/
def State.levelsQuiet (s : State) : Prop :=
  ∀ g ∈ s.env, ∀ port levels, Event.ext port levels ∉ g

/-- What a gap, or a step, takes of the environment's moves: some of the first of them; and `EXT`
changes by them only (R27, R42). -/
structure MovesFrame (s t : State) : Prop where
  env : t.env <:+ s.env
  ext : s.levelsQuiet → t.ext = s.ext

theorem MovesFrame.of_eq {s t : State} (he : t.env = s.env) (hx : t.ext = s.ext) :
    MovesFrame s t := ⟨by rw [he], fun _ => hx⟩

theorem MovesFrame.trans {s t u : State} (h : MovesFrame s t) (k : MovesFrame t u) :
    MovesFrame s u where
  env := k.env.trans h.env
  ext := fun q => (k.ext fun g hg => q g (h.env.subset hg)).trans (h.ext q)

/-- Events change `EXT` only where one of them drives it. -/
theorem State.play_ext (g : Gap) (h : ∀ port levels, Event.ext port levels ∉ g) :
    (s.play g).ext = s.ext := by
  induction g generalizing s with
  | nil => rfl
  | cons e g ih =>
    rw [s.play_cons, ih _ fun p v hm => h p v (List.mem_cons_of_mem e hm)]
    cases e with
    | pulseT => exact s.countPulse_ext _
    | pulseS => exact s.countPulse_ext _
    | take x => exact s.takeInterrupt_ext x
    | ext p v => exact absurd List.mem_cons_self (h p v)

@[simp] theorem State.runOut_ext (x : Source) : (s.runOut x).ext = s.ext := by
  simp [State.runOut]
@[simp] theorem State.fairRest_ext : s.fairRest.ext = s.ext := by
  simp only [State.fairRest]; split
  · split <;> simp
  · simp
theorem State.fairIdle_moves : MovesFrame s s.fairIdle :=
  .of_eq (by simp [State.fairIdle]) (by simp [State.fairIdle])

/-- Playing the first gap of those in store. -/
theorem State.playNext_moves {g : Gap} {gs : List Gap} (h : s.env = g :: gs) :
    MovesFrame s (({ s with env := gs } : State).play g) where
  env := by rw [State.play_env, h]; exact List.suffix_cons g gs
  ext := fun q => State.play_ext _ g (q g (h ▸ List.mem_cons_self))

theorem State.doze_moves (gs : List Gap) (h : s.env = gs) : MovesFrame s (s.doze gs) := by
  induction gs generalizing s with
  | nil => exact .of_eq (by simp [State.doze, h]) (by simp [State.doze])
  | cons g gs ih =>
    have p := s.playNext_moves h
    simp only [State.doze]
    split
    · exact p.trans (ih _ (by simp))
    · exact p

theorem State.nextGap_moves : MovesFrame s s.nextGap := by
  unfold State.nextGap
  split
  · exact .of_eq rfl rfl
  · next h => exact s.playNext_moves h

/-- A gap takes moves off the front of those in store, and `EXT` changes by them only. -/
theorem State.between_moves : MovesFrame s s.between := by
  have d : MovesFrame s s.drift := .of_eq (by simp) (by simp)
  simp only [State.between]
  split
  · exact d.trans (State.doze_moves _ _ rfl)
  · exact d.trans (State.nextGap_moves _)

/-- A micro-step touches no parameter. -/
theorem micro_params {m : Micro} {s t : State} (h : micro m s = .next t) :
    t.toInputs = s.toInputs := by
  cases m <;> simp only [micro, State.readToTmp, State.samplePin, State.memWrite] at h <;>
    (repeat' split at h) <;> first
    | (cases h; rfl)
    | (cases h; unfold State.chainStep State.floatChain; dsimp only; split <;> rfl)
    | cases h

/-- The end of a command touches no parameter. -/
theorem State.finish_params (op : Instr) : (s.finish op).toInputs = s.toInputs := by
  unfold State.finish; (repeat' split) <;> rfl

end Sys2Proof.Machine
end

