-- ==== Sys2Proof/Laws/PerInstr.lean ====
section
/-! SUPPORT. A property of every command as syntax, one lemma per constructor: its word matches
exactly the row of R87 that bears its mnemonic. -/

namespace Sys2Proof.Laws.Encoded

/-- The mnemonic of a command (R86). -/
def mnemonic : Instr → String
  | .pdir _ _ => "PDIR"
  | .prd _ => "PRD"
  | .pwr _ _ => "PWR"
  | .dinit => "DINIT"
  | .shb _ => "SHB"
  | .lat => "LAT"
  | .ind _ _ _ _ => "IND"
  | .bdly _ => "BDLY"
  | .slpms _ => "SLPMS"
  | .tstart => "TSTART"
  | .secrd => "SECRD"
  | .secclr => "SECCLR"
  | .ien => "IEN"
  | .idis => "IDIS"
  | .sym _ => "SYM"

/-- The rows that match the command's word are the one of its mnemonic (R87). -/
def Statement (i : Instr) : Prop :=
  (opcodeRows.filter (rowMatches (encode i))).map Row.mnemonic = [mnemonic i]

/-- The rows' fields are literals: matching a command's word is closed arithmetic. -/
theorem matching (op a b c d : Byte) :
    (opcodeRows.filter (rowMatches (cmdWord op a b c d))).map Row.mnemonic =
      (opcodeRows.filter fun r =>
        decide (op &&& opField r.mask = opField r.pattern) &&
        decide (a &&& aField r.mask = aField r.pattern) &&
        decide (b &&& bField r.mask = bField r.pattern) &&
        decide (c &&& cField r.mask = cField r.pattern) &&
        decide (d &&& dField r.mask = dField r.pattern)).map Row.mnemonic := by
  congr 1
  exact List.filter_congr fun r _ => rowMatches_cmdWord op a b c d r

theorem pdir (pin : Pin) (dir : Direction) : Statement (.pdir pin dir) := by
  unfold Statement encode; rw [matching]
  cases dir <;>
  simp [opcodeRows, gpioRows, displayRows, timingRows, serviceRows, opField, aField, bField,
    cField, dField, mnemonic, byteOfVal, valOfDir]

theorem prd (pin : Pin) : Statement (.prd pin) := by
  unfold Statement encode; rw [matching]
  simp [opcodeRows, gpioRows, displayRows, timingRows, serviceRows, opField, aField, bField,
    cField, dField, mnemonic]

theorem pwr (pin : Pin) (lvl : Bool) : Statement (.pwr pin lvl) := by
  unfold Statement encode; rw [matching]
  cases lvl <;>
  simp [opcodeRows, gpioRows, displayRows, timingRows, serviceRows, opField, aField, bField,
    cField, dField, mnemonic, byteOfVal]

theorem dinit : Statement .dinit := by
  unfold Statement encode; rw [matching]
  simp [opcodeRows, gpioRows, displayRows, timingRows, serviceRows, opField, aField, bField,
    cField, dField, mnemonic]

theorem shb (byte : Byte) : Statement (.shb byte) := by
  unfold Statement encode; rw [matching]
  simp [opcodeRows, gpioRows, displayRows, timingRows, serviceRows, opField, aField, bField,
    cField, dField, mnemonic]

theorem lat : Statement .lat := by
  unfold Statement encode; rw [matching]
  simp [opcodeRows, gpioRows, displayRows, timingRows, serviceRows, opField, aField, bField,
    cField, dField, mnemonic]

theorem ind (s0 s1 s2 s3 : Byte) : Statement (.ind s0 s1 s2 s3) := by
  unfold Statement encode; rw [matching]
  simp [opcodeRows, gpioRows, displayRows, timingRows, serviceRows, opField, aField, bField,
    cField, dField, mnemonic]

theorem bdly (units : Byte) : Statement (.bdly units) := by
  unfold Statement encode; rw [matching]
  simp [opcodeRows, gpioRows, displayRows, timingRows, serviceRows, opField, aField, bField,
    cField, dField, mnemonic]

theorem slpms (ms : Millis) : Statement (.slpms ms) := by
  unfold Statement encode; rw [matching]
  simp [opcodeRows, gpioRows, displayRows, timingRows, serviceRows, opField, aField, bField,
    cField, dField, mnemonic]

theorem tstart : Statement .tstart := by
  unfold Statement encode; rw [matching]
  simp [opcodeRows, gpioRows, displayRows, timingRows, serviceRows, opField, aField, bField,
    cField, dField, mnemonic]

theorem secrd : Statement .secrd := by
  unfold Statement encode; rw [matching]
  simp [opcodeRows, gpioRows, displayRows, timingRows, serviceRows, opField, aField, bField,
    cField, dField, mnemonic]

theorem secclr : Statement .secclr := by
  unfold Statement encode; rw [matching]
  simp [opcodeRows, gpioRows, displayRows, timingRows, serviceRows, opField, aField, bField,
    cField, dField, mnemonic]

theorem ien : Statement .ien := by
  unfold Statement encode; rw [matching]
  simp [opcodeRows, gpioRows, displayRows, timingRows, serviceRows, opField, aField, bField,
    cField, dField, mnemonic]

theorem idis : Statement .idis := by
  unfold Statement encode; rw [matching]
  simp [opcodeRows, gpioRows, displayRows, timingRows, serviceRows, opField, aField, bField,
    cField, dField, mnemonic]

theorem sym (digit : Byte) : Statement (.sym digit) := by
  unfold Statement encode; rw [matching]
  simp [opcodeRows, gpioRows, displayRows, timingRows, serviceRows, opField, aField, bField,
    cField, dField, mnemonic]

end Sys2Proof.Laws.Encoded
end

