-- ==== Sys2Proof/Tests/Slice0.lean ====
section
/-! SUPPORT. Tests of the model. Expected values are those of spec/95_test_vectors.md or worked out
by hand from the rules named; and, for each statement with hypotheses, a witness that meets them. -/

namespace Sys2Proof.Tests

open Sys2Proof.Machine

/-! ### Small states -/

/-- After boot (95_test_vectors.md): display pins outputs and low, with a known `SR`. -/
def booted : State := { State.reset with io := [(0, 0x07#8)], chain := ⟨0x1234#16, 0#16, false,
    false⟩ }

/-- The same with the clock and latch lines high. -/
def raised : State :=
  { booted with io := [(0, 0x07#8), (2, 0x03#8)], chain := ⟨0x1234#16, 0#16, true, true⟩ }

/-- The same on a common-anode display. -/
def anode : State := { booted with cfg := { Config.reference with isCommAnode := true } }

/-- Port 0 all outputs, at the given levels. -/
def portZero (levels : Byte) : State :=
  { State.reset with io := [(0, 0xFF#8), (2, levels)], chain := ⟨0#16, 0#16, levels.getLsbD 0,
      levels.getLsbD 1⟩ }

/-- A tick overflow is pending and enabled, and nothing masks it. -/
def tickDue : State :=
  { booted with gie := true, tmrT := ⟨0#8, true, true, true⟩, tick := 249#8, sec := 60#8 }

/-- Both overflows are pending and enabled. -/
def bothDue : State := { tickDue with tmrS := ⟨0#8, true, true, true⟩ }

/-- A command of two micro-steps stands at its second. -/
def halfway : State :=
  { booted with
    cmd := 0x0301010000#40, busy := true
    upc := some ⟨.pwr ⟨0#5, 1#3⟩ true, [.writeOut ⟨0#5, 1#3⟩ (.lit true)]⟩ }

/-- What a next state shows; nothing after a stop. -/
def see {α : Type} (f : State → α) : Outcome → Option α
  | .next s => some (f s)
  | .fault _ => none
  | .refused _ => none

/-- `DIR[p]`, `OUT[p]` after an outcome. -/
def ports (p : Nat) (o : Outcome) : Option (Byte × Byte) := see (fun s => (s.dir p, s.out p)) o

/-- `SR`, `QOUT` after an outcome. -/
def chainOf (o : Outcome) : Option (ChainWord × ChainWord) :=
  see (fun s => (s.chain.sr, s.chain.qout)) o

/-! ### Decoding: the words of 95_test_vectors.md 2.1 -/

theorem test_decode_pdir : decode 0x010B010000#40 = .ok (.pdir ⟨1#5, 3#3⟩ .output) := by decide
theorem test_decode_pdir_in : decode 0x01FF000000#40 = .ok (.pdir ⟨31#5, 7#3⟩ .input) := by decide
theorem test_decode_prd : decode 0x0202000000#40 = .ok (.prd ⟨0#5, 2#3⟩) := by decide
theorem test_decode_pwr : decode 0x0301010000#40 = .ok (pset ⟨0#5, 1#3⟩) := by decide
theorem test_decode_pclr : decode 0x0301000000#40 = .ok (pclr ⟨0#5, 1#3⟩) := by decide
theorem test_decode_dinit : decode 0x1000000000#40 = .ok .dinit := by decide
theorem test_decode_shb : decode 0x11B2000000#40 = .ok (.shb 0xB2#8) := by decide
theorem test_decode_lat : decode 0x1200000000#40 = .ok .lat := by decide
theorem test_decode_ind :
    decode 0x133F065B4F#40 = .ok (.ind 0x3F#8 0x06#8 0x5B#8 0x4F#8) := by decide
theorem test_decode_bdly : decode 0x20FF000000#40 = .ok (.bdly 255#8) := by decide
theorem test_decode_slpms : decode 0x2103E80000#40 = .ok (.slpms 1000#16) := by decide
theorem test_decode_tstart : decode 0x3000000000#40 = .ok .tstart := by decide
theorem test_decode_secrd : decode 0x3100000000#40 = .ok .secrd := by decide
theorem test_decode_secclr : decode 0x3200000000#40 = .ok .secclr := by decide
theorem test_decode_ien : decode 0x3300000000#40 = .ok .ien := by decide
theorem test_decode_idis : decode 0x3400000000#40 = .ok .idis := by decide
theorem test_decode_sym : decode 0x4009000000#40 = .ok (.sym 9#8) := by decide

/-- The words R90 (a) refuses in that table. -/
theorem test_decode_refused :
    decode 0x0000000000#40 = .error (.noOpcode 0x00#8) ∧
    decode 0x0400000000#40 = .error (.noOpcode 0x04#8) ∧
    decode 0x1000000001#40 = .error (.reservedBits 0x10#8) ∧
    decode 0x0100020000#40 = .error (.reservedBits 0x01#8) ∧
    decode 0x0200010000#40 = .error (.reservedBits 0x02#8) ∧
    decode 0x2100010001#40 = .error (.reservedBits 0x21#8) ∧
    decode 0xFF00000000#40 = .error (.noOpcode 0xFF#8) := by decide

/-- The table's numbering is that of the word. -/
theorem test_table_word : decodeTableWord 40 0x11B2000000 = some (.shb 0xB2#8) := by decide

/-- Assembler text of the words above (R93). -/
theorem test_asm :
    asmText (.pdir ⟨1#5, 3#3⟩ .output) = "PDIR P1.3, OUT" ∧
    asmText (.slpms 1000#16) = "SLPMS 1000" := by decide

/-! ### Well-formedness: each check refuses its ill-formed term -/

/-- Port 4 names no port where `NPORTS = 4`; port 3 does. -/
theorem test_wf_pdir : WellFormed Config.reference (.pdir ⟨4#5, 0#3⟩ .output) = false ∧
    WellFormed Config.reference (.pdir ⟨3#5, 7#3⟩ .output) = true := by decide
theorem test_wf_prd : WellFormed Config.reference (.prd ⟨4#5, 0#3⟩) = false ∧
    WellFormed Config.reference (.prd ⟨3#5, 0#3⟩) = true := by decide
theorem test_wf_pwr : WellFormed Config.reference (.pwr ⟨31#5, 0#3⟩ true) = false ∧
    WellFormed Config.reference (.pwr ⟨3#5, 0#3⟩ true) = true := by decide
theorem test_wf_sym : WellFormed Config.reference (.sym 10#8) = false ∧
    WellFormed Config.reference (.sym 9#8) = true := by decide
theorem test_wf_nports : Config.ok { Config.reference with nports := 0 } = false ∧
    Config.ok { Config.reference with nports := 33 } = false ∧
    Config.ok { Config.reference with nports := 32 } = true := by decide
theorem test_wf_pins : Config.ok { Config.reference with clkPin := ⟨4#5, 0#3⟩ } = false ∧
    Config.ok { Config.reference with latPin := ⟨4#5, 0#3⟩ } = false ∧
    Config.ok { Config.reference with datPin := ⟨4#5, 0#3⟩ } = false := by decide
theorem test_wf_distinct : Config.ok { Config.reference with latPin := ⟨0#5, 0#3⟩ } = false ∧
    Config.ok { Config.reference with datPin := ⟨0#5, 0#3⟩ } = false ∧
    Config.ok { Config.reference with datPin := ⟨0#5, 1#3⟩ } = false := by decide
theorem test_wf_timer : Config.ok { Config.reference with prescS := 32 } = false := by decide
theorem test_wf_symtab :
    Config.ok { Config.reference with symtab := [] } = false ∧
    Config.ok { Config.reference with symtab := 0x06#8 :: Config.referenceSymtab.tail } = false ∧
    Config.ok { Config.reference with symtab :=
        0x3F#8 :: 0x86#8 :: List.replicate 8 0#8 } = false := by
  decide

/-! ### GPIO (95_test_vectors.md 2.2) -/

theorem test_pdir : ports 0 (exec (.pdir ⟨0#5, 0#3⟩ .output) State.reset) = some (0x01#8,
    0x00#8) := by
  decide +kernel
theorem test_pdir_in : ports 0 (exec (.pdir ⟨0#5, 7#3⟩ .input) (portZero 0#8)) = some (0x7F#8,
    0x00#8) := by
  decide +kernel
theorem test_pwr : ports 0 (exec (.pwr ⟨0#5, 1#3⟩ true) (portZero 0xA5#8)) = some (0xFF#8,
    0xA7#8) := by
  decide +kernel
theorem test_pwr_clear : ports 0 (exec (.pwr ⟨0#5, 0#3⟩ false) (portZero 0xA7#8)) = some (0xFF#8,
    0xA6#8) := by
  decide +kernel
/-- A released button reads 1, a pressed one 0. -/
theorem test_prd_input :
    see (·.res) (exec (.prd ⟨1#5, 3#3⟩) { booted with ext := [(1, 0x08#8)] }) = some 0x01#8 ∧
    see (·.res) (exec (.prd ⟨1#5, 3#3⟩) booted) = some 0x00#8 := by decide +kernel
/-- An output pin reads its own drive. -/
theorem test_prd_output :
    see (·.res) (exec (.prd ⟨0#5, 2#3⟩) { booted with ext := [(0, 0x04#8)] }) = some 0x00#8 := by
  decide +kernel
/-- After a refused word `CMDERR = 1`, `BUSY = 0`. -/
theorem test_refused :
    see (fun s => (s.cmderr, s.busy, s.cmd)) (step { booted with cmds := [0x400A000000#40] }) =
      some (true, false, 0x400A000000#40) ∧
    see (fun s => (s.cmderr, s.busy)) (step { booted with cmds := [0x1000000001#40] }) =
      some (true, false) := by decide +kernel

/-! ### The chain (95_test_vectors.md 2.3) -/

/-- Data high, then a rising clock edge, from `SR = 0`: steps 1 and 2 of the table. -/
theorem test_clock_by_hand :
    chainOf (andThen (exec (.pwr ⟨0#5, 2#3⟩ true) { booted with chain := ⟨0#16, 0#16, false,
        false⟩ })
      (exec (.pwr ⟨0#5, 0#3⟩ true))) = some (0x0001#16, 0x0000#16) := by decide +kernel
theorem test_shb : chainOf (exec (.shb 0xB2#8) booted) = some (0x34B2#16, 0x0000#16) := by
  decide +kernel
/-- Clock line left high, data line at bit 0. -/
theorem test_shb_lines : ports 0 (exec (.shb 0xB2#8) booted) = some (0x07#8, 0x01#8) := by
  decide +kernel
theorem test_lat : chainOf (exec .lat booted) = some (0x1234#16, 0x1234#16) := by decide +kernel
theorem test_dinit : see (fun s => (s.dir 0, s.out 0, s.chain.clkPrev, s.chain.latPrev))
    (exec .dinit State.reset) = some (0x07#8, 0x00#8, false, false) := by decide +kernel
/-- `DINIT` makes falling edges only. -/
theorem test_dinit_again : chainOf (exec .dinit raised) = some (0x1234#16, 0x0000#16) := by
  decide +kernel

/-! ### The multiplexer (95_test_vectors.md 2.4) -/

theorem test_ind_cathode :
    see (fun s => (latchesOf s.edges, s.out 0, s.gie, s.se, s.mscnt))
      (exec (.ind 0x3F#8 0x06#8 0x5B#8 0x4F#8) booted) =
    some ([0xC008#16, 0xF904#16, 0xA402#16, 0xB001#16], 0x03#8, true, false, 0#16) := by
  decide +kernel
theorem test_ind_anode :
    see (fun s => latchesOf s.edges) (exec (.ind 0x3F#8 0x06#8 0x5B#8 0x4F#8) anode) =
      some [0x3F08#16, 0x0604#16, 0x5B02#16, 0x4F01#16] := by decide +kernel

/-! ### Timing services (95_test_vectors.md 2.5) -/

theorem test_bdly : see (·.dly) (exec (.bdly 2#8) { booted with dly := 9#8 }) = some 0#8 := by
  decide +kernel
theorem test_slpms :
    see (fun s => (s.gie, s.se, s.sleeping, s.tmrS.run, s.tmrS.ie,
        s.tmrS.ovf)) (exec (.slpms 1#16) booted) =
      some (true, false, false, false, true, false) := by decide +kernel
theorem test_slpms_zero :
    see (fun s => (s.gie, s.se, s.mscnt)) (exec (.slpms 0#16) booted) = some (false, false,
        0#16) := by
  decide +kernel

/-! ### Tick service, timers, interrupts (95_test_vectors.md 2.6) -/

theorem test_tstart : see (fun s => s.tmrT) (exec .tstart booted) = some ⟨239#8, true, true,
    false⟩ := by
  decide
theorem test_secrd : see (·.res) (exec .secrd { booted with sec := 0x3C#8 }) = some 0x3C#8 := by
  decide
theorem test_secclr : see (fun s => (s.tick,
    s.sec)) (exec .secclr { booted with tick := 17#8, sec := 60#8 }) =
    some (17#8, 0#8) := by decide
theorem test_ien : see (·.gie) (exec .ien booted) = some true := by decide
theorem test_idis : see (·.gie) (exec .idis tickDue) = some false := by decide
/-- 16 pulses from 239 leave 255, the 17th wraps and sets the pending bit. -/
theorem test_timer : Timer.pulse^[16] (Timer.arm 239#8) = ⟨255#8, true, true, false⟩ ∧
    Timer.pulse^[17] (Timer.arm 239#8) = ⟨0#8, true, true, true⟩ := by decide
/-- `(249, 59)` and one handler run give `(0, 60)`; `(249, 255)` gives `(0, 0)`. -/
theorem test_handler :
    (fun s : State => (s.tick, s.sec)) (State.tickHandler { booted with tick := 249#8, sec :=
        59#8 }) =
      (0#8, 60#8) ∧
    (fun s : State => (s.tick, s.sec)) (State.tickHandler { booted with tick := 249#8, sec :=
        255#8 }) =
      (0#8, 0#8) := by decide
/-- The lost second: `SECRD`, handler, `SECCLR` (program P2, interleaving A). -/
theorem test_lost_second :
    see (fun s => (s.res, s.tick, s.sec))
      (andThen (step { tickDue with
        cmds := [0x3100000000#40, 0x3200000000#40], env := [[], [.take .tickOvf]] }) step) =
      some (60#8, 0#8, 0#8) := by decide +kernel

/-! ### Symbol ROM (95_test_vectors.md 2.7) -/

theorem test_sym : see (·.res) (exec (.sym 0#8) booted) = some 0x3F#8 ∧
    see (·.res) (exec (.sym 9#8) booted) = some 0x6F#8 := by decide

/-! ### Fetch: the word placed next runs first -/

theorem test_fetch :
    see (·.res) (step (State.reset.withFetchWord 40 0x4007000000)) = some 0x07#8 := by
  decide +kernel

/-! ### Witnesses: a state and operands that meet the hypotheses of each statement -/

/-- EncodeOfDecode. -/
theorem test_witness_encodeOfDecode : decode 0x2103E80000#40 = .ok (.slpms 1000#16) := by decide

/-- StepRunsDecodedCommand. -/
theorem test_witness_stepRuns :
    (fun s : State => s.cfg.ok = true ∧ s.upc = none ∧ s.busy = false ∧ s.sleeping = false ∧
      s.cmds.head? = some 0x1200000000#40 ∧ decode 0x1200000000#40 = .ok .lat)
      { booted with cmds := [0x1200000000#40] } := by decide

/-- StepRefusesUndecodedWord, once for each reason of R90 (a). -/
theorem test_witness_stepRefuses :
    (fun s : State => s.cfg.ok = true ∧ s.upc = none ∧ s.busy = false ∧ s.sleeping = false ∧
      s.cmds.head? = some 0xFF00000000#40 ∧ decode 0xFF00000000#40 = .error (.noOpcode 0xFF#8))
      { booted with cmds := [0xFF00000000#40] } ∧
    (fun s : State => s.cfg.ok = true ∧ s.upc = none ∧ s.busy = false ∧ s.sleeping = false ∧
      s.cmds.head? = some 0x1000000001#40 ∧
      decode 0x1000000001#40 = .error (.reservedBits 0x10#8))
      { booted with cmds := [0x1000000001#40] } := by decide

/-- ExecRefusesIllFormedCommand, once for each command that can be ill-formed. -/
theorem test_witness_illFormed :
    WellFormed booted.cfg (.pdir ⟨4#5, 0#3⟩ .input) = false ∧
    WellFormed booted.cfg (.prd ⟨4#5, 0#3⟩) = false ∧
    WellFormed booted.cfg (.pwr ⟨4#5, 0#3⟩ true) = false ∧
    WellFormed booted.cfg (.sym 10#8) = false := by decide

/-- StepRefusesIllFormedConfig: equal pins (R31), and no port at all (R9, log 20). -/
theorem test_witness_illFormedConfig :
    Config.ok { booted.cfg with latPin := booted.cfg.clkPin } = false ∧
    Config.ok { booted.cfg with nports := 0 } = false := by decide

/-- StepResumesCommandInProgress and MicroStepsMakeUpResume. -/
theorem test_witness_inProgress : halfway.cfg.ok = true ∧ halfway.upc =
    some ⟨.pwr ⟨0#5, 1#3⟩ true, [.writeOut ⟨0#5, 1#3⟩ (.lit true)]⟩ ∧
        halfway.inv = true := by decide

/-- MicroStepCounts, with the highest digit that is well-formed. -/
theorem test_witness_delaySteps : Config.reference.delaySteps = 2#8 ∧
    WellFormed Config.reference (.sym 9#8) = true := by decide

/-- PdirWritesDirectionBit, PrdReadsLineLevel, PwrWritesOutputBit, PwrClocksTheChain,
PwrLatchesTheChain, ShbShiftsItsByte, LatCopiesChainToOutputs, DinitDrivesLinesLow,
IndLatchesFourFrames, UndrivenChainIsFree: a ready state with driven lines, and pins of both
kinds, the highest one among them. -/
theorem test_witness_ready : booted.ready = true ∧ raised.ready = true ∧
    booted.driven = true ∧ raised.driven = true ∧
    booted.cfg.hasPin ⟨0#5, 0#3⟩ = true ∧ booted.cfg.hasPin ⟨3#5, 7#3⟩ = true ∧
    booted.isOutput ⟨0#5, 0#3⟩ = true ∧ booted.isOutput ⟨3#5, 7#3⟩ = false ∧
    booted.cfg.clkPin ∈ [booted.cfg.clkPin, booted.cfg.latPin, booted.cfg.datPin] ∧
    (⟨3#5, 7#3⟩ : Pin) ∉ [booted.cfg.clkPin, booted.cfg.latPin, booted.cfg.datPin] := by
  decide

/-- PdirWritesDirectionBit and DinitDrivesLinesLow with undriven lines: the reset state. -/
theorem test_witness_reset : State.reset.ready = true ∧ State.reset.driven = false ∧
    State.reset.cfg.hasPin ⟨0#5, 2#3⟩ = true := by decide

/-- Both clauses of PwrClocksTheChain and PwrLatchesTheChain: lines low and lines high. -/
theorem test_witness_levels : booted.level booted.cfg.clkPin = false ∧
    booted.level booted.cfg.latPin = false ∧ raised.level raised.cfg.clkPin = true ∧
    raised.level raised.cfg.latPin = true := by decide

/-- InputPinWriteMovesNoLine. -/
theorem test_witness_inputPin : booted.ready = true ∧ booted.cfg.hasPin ⟨1#5, 3#3⟩ = true ∧
    booted.isOutput ⟨1#5, 3#3⟩ = false := by decide

/-- InputRegisterReadsLevels, at the last port and past it. -/
theorem test_witness_lastPort : booted.cfg.hasPin ⟨3#5, 7#3⟩ = true ∧
    booted.cfg.hasPin ⟨4#5, 0#3⟩ = false := by decide

/-- MemWriteTakesEffect, at the first and the last register. -/
theorem test_witness_memWrite : Memory.wf booted.io = true ∧
    (0 < 3 * booted.cfg.nports ∧ 0 % 3 ≠ 1) ∧
    (11 < 3 * booted.cfg.nports ∧ 11 % 3 ≠ 1) := by decide

/-- NoRegisterThere, each clause at its first address: 12 is past the twelve registers, 1 and 10
are input registers. -/
theorem test_witness_noRegister : 3 * booted.cfg.nports ≤ 12 ∧
    (1 < 3 * booted.cfg.nports ∧ 1 % 3 = 1) ∧
    (10 < 3 * booted.cfg.nports ∧ 10 % 3 = 1) := by decide

/-- ClockEdgeShifts and LatchEdgeCopies: a rising line, a line already high, a low one. -/
theorem test_witness_edges : booted.chain.clkPrev = false ∧ booted.chain.latPrev = false ∧
    raised.chain.clkPrev = true ∧ raised.chain.latPrev = true := by decide

/-- IndLatchesFourFrames: a pass that is not left asleep. -/
theorem test_witness_indAwake :
    see (·.sleeping) (exec (.ind 0#8 0#8 0#8 0#8) booted) = some false := by decide +kernel

/-- IndCompletesInQuiet and SlpmsCompletesInQuiet: with and without a dwell. -/
theorem test_witness_quiet : booted.ready = true ∧ booted.env = [] ∧ booted.sleeping = false ∧
    booted.tickPending = false ∧ booted.cfg.dwellMs ≠ 0#16 ∧
    (fun s : State => s.ready = true ∧ s.env = [] ∧ s.cfg.dwellMs = 0#16)
      { booted with cfg := { Config.reference with dwellMs := 0#16 } } := by decide

/-- PolarityInverts. -/
theorem test_witness_polarity : booted.cfg.isCommAnode = false ∧ anode.cfg.isCommAnode = true := by
  decide

/-- BdlyCountsDown and SlpmsEndsWithCountDone; and a `SLPMS` that is not left asleep. -/
theorem test_witness_awake : booted.sleeping = false ∧
    see (·.sleeping) (exec (.slpms 1#16) booted) = some false := by decide +kernel

/-- NoWakeLostAfterMask: a pulse before `S1`, one after `S2`. -/
theorem test_witness_wake : (fun s : State => s.sleeping = false ∧
    s.env = [.pulseS] :: [] :: [[.pulseS]]) { booted with env := [[.pulseS], [], [.pulseS]] } := by
  decide

/-- EarlyOverflowHangs: `RELOAD_S = 239`, so 17 pulses; a pulse before them, and after them pulses and
both interrupts. -/
theorem test_witness_early : (fun s : State => s.cfg.ok = true ∧ s.sleeping = false ∧
    s.gie = true ∧ s.cfg.tickWakes = false ∧ (1#16 : Millis) ≠ 0#16 ∧
    s.env = [.pulseS] ::
      (List.replicate (256 - s.cfg.reloadS.toNat) .pulseS ++ [.take .wakeOvf]) ::
        [[.pulseS], [], [.take .tickOvf, .take .wakeOvf]])
    { booted with
      gie := true
      env := [[.pulseS], List.replicate 17 .pulseS ++ [.take .wakeOvf], [.pulseS], [],
        [.take .tickOvf, .take .wakeOvf]] } := by
  decide

/-- TickInSleepWakesIfConfigured, at the last tick count it speaks of. -/
theorem test_witness_tickInSleep : (fun s : State => s.sleeping = false ∧ s.tickPending = true ∧
    s.tick.toNat < 249 ∧ s.env = [[], [], [], [], [.take .tickOvf]])
    { tickDue with tick := 248#8, env := [[], [], [], [], [.take .tickOvf]] } := by decide

/-- SecondLostBetweenReadAndClear, each interleaving. -/
theorem test_witness_lostSecond :
    (fun s : State => s.inv = true ∧ s.upc = none ∧
      s.cmds = 0x3100000000#40 :: 0x3200000000#40 :: [] ∧ s.takeable .tickOvf = true ∧
      s.tick = 249#8 ∧ s.env = [] :: [.take .tickOvf] :: [])
      { tickDue with cmds := [0x3100000000#40, 0x3200000000#40], env := [[], [.take .tickOvf]] } ∧
    (fun s : State => s.inv = true ∧ s.upc = none ∧
      s.cmds = 0x3100000000#40 :: 0x3200000000#40 :: [] ∧ s.takeable .tickOvf = true ∧
      s.tick = 249#8 ∧ s.env = [] :: [] :: [])
      { tickDue with cmds := [0x3100000000#40, 0x3200000000#40], env := [[], []] } := by decide

/-- MaskedReadAndClearIsAtomic. -/
theorem test_witness_masked : (fun s : State => s.inv = true ∧ s.upc = none ∧ s.gie = false ∧
    s.cmds = 0x3100000000#40 :: 0x3200000000#40 :: [])
    { tickDue with gie := false, cmds := [0x3100000000#40, 0x3200000000#40] } := by decide

/-- SymReadsTable, at both ends. -/
theorem test_witness_digit : (0#8 : Byte).toNat < 10 ∧ (9#8 : Byte).toNat < 10 := by decide

/-- SymbolTableEntries and InvariantAtReset. -/
theorem test_witness_config : Config.reference.ok = true ∧ Memory.wf [(1, 0x08#8)] = true := by
  decide

/-- TimerCountsAndOverflows, each clause at its boundary. -/
theorem test_witness_timer : (Timer.arm 239#8).run = true ∧
    (Timer.arm 239#8).cnt.toNat + 16 ≤ 255 ∧ (Timer.arm 239#8).cnt.toNat + 17 = 256 ∧
    Timer.reset.run = false := by decide

/-- InterruptTaken, each clause; InterruptOrderUnobservable. -/
theorem test_witness_interrupts :
    (bothDue.gie = true ∧ bothDue.tmrT.ovf = true ∧ bothDue.tmrT.ie = true) ∧
    (bothDue.gie = true ∧ bothDue.tmrS.ovf = true ∧ bothDue.tmrS.ie = true) ∧
    bothDue.takeable .tickOvf = true ∧ bothDue.takeable .wakeOvf = true ∧
    ¬ (booted.gie = true ∧ booted.tmrT.ovf = true ∧ booted.tmrT.ie = true) ∧
    ¬ (booted.gie = true ∧ booted.tmrS.ovf = true ∧ booted.tmrS.ie = true) := by decide

/-- TwoHundredFiftyTicksMakeASecond. -/
theorem test_witness_ticks : booted.tick = 0#8 := by decide

/-- IdleStepOnlyWaits, with and without moves in store; the driven lines of its last clause. -/
theorem test_witness_idle : (fun s : State => s.cfg.ok = true ∧ s.upc = none ∧
      s.sleeping = false ∧ s.cmds = [] ∧ s.env = [] ∧ s.driven = true) booted ∧
    (fun s : State => s.cfg.ok = true ∧ s.upc = none ∧ s.sleeping = false ∧ s.cmds = [])
      { booted with env := [[.pulseT, .ext 1 0x08#8]] } := by decide

/-- StepKeepsInvariant, NoOperationFails, StepOnlyTakesParameters, CommandErrorIsSticky: a state in
which a command is about to run, with `CMDERR` set and no `ext` move in store. -/
theorem test_witness_step : (fun s : State => s.inv = true ∧ s.cmderr = true ∧
    (∀ g ∈ s.env, ∀ port levels, Event.ext port levels ∉ g) ∧
    see (fun t => (t.cmds, t.env)) (step s) = some ([], []))
    { booted with cmderr := true, cmds := [0x1200000000#40], env := [[.pulseT]] } := by
  refine ⟨by decide +kernel, by decide, ?_, by decide +kernel⟩
  intro g hg p v
  simp only [List.mem_singleton] at hg
  simp [hg]

/-- OnlyReadsWriteResult: a command that reads nothing and answers. -/
theorem test_witness_result :
    see (·.res) (exec .lat { booted with res := 5#8 }) = some 5#8 := by decide +kernel

/-- OnlySleepsSleep: an awake state whose `SLPMS` is left asleep. -/
theorem test_witness_sleeps : see (·.sleeping) (exec (.slpms 1#16)
    { booted with gie := true, env := [[], List.replicate 17 .pulseS ++ [.take .wakeOvf]] }) =
      some true := by decide +kernel

/-- StartedTimersStayEnabled: a step with both timers enabled. -/
theorem test_witness_started : bothDue.tmrT.run = true ∧ bothDue.tmrT.ie = true ∧
    bothDue.tmrS.ie = true ∧
    see (fun s => (s.tmrT.run, s.tmrT.ie, s.tmrS.ie)) (step bothDue) = some (true, true, true) := by
  decide +kernel

end Sys2Proof.Tests
end

section
/-! What one micro-step is, and that `resume` runs a number of them (R12, R22, R176). -/

namespace Sys2Proof.Machine

/-- A command with no micro-step left ends (R22). -/
theorem microStep_nil {op : Instr} {s : State} (h : s.upc = some ⟨op, []⟩) :
    microStep s = .next (s.finish op) := by
  simp only [microStep, h]

/-- A main context that the gap leaves asleep runs no micro-step (R37). -/
theorem microStep_asleep {op : Instr} {m : Micro} {ms : List Micro} {s : State}
    (h : s.upc = some ⟨op, m :: ms⟩) (hs : s.between.sleeping = true) :
    microStep s = .next s.between := by
  simp only [microStep, h, hs, if_true]

/-- The last micro-step of a command ends it. -/
theorem microStep_last {op : Instr} {m : Micro} {s : State}
    (h : s.upc = some ⟨op, [m]⟩) (hs : s.between.sleeping = false) :
    microStep s = andThen (micro m s.between) (resume op []) := by
  simp [microStep, h, hs, resume]

/-- Any other micro-step leaves the command at its next position. -/
theorem microStep_more {op : Instr} {m m' : Micro} {ms : List Micro} {s : State}
    (h : s.upc = some ⟨op, m :: m' :: ms⟩) (hs : s.between.sleeping = false) :
    microStep s =
      andThen (micro m s.between) fun t => .next { t with upc := some ⟨op, m' :: ms⟩ } := by
  simp [microStep, h, hs]

theorem microSteps_succ (n : Nat) (s : State) :
    microSteps (n + 1) s = andThen (microStep s) (microSteps n) := rfl

@[simp] theorem microSteps_one (s : State) : microSteps 1 s = microStep s := by
  rw [microSteps_succ]
  cases microStep s <;> rfl

/-- Settles O10, by induction on the micro-steps still to run: the first one, after its gap, either
is the last that runs (asleep, stopped, or the end of the list) or hands on to the rest. -/
theorem microStepsMakeUpResume : Obligations.MicroStepsMakeUpResume := by
  intro op ms
  induction ms with
  | nil => exact fun s h => ⟨1, by simp, (microSteps_one s).trans (microStep_nil h)⟩
  | cons m ms ih =>
    intro s h
    rw [resume_here h]
    cases hs : s.between.sleeping with
    | true => exact ⟨1, by simp, by simp [microStep_asleep h hs]⟩
    | false =>
      cases ms with
      | nil => exact ⟨1, by simp, by simp [microStep_last h hs]⟩
      | cons m' ms =>
        have hstep := microStep_more h hs
        cases hm : micro m s.between with
        | fault r => exact ⟨1, by simp, by simp [hstep, hm]⟩
        | refused r => exact ⟨1, by simp, by simp [hstep, hm]⟩
        | next t =>
          obtain ⟨k, hk, hr⟩ := ih { t with upc := some ⟨op, m' :: ms⟩ } rfl
          refine ⟨k + 1, Nat.succ_le_succ hk, ?_⟩
          rw [microSteps_succ, hstep, hm]
          simpa [resume_upc] using hr

end Sys2Proof.Machine
end

section
/-! No operation fails (R6, R101): a micro-step whose pins exist answers a next state, and the list
of every command names only pins that exist; so does, by the invariant, what is left of one in
progress. -/

namespace Sys2Proof.Machine

/-! ### Micro-steps whose pins exist -/

theorem State.samplePin_hasPin {s : State} {pin : Pin} (h : s.cfg.hasPin pin = true) :
    s.samplePin pin = .next { s.setTmp (s.inByte pin.port.toNat) with
      res := zextBit (getBit (s.inByte pin.port.toNat) pin.bit) } := by
  simp [State.samplePin, State.memRead, inAddr_lt h, inAddr_mod, inAddr_div]

/-- Only an access to a register that does not exist stops the machine (R60, R65). -/
theorem micro_answers {m : Micro} {s : State} (h : microLegal s.cfg m = true) :
    ∃ t, micro m s = .next t := by
  cases m with
  | readDir pin => exact ⟨_, s.readToTmp_dir h⟩
  | writeDir pin dir => exact ⟨_, s.memWrite_dir _ h⟩
  | readOut pin => exact ⟨_, s.readToTmp_out h⟩
  | writeOut pin lvl => exact ⟨_, s.memWrite_out _ h⟩
  | samplePin pin => exact ⟨_, State.samplePin_hasPin h⟩
  | _ => exact ⟨_, rfl⟩

theorem micro_cfg {m : Micro} {s t : State} (h : micro m s = .next t) : t.cfg = s.cfg :=
  congrArg Inputs.cfg (micro_params h)

/-- A legal list of micro-steps goes on to a next state, whatever the gaps bring. -/
theorem resume_answers (op : Instr) {ms : List Micro} {s : State}
    (h : ms.all (microLegal s.cfg) = true) : ∃ t, resume op ms s = .next t := by
  induction ms generalizing s with
  | nil => exact ⟨_, rfl⟩
  | cons m ms ih =>
    rw [resume_cons]
    split
    · exact ⟨_, rfl⟩
    · have hcfg : (s.gapAt op (m :: ms)).cfg = s.cfg := (s.gapAt_frame op (m :: ms)).cfg
      rw [List.all_cons, Bool.and_eq_true, ← hcfg] at h
      obtain ⟨hm, hms⟩ := h
      obtain ⟨t, ht⟩ := micro_answers hm
      rw [ht, andThen_next]
      exact ih (by rwa [micro_cfg ht])

/-- So does a legal list from its first micro-step on. -/
theorem runOp_answers (op : Instr) {ms : List Micro} {s : State}
    (h : ms.all (microLegal s.cfg) = true) : ∃ t, runOp op ms s = .next t := by
  cases ms with
  | nil => exact ⟨_, rfl⟩
  | cons m ms =>
    rw [List.all_cons, Bool.and_eq_true] at h
    obtain ⟨hm, hms⟩ := h
    obtain ⟨t, ht⟩ := micro_answers (s := s.atStart op (m :: ms)) hm
    rw [runOp_cons, ht, andThen_next]
    exact resume_answers op (by rwa [micro_cfg ht])

/-! ### The lists of the commands name only pins that exist -/

section
variable {c : Config} {pin : Pin}

theorem pdirProg_legal (dir : Direction) (h : c.hasPin pin = true) :
    (pdirProg pin dir).all (microLegal c) = true := by
  simp [pdirProg, microLegal, h]

theorem pwrProg_legal (lvl : LevelSrc) (h : c.hasPin pin = true) :
    (pwrProg pin lvl).all (microLegal c) = true := by
  simp [pwrProg, microLegal, h]

theorem bdlyProg_legal (units : Byte) : (bdlyProg units).all (microLegal c) = true := by
  simp [bdlyProg, microLegal]

theorem sleepIterations_legal (n : Nat) : (sleepIterations n).all (microLegal c) = true := by
  induction n with
  | zero => rfl
  | succ n ih => rw [sleepIterations, List.all_append, ih]; rfl

theorem slpmsProg_legal (ms : Millis) : (slpmsProg ms).all (microLegal c) = true := by
  simp only [slpmsProg, List.all_cons, List.all_append, sleepIterations_legal]; rfl

theorem pulseProg_legal (h : c.hasPin pin = true) :
    (pulseProg c pin).all (microLegal c) = true := by
  simp only [pulseProg, List.all_append, pwrProg_legal _ h, bdlyProg_legal, Bool.and_self]

theorem initPinProg_legal (h : c.hasPin pin = true) :
    (initPinProg pin).all (microLegal c) = true := by
  simp only [initPinProg, List.all_append, pdirProg_legal _ h, pwrProg_legal _ h, Bool.and_self]

variable (hok : c.ok = true)
include hok

theorem shiftBits_legal (n : Nat) : (shiftBits c n).all (microLegal c) = true := by
  induction n with
  | zero => rfl
  | succ n ih =>
    simp only [shiftBits, shiftBitProg, List.all_append, ih,
      pwrProg_legal _ (Config.ok_hasDat hok), pulseProg_legal (Config.ok_hasClk hok)]
    rfl

theorem shbProg_legal (src : ByteSrc) : (shbProg c src).all (microLegal c) = true :=
  (List.all_cons ..).trans (shiftBits_legal hok 8)

theorem latProg_legal : (latProg c).all (microLegal c) = true :=
  pulseProg_legal (Config.ok_hasLat hok)

theorem dinitProg_legal : (dinitProg c).all (microLegal c) = true := by
  simp only [dinitProg, List.all_append, initPinProg_legal (Config.ok_hasClk hok),
    initPinProg_legal (Config.ok_hasLat hok), initPinProg_legal (Config.ok_hasDat hok),
    Bool.and_self]

theorem digitsProg_legal (n : Nat) : (digitsProg c n).all (microLegal c) = true := by
  induction n with
  | zero => rfl
  | succ n ih =>
    simp only [digitsProg, digitProg, List.cons_append, List.all_cons, List.all_append, ih,
      shbProg_legal hok, latProg_legal hok, slpmsProg_legal]
    rfl

/-- Under a well-formed configuration a command that is not refused has a legal list (R90 (b)). -/
theorem progOf_legal {i : Instr} (hwf : WellFormed c i = true) :
    (progOf c i).all (microLegal c) = true := by
  cases i with
  | pdir pin dir => exact pdirProg_legal dir hwf
  | prd pin => simpa [progOf, prdProg, microLegal, WellFormed] using hwf
  | pwr pin lvl => exact pwrProg_legal (.lit lvl) hwf
  | dinit => exact dinitProg_legal hok
  | shb byte => exact shbProg_legal hok (.lit byte)
  | lat => exact latProg_legal hok
  | ind s0 s1 s2 s3 => exact (List.all_cons ..).trans (digitsProg_legal hok 4)
  | bdly units => exact bdlyProg_legal units
  | slpms ms => exact slpmsProg_legal ms
  | _ => rfl

end

/-! ### Every command, every step -/

/-- A command that is not refused runs its list (R86, R226). -/
theorem exec_wellFormed {i : Instr} {s : State} (h : WellFormed s.cfg i = true) :
    exec i s = runOp i (progOf s.cfg i) s := by
  cases i with
  | pdir pin dir => exact if_pos h
  | prd pin => exact if_pos h
  | pwr pin lvl => exact if_pos h
  | sym digit => exact if_pos h
  | _ => rfl

/-- A command whose port or digit does not exist is refused (R90 (b), (c)). -/
theorem exec_illFormed {i : Instr} {s : State} (h : WellFormed s.cfg i = false) :
    exec i s = .next s.refuseCommand := by
  have h' : ¬ WellFormed s.cfg i = true := by simp [h]
  cases i with
  | pdir pin dir => exact if_neg h'
  | prd pin => exact if_neg h'
  | pwr pin lvl => exact if_neg h'
  | sym digit => exact if_neg h'
  | _ => cases h

/-- Settles O55: a refused command answers the refusal, any other runs a legal list. -/
theorem everyCommandAnswers : Obligations.EveryCommandAnswers := by
  intro i s hok
  cases hwf : WellFormed s.cfg i with
  | true => rw [exec_wellFormed hwf]; exact runOp_answers i (progOf_legal hok hwf)
  | false => exact ⟨_, exec_illFormed hwf⟩

/-- A word that the block has accepted is carried out or refused (R90 (a)). -/
theorem runWord_answers (w : CmdWord) {s : State} (hok : s.cfg.ok = true) :
    ∃ t, runWord w s = .next t := by
  unfold runWord
  split
  · next i _ => exact everyCommandAnswers i s hok
  · exact ⟨_, rfl⟩

/-- What the invariant says, part by part. -/
theorem State.inv_iff (s : State) : s.inv = true ↔
    s.cfg.ok = true ∧ Memory.wf s.io = true ∧ ioHome s.cfg s.io = true ∧
      Memory.wf s.ext = true ∧ s.busy = s.upc.isSome ∧ s.tick.toNat < 250 ∧
      (s.sleeping = true → s.se = true ∧ s.gie = true ∧ s.upc.isSome = true) ∧
      s.synced = true ∧ s.todo.all (microLegal s.cfg) = true ∧
      sleepEnableAfter s.se s.todo = false := by
  cases hs : s.sleeping <;>
    simp only [State.inv, hs, Bool.and_eq_true, beq_iff_eq, decide_eq_true_eq, Bool.not_eq_true',
      Bool.not_true, Bool.not_false, Bool.true_or, Bool.false_or, and_assoc, true_and,
      true_implies, Bool.false_eq_true, false_implies]

theorem State.todo_of_upc {s : State} {u : Upc} (h : s.upc = some u) : s.todo = u.todo := by
  simp only [State.todo, h]

/-- Settles O54: a command in progress has a legal list left, and an idle block runs the word it is
offered or waits. -/
theorem noOperationFails : Obligations.NoOperationFails := by
  intro s hinv
  obtain ⟨hok, -, -, -, -, -, -, -, hlegal, -⟩ := s.inv_iff.1 hinv
  cases hu : s.upc with
  | some u =>
    rw [step_in_progress s hok hu]
    exact resume_answers u.op (State.todo_of_upc hu ▸ hlegal)
  | none =>
    rw [step_idle s hok hu]
    split
    · next w _ =>
      refine runWord_answers w ?_
      rw [State.accept_cfg, s.between_frame.cfg]
      exact hok
    · exact ⟨_, rfl⟩

end Sys2Proof.Machine
end

section
/-! What a gap is made of, and what one micro-step leaves (R12, R176): closure principles for what
every event, every gap and every micro-step keeps. -/

namespace Sys2Proof.Machine

/-! ### A gap is made of events -/

section
variable {P : State → Prop} (occur : ∀ u e, P u → P (State.occur u e))
include occur

theorem State.countPulses_closed (x : Source) (n : Nat) {s : State} (h : P s) :
    P (s.countPulses x n) := by
  have pulse : ∀ u, P u → P (State.countPulse u x) := by
    cases x with
    | tickOvf => exact fun u => occur u .pulseT
    | wakeOvf => exact fun u => occur u .pulseS
  induction n generalizing s with
  | zero => exact h
  | succ n ih => exact ih (pulse s h)

theorem State.runOut_closed (x : Source) {s : State} (h : P s) : P (s.runOut x) :=
  occur _ (.take x) (State.countPulses_closed occur x _ h)

/-- Both pending interrupts taken, as the model's schedule begins (log 8). -/
theorem State.takeBoth_closed {s : State} (h : P s) :
    P ((s.takeInterrupt .tickOvf).takeInterrupt .wakeOvf) :=
  occur _ (.take .wakeOvf) (occur s (.take .tickOvf) h)

theorem State.fairRest_closed {s : State} (h : P s) : P s.fairRest := by
  have h1 := State.takeBoth_closed occur h
  have h2 := State.runOut_closed occur .wakeOvf h1
  simp only [State.fairRest]
  split
  · split
    · exact State.runOut_closed occur .tickOvf h2
    · exact h2
  · exact h1

/-- What every event keeps, the schedule of an idle block keeps. -/
theorem State.fairIdle_closed {s : State} (h : P s) : P s.fairIdle :=
  State.runOut_closed occur _ (State.runOut_closed occur _ (State.takeBoth_closed occur h))

theorem State.play_closed (g : Gap) {s : State} (h : P s) : P (s.play g) :=
  s.play_induct (P := fun u v => P u → P v) (fun _ hu => hu) (fun huv hvw hu => hvw (huv hu))
    occur g h

variable (setEnv : ∀ u gs, P u → P { u with env := gs })
include setEnv

theorem State.doze_closed (gs : List Gap) {s : State} (h : P s) : P (s.doze gs) := by
  induction gs generalizing s with
  | nil => exact State.fairRest_closed occur (setEnv s [] h)
  | cons g gs ih =>
    have hplay := State.play_closed occur g (setEnv s gs h)
    simp only [State.doze]
    split
    · exact ih hplay
    · exact hplay

theorem State.nextGap_closed {s : State} (h : P s) : P s.nextGap := by
  unfold State.nextGap
  split
  · exact h
  · next g gs _ => exact State.play_closed occur g (setEnv s gs h)

/-- What every event keeps, and the taking of moves from the store and the drift of undriven lines
keep, a gap keeps (R113, R176). -/
theorem State.between_closed (float : ∀ u, P u → State.driven u = false → P u.floatChain)
    {s : State} (h : P s) : P s.between := by
  have hdrift : P s.drift := by
    unfold State.drift
    split
    · exact h
    · next hd => exact float s h (by simpa using hd)
  simp only [State.between]
  split
  · exact State.doze_closed occur setEnv _ hdrift
  · exact State.nextGap_closed occur setEnv hdrift

end

/-! ### The three micro-steps that reach the register space -/

/-- A `MemWrite` that does not stop wrote a `DIR` or `OUT` register, and the edge rule acted
(R63). -/
theorem State.memWrite_next {s t : State} {a : Nat} {v : Byte} (h : s.memWrite a v = .next t) :
    a < 3 * s.cfg.nports ∧ a % 3 ≠ 1 ∧
      t = State.chainStep { s with io := Memory.put s.io a v } := by
  unfold State.memWrite at h
  split at h
  · next hlt =>
    split at h
    · cases h
    · next hmod => cases h; exact ⟨hlt, hmod, rfl⟩
  · cases h

theorem State.readToTmp_next {s t : State} {a : Nat} (h : s.readToTmp a = .next t) :
    ∃ v, t = s.setTmp v := by
  unfold State.readToTmp at h
  split at h
  · cases h; exact ⟨_, rfl⟩
  · cases h

theorem State.samplePin_next {s t : State} {pin : Pin} (h : s.samplePin pin = .next t) :
    ∃ v r, t = { s.setTmp v with res := r } := by
  unfold State.samplePin at h
  split at h
  · cases h; exact ⟨_, _, rfl⟩
  · cases h

/-! ### What one micro-step leaves -/

/-- The edge detectors stay in step while the registers and the chain stay: driven lines are
outputs, which the environment does not move (R27, R112). -/
theorem State.synced_congr {s t : State} (hcfg : t.cfg = s.cfg) (hio : t.io = s.io)
    (hchain : s.driven = true → t.chain = s.chain) (h : s.synced = true) : t.synced = true := by
  unfold State.synced at *
  rw [State.driven_congr hcfg hio]
  cases hd : s.driven with
  | false => rfl
  | true =>
    obtain ⟨hclk, hlat, -⟩ := s.driven_iff.1 hd
    rw [hcfg, hchain hd, State.level_congr_output hio hclk, State.level_congr_output hio hlat]
    rwa [hd] at h

/-- The micro-steps that write `RES` (R102, R152, R165). -/
def Micro.writesRes : Micro → Bool
  | .samplePin _ => true
  | .readSeconds => true
  | .readSymbol _ => true
  | _ => false

/-- What micro-step `m` leaves as it was, and what it makes of `SE`, `RES` and a sleep. -/
structure MicroFrame (m : Micro) (s t : State) : Prop where
  params : t.toInputs = s.toInputs
  busy   : t.busy = s.busy
  tick   : t.tick = s.tick
  cmderr : t.cmderr = s.cmderr
  wf     : Memory.wf s.io = true → Memory.wf t.io = true
  home   : ioHome s.cfg s.io = true → ioHome s.cfg t.io = true
  synced : s.synced = true → t.synced = true
  se     : t.se = sleepEnableAfter s.se [m]
  res    : m.writesRes = false → t.res = s.res
  sleeps : s.sleeping = false → t.sleeping = true → t.se = true ∧ t.gie = true

/-- A write of the register space leaves it in form and the edge detectors in step (R63, R112). -/
theorem State.memWrite_frame {m : Micro} {s t : State} {a : Nat} {v : Byte}
    (hm : sleepEnableAfter s.se [m] = s.se) (h : s.memWrite a v = .next t) : MicroFrame m s t := by
  obtain ⟨hlt, hmod, rfl⟩ := State.memWrite_next h
  have hp (u : State) : u.chainStep.toInputs = u.toInputs := by
    unfold State.chainStep; split <;> rfl
  constructor
  case params => exact hp _
  case wf => simpa using Memory.put_wf a v
  case home => simpa using fun hh => ioHome_put v hh hlt hmod
  case synced => exact fun _ => State.synced_chainStep _
  case se => simp [hm]
  case sleeps => simp +contextual
  all_goals simp

theorem State.setTmp_frame {m : Micro} {s : State} (v : Byte)
    (hm : sleepEnableAfter s.se [m] = s.se) : MicroFrame m s (s.setTmp v) := by
  constructor
  case synced => exact id
  case se => exact hm.symm
  case sleeps => simp +contextual
  all_goals simp [State.setTmp]

theorem micro_frame {m : Micro} {s t : State} (h : micro m s = .next t) : MicroFrame m s t := by
  cases m with
  | readDir pin => obtain ⟨v, rfl⟩ := State.readToTmp_next h; exact State.setTmp_frame v rfl
  | readOut pin => obtain ⟨v, rfl⟩ := State.readToTmp_next h; exact State.setTmp_frame v rfl
  | writeDir pin dir => exact State.memWrite_frame rfl h
  | writeOut pin lvl => exact State.memWrite_frame rfl h
  | samplePin pin =>
    obtain ⟨v, r, rfl⟩ := State.samplePin_next h
    exact { State.setTmp_frame v rfl with res := nofun }
  | enterSleep =>
    cases h
    exact { params := rfl, busy := rfl, tick := rfl, cmderr := rfl, wf := id, home := id,
            synced := id, se := rfl, res := fun _ => rfl, sleeps := fun _ hse => ⟨hse, rfl⟩ }
  | _ =>
    cases h
    exact { params := rfl, busy := rfl, tick := rfl, cmderr := rfl, wf := id, home := id,
            synced := id, se := rfl, res := by simp [Micro.writesRes],
            sleeps := by simp +contextual }

end Sys2Proof.Machine
end

section
/-! What the micro-steps of each command do to `SE` and `RES` (R20, R36, R144): the pin, shift and
delay lists touch neither, and each sleep takes `SE` back. -/

namespace Sys2Proof.Machine

/-- `SE` after one micro-step more. -/
theorem sleepEnableAfter_cons (se : Bool) (m : Micro) (ms : List Micro) :
    sleepEnableAfter se (m :: ms) = sleepEnableAfter (sleepEnableAfter se [m]) ms := by
  cases m <;> rfl

theorem sleepEnableAfter_append (se : Bool) (a b : List Micro) :
    sleepEnableAfter se (a ++ b) = sleepEnableAfter (sleepEnableAfter se a) b := by
  induction a generalizing se with
  | nil => rfl
  | cons m a ih => rw [List.cons_append, sleepEnableAfter_cons, ih, ← sleepEnableAfter_cons]

/-- The micro-steps of the pin, shift and delay operations (R100, R104, R115, R135). -/
def Micro.drivesLines : Micro → Bool
  | .readDir _ => true
  | .writeDir _ _ => true
  | .readOut _ => true
  | .writeOut _ _ => true
  | .loadShift _ => true
  | .nextBit => true
  | .loadDelay _ => true
  | .delayUnit => true
  | _ => false

/-! ### The lists of pin, shift and delay micro-steps -/

section
variable (c : Config) (pin : Pin)

theorem bdlyProg_drivesLines (units : Byte) : (bdlyProg units).all Micro.drivesLines = true := by
  simp [bdlyProg, Micro.drivesLines]

theorem pulseProg_drivesLines : (pulseProg c pin).all Micro.drivesLines = true := by
  simp only [pulseProg, List.all_append, bdlyProg_drivesLines]; rfl

theorem shiftBits_drivesLines (n : Nat) : (shiftBits c n).all Micro.drivesLines = true := by
  induction n with
  | zero => rfl
  | succ n ih =>
    simp only [shiftBits, shiftBitProg, List.all_append, pulseProg_drivesLines, ih]; rfl

theorem shbProg_drivesLines (src : ByteSrc) : (shbProg c src).all Micro.drivesLines = true :=
  (List.all_cons ..).trans (shiftBits_drivesLines c 8)

end

/-! ### `SE` -/

theorem Micro.drivesLines_keepsSe (se : Bool) {m : Micro} (h : m.drivesLines = true) :
    sleepEnableAfter se [m] = se := by
  cases m with
  | armSleep => cases h
  | disarmSleep => cases h
  | _ => rfl

/-- Pin, shift and delay micro-steps leave `SE` (R144). -/
theorem sleepEnableAfter_drivesLines (se : Bool) {ms : List Micro}
    (h : ms.all Micro.drivesLines = true) : sleepEnableAfter se ms = se := by
  induction ms with
  | nil => rfl
  | cons m ms ih =>
    rw [List.all_cons, Bool.and_eq_true] at h
    obtain ⟨hm, hms⟩ := h
    rw [sleepEnableAfter_cons, Micro.drivesLines_keepsSe se hm, ih hms]

/-- `SLPMS` ends with `SE` cleared (R138 `S6`). -/
theorem sleepEnableAfter_slpmsProg (se : Bool) (ms : Millis) :
    sleepEnableAfter se (slpmsProg ms) = false := by
  rw [slpmsProg, sleepEnableAfter_cons, sleepEnableAfter_append]; rfl

/-- A digit of `IND` ends with the `SE` of its dwell: cleared. -/
theorem sleepEnableAfter_digitProg (c : Config) (se : Bool) :
    sleepEnableAfter se (digitProg c) = false := by
  rw [digitProg, sleepEnableAfter_cons, sleepEnableAfter_append, sleepEnableAfter_append,
    sleepEnableAfter_slpmsProg]
  rfl

theorem sleepEnableAfter_digitsProg (c : Config) (n : Nat) :
    sleepEnableAfter false (digitsProg c n) = false := by
  induction n with
  | zero => rfl
  | succ n ih => rw [digitsProg, sleepEnableAfter_append, sleepEnableAfter_digitProg, ih]

/-- Every command that starts with `SE = 0` ends with `SE = 0` (R144). -/
theorem sleepEnableAfter_progOf (c : Config) (i : Instr) :
    sleepEnableAfter false (progOf c i) = false := by
  cases i with
  | shb byte => exact sleepEnableAfter_drivesLines _ (shbProg_drivesLines c _)
  | lat => exact sleepEnableAfter_drivesLines _ (pulseProg_drivesLines c _)
  | ind s0 s1 s2 s3 => exact (sleepEnableAfter_cons ..).trans (sleepEnableAfter_digitsProg c 4)
  | bdly units => exact sleepEnableAfter_drivesLines _ (bdlyProg_drivesLines units)
  | slpms ms => exact sleepEnableAfter_slpmsProg _ ms
  | _ => rfl

/-! ### `RES` -/

/-- No micro-step of the list writes `RES`. -/
def keepsRes (ms : List Micro) : Prop := ∀ m ∈ ms, m.writesRes = false

theorem keepsRes_append {a b : List Micro} (ha : keepsRes a) (hb : keepsRes b) :
    keepsRes (a ++ b) :=
  fun m hm => (List.mem_append.1 hm).elim (ha m) (hb m)

theorem keepsRes_cons {m : Micro} {ms : List Micro} (hm : m.writesRes = false)
    (hms : keepsRes ms) : keepsRes (m :: ms) :=
  List.forall_mem_cons.2 ⟨hm, hms⟩

theorem keepsRes_drivesLines {ms : List Micro} (h : ms.all Micro.drivesLines = true) :
    keepsRes ms := by
  intro m hm
  have hline : m.drivesLines = true := List.all_eq_true.1 h m hm
  cases m with
  | samplePin pin => cases hline
  | readSeconds => cases hline
  | readSymbol digit => cases hline
  | _ => rfl

theorem keepsRes_sleepIterations (n : Nat) : keepsRes (sleepIterations n) := by
  induction n with
  | zero => exact nofun
  | succ n ih => exact keepsRes_append (by simp [keepsRes, sleepIteration, Micro.writesRes]) ih

theorem keepsRes_slpmsProg (ms : Millis) : keepsRes (slpmsProg ms) :=
  keepsRes_cons rfl (keepsRes_append (keepsRes_sleepIterations _) (keepsRes_cons rfl nofun))

theorem keepsRes_digitsProg (c : Config) (n : Nat) : keepsRes (digitsProg c n) := by
  have hshb (src : ByteSrc) := keepsRes_drivesLines (shbProg_drivesLines c src)
  have hlat := keepsRes_drivesLines (pulseProg_drivesLines c c.latPin)
  have hdigit : keepsRes (digitProg c) :=
    keepsRes_cons rfl (keepsRes_append (keepsRes_append (keepsRes_append (keepsRes_append (hshb _)
      (hshb _)) hlat) (keepsRes_slpmsProg _)) (keepsRes_cons rfl nofun))
  induction n with
  | zero => exact nofun
  | succ n ih => exact keepsRes_append hdigit ih

/-- Only the lists of `PRD`, `SECRD` and `SYM` write `RES` (R20). -/
theorem keepsRes_progOf (c : Config) (i : Instr) :
    keepsRes (progOf c i) ∨ (∃ pin, i = .prd pin) ∨ i = .secrd ∨ ∃ digit, i = .sym digit := by
  cases i with
  | prd pin => exact .inr (.inl ⟨pin, rfl⟩)
  | secrd => exact .inr (.inr (.inl rfl))
  | sym digit => exact .inr (.inr (.inr ⟨digit, rfl⟩))
  | shb byte => exact .inl (keepsRes_drivesLines (shbProg_drivesLines c _))
  | lat => exact .inl (keepsRes_drivesLines (pulseProg_drivesLines c _))
  | ind s0 s1 s2 s3 => exact .inl (keepsRes_cons rfl (keepsRes_digitsProg c 4))
  | bdly units => exact .inl (keepsRes_drivesLines (bdlyProg_drivesLines units))
  | slpms ms => exact .inl (keepsRes_slpmsProg ms)
  | dinit => exact .inl (keepsRes_drivesLines rfl)
  | pdir pin dir => exact .inl (keepsRes_drivesLines rfl)
  | pwr pin lvl => exact .inl (keepsRes_drivesLines rfl)
  | _ => exact .inl (keepsRes_cons rfl nofun)

end Sys2Proof.Machine
end

section
/-! The invariant of the machine: what a gap, a micro-step and the end of a command make of it, and
that every step keeps it (R21, R25, R32, R36, R112, R144). -/

namespace Sys2Proof.Machine

/-! ### A gap keeps the invariant -/

/-- What changes nothing the invariant reads but `EXT`, `TICK` and a sleep that ends keeps it. -/
theorem GapFrame.inv {s t : State} (f : GapFrame s t) (hgie : t.gie = s.gie)
    (hsleep : s.sleeping = false → t.sleeping = false) (hext : Memory.wf t.ext = true)
    (htick : t.tick.toNat < 250) (h : s.inv = true) : t.inv = true := by
  obtain ⟨hok, hio, hhome, -, hbusy, -, hasleep, hsync, hlegal, hse⟩ := s.inv_iff.1 h
  have htodo : t.todo = s.todo := by unfold State.todo; rw [f.upc]
  refine t.inv_iff.2 ⟨f.cfg ▸ hok, f.io ▸ hio, by rwa [f.cfg, f.io], hext, by rwa [f.busy, f.upc],
    htick, fun ht => ?_, State.synced_congr f.cfg f.io f.chain hsync, by rwa [htodo, f.cfg],
    by rwa [htodo, f.se]⟩
  rw [f.se, hgie, f.upc]
  exact hasleep (Bool.of_not_eq_false fun hs => by simp [hsleep hs] at ht)

/-- The tick handler keeps `TICK` below 250 (R32, R180). -/
theorem State.takeInterrupt_tick_lt {s : State} (x : Source) (h : s.tick.toNat < 250) :
    (s.takeInterrupt x).tick.toNat < 250 := by
  unfold State.takeInterrupt
  split
  · cases x with
    | wakeOvf => simpa [State.handlerBody] using h
    | tickOvf =>
      show (if s.tick + 1#8 = 250#8 then 0#8 else s.tick + 1#8).toNat < 250
      split
      · decide
      · bv_omega
  · exact h

theorem State.occur_inv (s : State) (e : Event) (h : s.inv = true) : (s.occur e).inv = true := by
  obtain ⟨-, -, -, hext, -, htick, -⟩ := s.inv_iff.1 h
  refine (s.occur_frame e).inv (s.occur_gie e) (s.occur_sleeping_le e) ?_ ?_ h
  · cases e with
    | ext p v => exact Memory.put_wf p v hext
    | _ => simpa [State.occur] using hext
  · cases e with
    | take x => exact State.takeInterrupt_tick_lt x htick
    | _ => simpa [State.occur] using htick

theorem State.floatChain_inv (s : State) (h : s.inv = true) (hd : s.driven = false) :
    s.floatChain.inv = true := by
  obtain ⟨-, -, -, hext, -, htick, -⟩ := s.inv_iff.1 h
  have f : GapFrame s s.floatChain := by constructor <;> simp [hd]
  exact f.inv rfl id hext htick h

/-- Every gap keeps the invariant, whatever it brings. -/
theorem State.between_inv {s : State} (h : s.inv = true) : s.between.inv = true :=
  State.between_closed (P := fun u => u.inv = true) State.occur_inv (fun _ _ hu => hu)
    State.floatChain_inv h

/-! ### A command in progress keeps the invariant -/

/-- An awake command's next micro-step leaves the invariant at the next position: it falls asleep
only with `SE = 1`, which its list takes back later (R36, R144). -/
theorem micro_inv {op : Instr} {m : Micro} {ms : List Micro} {s t : State} (h : s.inv = true)
    (hu : s.upc = some ⟨op, m :: ms⟩) (ha : s.sleeping = false) (hm : micro m s = .next t) :
    (t.atStart op ms).inv = true := by
  obtain ⟨hok, hio, hhome, hext, hbusy, htick, -, hsync, hlegal, hse⟩ := s.inv_iff.1 h
  have f := micro_frame hm
  have hcfg : t.cfg = s.cfg := congrArg Inputs.cfg f.params
  rw [State.todo_of_upc hu] at hlegal hse
  rw [List.all_cons, Bool.and_eq_true] at hlegal
  rw [sleepEnableAfter_cons, ← f.se] at hse
  refine (t.atStart op ms).inv_iff.2 ⟨hcfg ▸ hok, f.wf hio, ?_, ?_, ?_, ?_, fun hs => ?_,
    f.synced hsync, ?_, hse⟩
  · exact hcfg ▸ f.home hhome
  · exact congrArg Inputs.ext f.params ▸ hext
  · exact f.busy.trans (by rw [hbusy, hu]; rfl)
  · exact f.tick ▸ htick
  · obtain ⟨hse', hgie⟩ := f.sleeps ha hs
    exact ⟨hse', hgie, rfl⟩
  · exact hcfg ▸ hlegal.2

/-- A command whose list has run out ends awake, with `SE = 0`, and idle (R22, R144). -/
theorem State.finish_inv {op : Instr} {s : State} (h : (s.atStart op []).inv = true) :
    (s.finish op).inv = true := by
  obtain ⟨hok, hio, hhome, hext, -, htick, hasleep, hsync, -, hse⟩ := State.inv_iff _ |>.1 h
  have hse : s.se = false := hse
  have hawake : s.sleeping ≠ true := fun hs => absurd (hse.symm.trans (hasleep hs).1) nofun
  have hsync' : (s.finish op).synced = true :=
    State.synced_congr (s := s) (by simp) (by simp) (by simp) hsync
  rw [State.inv_iff]
  simpa [State.todo, hsync', hawake] using ⟨hok, hio, hhome, hext, htick, hse⟩

/-- A command in progress keeps the invariant, by induction on the micro-steps still to run. -/
theorem resume_inv {op : Instr} {ms : List Micro} {s t : State}
    (h : (s.atStart op ms).inv = true) (hr : resume op ms s = .next t) : t.inv = true := by
  induction ms generalizing s with
  | nil => cases hr; exact State.finish_inv h
  | cons m ms ih =>
    have hgap : (s.gapAt op (m :: ms)).inv = true := State.between_inv h
    rw [resume_cons] at hr
    split at hr
    · cases hr; exact hgap
    · next ha =>
      obtain ⟨u, hm, hu⟩ := andThen_eq_next hr
      exact ih (micro_inv hgap (s.gapAt_frame op (m :: ms)).upc (by simpa using ha) hm) hu

theorem runOp_inv {op : Instr} {prog : List Micro} {s t : State} (ha : s.sleeping = false)
    (h : (s.atStart op prog).inv = true) (hr : runOp op prog s = .next t) : t.inv = true := by
  cases prog with
  | nil => cases hr; exact State.finish_inv h
  | cons m ms =>
    rw [runOp_cons] at hr
    obtain ⟨u, hm, hu⟩ := andThen_eq_next hr
    exact resume_inv (micro_inv h rfl ha hm) hu

/-! ### A step of an idle block keeps the invariant -/

/-- An idle block is awake with `SE = 0` (R36, R144). -/
theorem State.inv_idle {s : State} (h : s.inv = true) (hu : s.upc = none) :
    s.busy = false ∧ s.sleeping = false ∧ s.se = false := by
  obtain ⟨-, -, -, -, hbusy, -, hasleep, -, -, hse⟩ := s.inv_iff.1 h
  refine ⟨by rw [hbusy, hu]; rfl, Bool.eq_false_iff.2 fun hs => ?_, ?_⟩
  · simpa [hu] using (hasleep hs).2.2
  · simpa [State.todo, hu, sleepEnableAfter] using hse

/-- A refused command leaves the block idle as it was (R90). -/
theorem State.refuse_inv {s : State} (w : CmdWord) (h : s.inv = true) (hu : s.upc = none) :
    (s.accept w).refuseCommand.inv = true := by
  obtain ⟨hok, hio, hhome, hext, -, htick, -, hsync, -, -⟩ := s.inv_iff.1 h
  obtain ⟨-, ha, hse⟩ := State.inv_idle h hu
  refine State.inv_iff _ |>.2 ⟨hok, hio, hhome, hext, rfl, htick, fun hs => ?_, hsync, rfl, hse⟩
  exact absurd (ha.symm.trans hs) nofun

/-- A command accepted by an idle block is at the start of its list, which ends with `SE = 0`. -/
theorem State.accept_inv {i : Instr} {s : State} (w : CmdWord) (h : s.inv = true)
    (hu : s.upc = none) (hwf : WellFormed s.cfg i = true) :
    ((s.accept w).atStart i (progOf s.cfg i)).inv = true := by
  obtain ⟨hok, hio, hhome, hext, -, htick, -, hsync, -, -⟩ := s.inv_iff.1 h
  obtain ⟨-, ha, hse⟩ := State.inv_idle h hu
  refine State.inv_iff _ |>.2 ⟨hok, hio, hhome, hext, rfl, htick, fun hs => ?_, hsync,
    progOf_legal hok hwf, ?_⟩
  · exact absurd (ha.symm.trans hs) nofun
  · show sleepEnableAfter s.se (progOf s.cfg i) = false
    rw [hse, sleepEnableAfter_progOf]

theorem exec_inv {i : Instr} {s t : State} (w : CmdWord) (h : s.inv = true) (hu : s.upc = none)
    (he : exec i (s.accept w) = .next t) : t.inv = true := by
  cases hwf : WellFormed s.cfg i with
  | false =>
    rw [exec_illFormed (s := s.accept w) hwf] at he
    cases he; exact State.refuse_inv w h hu
  | true =>
    rw [exec_wellFormed (s := s.accept w) hwf, State.accept_cfg] at he
    exact runOp_inv (s := s.accept w) (State.inv_idle h hu).2.1 (State.accept_inv w h hu hwf) he

theorem runWord_inv {s t : State} (w : CmdWord) (h : s.inv = true) (hu : s.upc = none)
    (hr : runWord w (s.accept w) = .next t) : t.inv = true := by
  unfold runWord at hr
  split at hr
  · exact exec_inv w h hu hr
  · cases hr; exact State.refuse_inv w h hu

/-- An idle block that waits keeps the invariant (R201). -/
theorem State.linger_inv {s : State} (h : s.inv = true) : s.linger.inv = true := by
  unfold State.linger
  split
  · exact State.fairIdle_closed (P := fun u => u.inv = true) State.occur_inv (State.between_inv h)
  · exact State.between_inv h

/-- Settles O53: a command in progress keeps the invariant through every gap and micro-step still to
run; an idle block does through the gap before the word it accepts, or waits. -/
theorem stepKeepsInvariant : Obligations.StepKeepsInvariant := by
  intro s t h hstep
  obtain ⟨hok, -, -, -, -, -, -, -, -, -⟩ := s.inv_iff.1 h
  cases hu : s.upc with
  | some u =>
    rw [step_in_progress s hok hu] at hstep
    have hpos : s.atStart u.op u.todo = s := by unfold State.atStart; rw [← hu]
    exact resume_inv (hpos.symm ▸ h) hstep
  | none =>
    have hidle : s.between.upc = none := s.between_frame.upc.trans hu
    rw [step_idle s hok hu] at hstep
    split at hstep
    · next w _ => exact runWord_inv w (State.between_inv h) hidle hstep
    · cases hstep; exact State.linger_inv h

/-! ### Reset -/

/-- The invariant holds at reset: every register is 0 and every pin an input (R41, R42). -/
theorem State.resetUnder_inv {p : Inputs} (hok : p.cfg.ok = true) (hext : Memory.wf p.ext = true) :
    (State.resetUnder p).inv = true := by
  have hpins : (State.resetUnder p).driven = false := by
    simp [State.driven, State.isOutput, State.dir, State.resetUnder, Block.reset, getBit,
      Memory.unlisted]
  have hsync : (State.resetUnder p).synced = true := by simp [State.synced, hpins]
  exact State.inv_iff _ |>.2 ⟨hok, rfl, rfl, hext, rfl, Nat.zero_lt_succ _, nofun, hsync, rfl, rfl⟩

/-- Settles O52; the reference configuration is well-formed, with no level driven. -/
theorem invariantAtReset : Obligations.InvariantAtReset :=
  ⟨State.resetUnder_inv (by decide) rfl, fun _ => State.resetUnder_inv⟩

/-- Settles O51: the fields of `Block.reset`, whatever the parameters. -/
theorem resetValues : Obligations.ResetValues := by
  intro params p
  simp [State.dir, State.out, Memory.unlisted, State.resetUnder, Block.reset, Timer.reset]

end Sys2Proof.Machine
end

section
/-! Steps of an idle block and of a command in progress (R20, R21, R22, R31, R90, R201), and what
the read of an input register answers (R26, R62). -/

namespace Sys2Proof.Machine

/-! ### The word a step takes -/

/-- Settles O8: the test of the configuration is a step's first. -/
theorem stepRefusesIllFormedConfig : Obligations.StepRefusesIllFormedConfig := by
  intro s h
  rw [step_eq, if_neg (by simp [h])]

/-- Settles O9: a position that is not idle is where the step goes on. -/
theorem stepResumesCommandInProgress : Obligations.StepResumesCommandInProgress :=
  fun s _ => step_in_progress s

/-- An idle, awake block takes the host's next word, whatever the gap brings: a gap neither writes
`BUSY` nor takes a word nor puts the main context to sleep (R21). -/
theorem State.offered_between {s : State} (hb : s.busy = false) (ha : s.sleeping = false) :
    s.between.offered = s.cmds.head? := by
  simp [State.offered, s.between_frame.busy, s.between_frame.cmds, s.between_awake ha, hb]

theorem step_takes_word {s : State} {w : CmdWord} (hok : s.cfg.ok = true) (hu : s.upc = none)
    (hb : s.busy = false) (ha : s.sleeping = false) (hw : s.cmds.head? = some w) :
    step s = runWord w (s.between.accept w) := by
  rw [step_idle s hok hu, State.offered_between hb ha, hw]

/-- Settles O5: the step takes the word, which is carried out as the command it spells. -/
theorem stepRunsDecodedCommand : Obligations.StepRunsDecodedCommand := by
  intro s w i hok hu hb ha hw hdec
  rw [step_takes_word hok hu hb ha hw, runWord, hdec]

/-- Settles O6: the step takes the word, which spells nothing and is refused. -/
theorem stepRefusesUndecodedWord : Obligations.StepRefusesUndecodedWord := by
  intro s w e hok hu hb ha hw hdec
  rw [step_takes_word hok hu hb ha hw, runWord, hdec]
  rfl

/-! ### A block that waits -/

theorem State.offered_no_words {s : State} (h : s.cmds = []) : s.offered = none := by
  simp [State.offered, h]

/-- A block that waits lets a gap pass, and with no move in store the schedule of an idle block. -/
theorem State.linger_cases (s : State) : s.linger = s.between ∨ s.linger = s.between.fairIdle := by
  unfold State.linger
  split
  · exact .inr rfl
  · exact .inl rfl

theorem State.linger_frame (s : State) : GapFrame s s.linger := by
  obtain h | h := s.linger_cases
  · exact h ▸ s.between_frame
  · exact h ▸ s.between_frame.trans s.between.fairIdle_frame

theorem State.linger_gie (s : State) : s.linger.gie = s.gie := by
  obtain h | h := s.linger_cases <;> simp [h, State.fairIdle]

theorem State.linger_awake {s : State} (ha : s.sleeping = false) : s.linger.sleeping = false := by
  have hgap := s.between_awake ha
  obtain h | h := s.linger_cases
  · rwa [h]
  · rw [h]
    exact State.fairIdle_closed (P := fun u => u.sleeping = false) State.occur_sleeping_le hgap

/-- Awake, a gap takes one entry of the moves in store. -/
theorem State.between_env_tail {s : State} (ha : s.sleeping = false) :
    s.between.env = s.env.tail := by
  rw [s.between_eq_nextGap ha]
  unfold State.nextGap
  rw [s.drift_env]
  split
  · next he => simp [he]
  · next he => simp [he]

theorem State.linger_env {s : State} (ha : s.sleeping = false) : s.linger.env = s.env.tail := by
  obtain h | h := s.linger_cases <;> simp [h, State.fairIdle, State.between_env_tail ha]

/-- Driven lines draw nothing while the block waits (R113). -/
theorem State.linger_draws {s : State} (ha : s.sleeping = false) (hd : s.driven = true) :
    s.linger.draws = s.draws := by
  have hgap := State.between_draws ha hd
  obtain h | h := s.linger_cases
  · rwa [h]
  · rw [h]
    exact State.fairIdle_closed (P := fun u => u.draws = s.draws)
      (fun u e hu => (u.occur_draws e).trans hu) hgap

/-- A state that keeps a gap's frame, `GIE` and `SLEEPING` differs in what the environment, the
timers and undriven lines own. -/
theorem GapFrame.eq_update {s t : State} (f : GapFrame s t) (hgie : t.gie = s.gie)
    (hsleep : t.sleeping = s.sleeping) :
    t = { s with
      env := t.env, ext := t.ext, tick := t.tick, sec := t.sec, tmrT := t.tmrT, tmrS := t.tmrS,
      chain := t.chain, draws := t.draws } := by
  rw [← f.cfg, ← f.cmds, ← f.cmd, ← f.res, ← f.busy, ← f.upc, ← f.temps, ← f.dly, ← f.mscnt, ← f.io,
    ← f.se, ← f.cmderr, ← f.edges, ← hgie, ← hsleep]

/-- Settles O48: with no word offered the step is `linger`, a gap and perhaps the idle schedule. -/
theorem idleStepOnlyWaits : Obligations.IdleStepOnlyWaits := by
  intro s hok hu ha hw
  have hnone : s.between.offered = none :=
    State.offered_no_words (s.between_frame.cmds.trans hw)
  have hstep : step s = .next s.linger := by rw [step_idle s hok hu, hnone]
  have f := s.linger_frame
  exact ⟨s.linger, hstep, State.linger_env ha,
    f.eq_update s.linger_gie ((State.linger_awake ha).trans ha.symm),
    fun hd => ⟨f.chain hd, State.linger_draws ha hd⟩⟩

/-! ### Input registers -/

/-- Bit `k` of `IN[p]` is the level of the line (R26, R27). -/
theorem State.getBit_inByte (s : State) (pin : Pin) :
    getBit (s.inByte pin.port.toNat) pin.bit = s.level pin := by
  have hk : pin.bit.toNat < 8 := pin.bit.isLt
  unfold State.level State.inByte getBit
  rw [BitVec.getLsbD_or, BitVec.getLsbD_and, BitVec.getLsbD_and, BitVec.getLsbD_not]
  cases (s.dir pin.port.toNat).getLsbD pin.bit.toNat <;> simp [hk]

/-- Settles O19: the read answers `IN[p]` where the port exists, and no address is there where it
does not. -/
theorem inputRegisterReadsLevels : Obligations.InputRegisterReadsLevels := by
  refine fun s pin => ⟨fun h => ⟨s.inByte pin.port.toNat, ?_, s.getBit_inByte pin⟩, fun h => ?_⟩
  · rw [State.memRead, if_pos (inAddr_lt h), if_pos (inAddr_mod pin), inAddr_div]
  · have hport : s.cfg.nports ≤ pin.port.toNat := by simpa [Config.hasPin] using h
    rw [State.memRead, if_neg (by unfold inAddr; omega)]

end Sys2Proof.Machine
end

section
/-! What every step keeps: it is made of gaps, micro-steps, the end or the refusal of a command, and
the taking of a word (R12, R22, R90, R201). -/

namespace Sys2Proof.Machine

/-! ### Closure over commands and steps -/

section
variable {P : State → Prop} (gap : ∀ u, P u → P (State.between u))
  (upc : ∀ u x, P u → P { u with upc := x }) (finish : ∀ u op, P u → P (State.finish op u))
include gap upc finish

/-- What gaps and the listed micro-steps keep, a command in progress keeps. -/
theorem resume_closed {op : Instr} {ms : List Micro}
    (list : ∀ m ∈ ms, ∀ u v, micro m u = .next v → P u → P v) {s t : State} (h : P s)
    (hr : resume op ms s = .next t) : P t := by
  induction ms generalizing s with
  | nil => cases hr; exact finish s op h
  | cons m ms ih =>
    have hgap : P (s.gapAt op (m :: ms)) := gap _ (upc s _ h)
    rw [List.forall_mem_cons] at list
    rw [resume_cons] at hr
    split at hr
    · cases hr; exact hgap
    · obtain ⟨u, hm, hu⟩ := andThen_eq_next hr
      exact ih list.2 (list.1 _ u hm hgap) hu

theorem runOp_closed {op : Instr} {ms : List Micro}
    (list : ∀ m ∈ ms, ∀ u v, micro m u = .next v → P u → P v) {s t : State} (h : P s)
    (hr : runOp op ms s = .next t) : P t := by
  cases ms with
  | nil => cases hr; exact finish s op h
  | cons m ms =>
    rw [List.forall_mem_cons] at list
    rw [runOp_cons] at hr
    obtain ⟨u, hm, hu⟩ := andThen_eq_next hr
    exact resume_closed gap upc finish list.2 (list.1 _ u hm (upc s _ h)) hu

variable (refuse : ∀ u, P u → P (State.refuseCommand u))
include refuse

/-- What gaps, the micro-steps of its list and a refusal keep, a command keeps. -/
theorem exec_closed {i : Instr} {s t : State}
    (list : ∀ m ∈ progOf s.cfg i, ∀ u v, micro m u = .next v → P u → P v) (h : P s)
    (he : exec i s = .next t) : P t := by
  cases hwf : WellFormed s.cfg i with
  | false => rw [exec_illFormed hwf] at he; cases he; exact refuse s h
  | true =>
    rw [exec_wellFormed hwf] at he
    exact runOp_closed gap upc finish list h he

variable (micros : ∀ m u v, micro m u = .next v → P u → P v)
  (accept : ∀ u w, P u → P (State.accept u w)) (idle : ∀ u, P u → P (State.fairIdle u))
include micros accept idle

/-- What each piece of a step keeps, every step keeps. -/
theorem step_closed {s t : State} (h : P s) (hstep : step s = .next t) : P t := by
  rw [step_eq] at hstep
  split at hstep
  · split at hstep
    · exact resume_closed gap upc finish (fun m _ => micros m) h hstep
    · have hgap := gap s h
      split at hstep
      · next w _ =>
        have hacc := accept _ w hgap
        unfold runWord at hstep
        split at hstep
        · exact exec_closed gap upc finish refuse (fun m _ => micros m) hacc hstep
        · cases hstep; exact refuse _ hacc
      · cases hstep
        obtain hl | hl := s.linger_cases
        · exact hl ▸ hgap
        · exact hl ▸ idle _ hgap
  · cases hstep

end

/-! ### The parameters of the step relation -/

/-- What a step makes of the parameters: it takes words and moves off the front (R27, R31, R42). -/
structure ParamsFrame (s t : State) : Prop where
  cfg   : t.cfg = s.cfg
  cmds  : t.cmds <:+ s.cmds
  moves : MovesFrame s t

theorem ParamsFrame.trans {s t u : State} (h : ParamsFrame s t) (k : ParamsFrame t u) :
    ParamsFrame s u :=
  ⟨k.cfg.trans h.cfg, k.cmds.trans h.cmds, h.moves.trans k.moves⟩

theorem ParamsFrame.of_params {s t : State} (h : t.toInputs = s.toInputs) : ParamsFrame s t :=
  ⟨by rw [h], by rw [h], .of_eq (by rw [h]) (by rw [h])⟩

theorem GapFrame.params {s t : State} (f : GapFrame s t) (hm : MovesFrame s t) : ParamsFrame s t :=
  ⟨f.cfg, f.cmds ▸ List.suffix_refl _, hm⟩

/-- The taking of a word is the one piece of a step that takes from the words to come (R21). -/
theorem State.accept_params (s : State) (w : CmdWord) : ParamsFrame s (s.accept w) :=
  ⟨rfl, List.tail_suffix _, .of_eq rfl rfl⟩

theorem step_params {s t : State} (h : step s = .next t) : ParamsFrame s t :=
  step_closed (P := ParamsFrame s)
    (gap := fun u k => k.trans (u.between_frame.params u.between_moves))
    (upc := fun _ _ k => k.trans (.of_params rfl))
    (finish := fun u op k => k.trans (.of_params (u.finish_params op)))
    (refuse := fun _ k => k.trans (.of_params rfl))
    (micros := fun _ _ _ hm k => k.trans (.of_params (micro_params hm)))
    (accept := fun u w k => k.trans (u.accept_params w))
    (idle := fun u k => k.trans (u.fairIdle_frame.params u.fairIdle_moves))
    (.of_params rfl) h

/-- Settles O56. -/
theorem stepOnlyTakesParameters : Obligations.StepOnlyTakesParameters := by
  intro s t h
  obtain ⟨hcfg, hcmds, hmoves⟩ := step_params h
  exact ⟨hcfg, hcmds, hmoves.env, hmoves.ext⟩

/-! ### `CMDERR` and `RES` -/

/-- Settles O57: a refusal sets `CMDERR`, and no other piece of a step writes it. -/
theorem commandErrorIsSticky : Obligations.CommandErrorIsSticky :=
  fun _ _ => step_closed (P := fun u => u.cmderr = true)
    (gap := fun u h => u.between_frame.cmderr.trans h)
    (upc := fun _ _ h => h)
    (finish := fun u op h => (u.finish_cmderr op).trans h)
    (refuse := fun _ _ => rfl)
    (micros := fun _ _ _ hm h => (micro_frame hm).cmderr.trans h)
    (accept := fun _ _ h => h)
    (idle := fun u h => u.fairIdle_frame.cmderr.trans h)

/-- Settles O58: a list without a micro-step that writes `RES` leaves it, as every gap does. -/
theorem onlyReadsWriteResult : Obligations.OnlyReadsWriteResult := by
  intro i s t he
  refine (keepsRes_progOf s.cfg i).imp_left fun hlist => ?_
  exact exec_closed (P := fun u => u.res = s.res)
    (gap := fun u h => u.between_frame.res.trans h)
    (upc := fun _ _ h => h)
    (finish := fun u op h => (u.finish_res op).trans h)
    (refuse := fun _ h => h)
    (list := fun m hmem _ _ hm h => ((micro_frame hm).res (hlist m hmem)).trans h)
    rfl he

end Sys2Proof.Machine
end

section
/-! What reads and writes of the I/O register space answer, by the kind of the address (R25, R60,
R62, R63). -/

namespace Sys2Proof.Machine

variable {s t : State} {a : Nat}

theorem State.memRead_register (ha : a < 3 * s.cfg.nports) (hreg : a % 3 ≠ 1) :
    s.memRead a = .ok (Memory.get s.io a) := by
  rw [State.memRead, if_pos ha, if_neg hreg]

theorem State.memRead_beyond (ha : 3 * s.cfg.nports ≤ a) :
    s.memRead a = .error (.noRegister a) := by
  rw [State.memRead, if_neg ha.not_gt]

/-- What a read of an address that is no input register answers rests on the cell there alone. -/
theorem State.memRead_congr (hcfg : t.cfg = s.cfg) (hreg : a % 3 ≠ 1)
    (hcell : Memory.get t.io a = Memory.get s.io a) : t.memRead a = s.memRead a := by
  rcases Nat.lt_or_ge a (3 * s.cfg.nports) with ha | ha
  · rw [State.memRead_register ha hreg, State.memRead_register (hcfg ▸ ha) hreg, hcell]
  · rw [State.memRead_beyond ha, State.memRead_beyond (hcfg ▸ ha)]

theorem State.memWrite_register (v : Byte) (ha : a < 3 * s.cfg.nports) (hreg : a % 3 ≠ 1) :
    s.memWrite a v = .next { s with io := Memory.put s.io a v }.chainStep := by
  rw [State.memWrite, if_pos ha, if_neg hreg]

theorem State.memWrite_inputRegister (v : Byte) (ha : a < 3 * s.cfg.nports) (hin : a % 3 = 1) :
    s.memWrite a v = .fault (.inputRegister a) := by
  rw [State.memWrite, if_pos ha, if_pos hin]

theorem State.memWrite_beyond (v : Byte) (ha : 3 * s.cfg.nports ≤ a) :
    s.memWrite a v = .fault (.noRegister a) := by
  rw [State.memWrite, if_neg ha.not_gt]

/-- Settles O20: the write puts its cell and leaves the others, and the chain's edge rule after it
writes no register. -/
theorem memWriteTakesEffect : Obligations.MemWriteTakesEffect := by
  intro s a v hwf ha hreg
  refine ⟨_, State.memWrite_register v ha hreg, ?_, fun b hb hbreg => ?_⟩
  · have hlt : a < 3 * (State.chainStep { s with io := Memory.put s.io a v }).cfg.nports := by
      rwa [State.chainStep_cfg]
    rw [State.memRead_register hlt hreg, State.chainStep_io, Memory.get_put_same a v hwf]
  · refine State.memRead_congr (State.chainStep_cfg _) hbreg ?_
    rw [State.chainStep_io, Memory.get_put_other s.io v hb]

/-- Settles O21: no address is there past the last register, and an input register takes no
write. -/
theorem noRegisterThere : Obligations.NoRegisterThere :=
  fun _ _ v => ⟨fun ha => ⟨State.memRead_beyond ha, State.memWrite_beyond v ha⟩,
    State.memWrite_inputRegister v⟩

end Sys2Proof.Machine
end

section
/-! The tick service read and reset with interrupts disabled (R77, R157, R211). -/

namespace Sys2Proof.Machine

/-- `SECRD` takes `SEC` into `RES` and ends (R152). -/
theorem exec_secrd (s : State) :
    exec .secrd s = .next { s with res := s.sec, busy := false, upc := none } := rfl

/-- `SECCLR` clears `SEC` and ends (R154). -/
theorem exec_secclr (s : State) :
    exec .secclr s = .next { s with sec := 0#8, busy := false, upc := none } := rfl

/-- What a command finds when it starts with interrupts disabled: `RES` and the tick service's
counters as before the gap, and the words `rest` still to come (R77, R157). -/
structure MaskedFrame (rest : List CmdWord) (s t : State) : Prop where
  cmds : t.cmds = rest
  res  : t.res = s.res
  sec  : t.sec = s.sec
  tick : t.tick = s.tick
  gie  : t.gie = false

/-- With `GIE = 0` the gap before a command lets no handler in: an idle block takes the host's word
and carries it out with `SEC` and `TICK` as they were (R77, R157). -/
theorem step_masked {s : State} {w : CmdWord} {i : Instr} {rest : List CmdWord}
    (hinv : s.inv = true) (hu : s.upc = none) (hg : s.gie = false) (hw : s.cmds = w :: rest)
    (hdec : decode w = .ok i) : ∃ v, step s = exec i v ∧ MaskedFrame rest s v := by
  obtain ⟨hok, -⟩ := s.inv_iff.1 hinv
  obtain ⟨hb, ha, -⟩ := State.inv_idle hinv hu
  obtain ⟨htick, hsec⟩ := s.between_masked ha hg
  have f := s.between_frame
  exact ⟨s.between.accept w, stepRunsDecodedCommand s w i hok hu hb ha (by simp [hw]) hdec,
    { cmds := by rw [State.accept_cmds, f.cmds, hw, List.tail_cons]
      res := f.res
      sec := hsec
      tick := htick
      gie := s.between_gie.trans hg }⟩

/-- Settles O42: both commands run with the tick handler kept out, and the read leaves the block
idle, masked and inside the invariant for the reset. -/
theorem maskedReadAndClearIsAtomic : Obligations.MaskedReadAndClearIsAtomic := by
  intro s rest hinv hu hg hw
  have hread : decode 0x3100000000#40 = .ok .secrd := by decide
  have hclear : decode 0x3200000000#40 = .ok .secclr := by decide
  obtain ⟨v, hv, fv⟩ := step_masked hinv hu hg hw hread
  rw [exec_secrd] at hv
  obtain ⟨x, hx, fx⟩ :=
    step_masked (stepKeepsInvariant _ _ hinv hv) rfl fv.gie fv.cmds hclear
  rw [exec_secclr] at hx
  exact ⟨_, _, hv, hx, fv.sec, fx.res.trans fv.sec, rfl, fx.tick.trans fv.tick, fx.gie⟩

end Sys2Proof.Machine
end

section
/-! The opcode map read both ways: a word matches at most one row (R87), a command's word spells the
command (R80 to R87), and a word that spells a command is that command's word (R81, R90). -/

namespace Sys2Proof

/-! ### One row for a word -/

/-- A word matches a row field by field (R80, R87). -/
theorem rowMatches_iff (w : CmdWord) (r : Row) : rowMatches w r = true ↔
    opField w &&& opField r.mask = opField r.pattern ∧
    aField w &&& aField r.mask = aField r.pattern ∧
    bField w &&& bField r.mask = bField r.pattern ∧
    cField w &&& cField r.mask = cField r.pattern ∧
    dField w &&& dField r.mask = dField r.pattern := by
  conv_lhs => rw [← cmdWord_fields w, rowMatches_cmdWord]
  simp only [Bool.and_eq_true, decide_eq_true_eq, and_assoc]

theorem and_fullByte (v : Byte) : v &&& 0xFF#8 = v := BitVec.and_allOnes

/-- Every row's mask covers the whole of `op`, so a word that matches the row has its `op` (R87). -/
theorem opField_of_rowMatches {w : CmdWord} {r : Row} (hr : r ∈ opcodeRows)
    (h : rowMatches w r = true) : opField r.pattern = opField w := by
  have hmask : ∀ r ∈ opcodeRows, opField r.mask = 0xFF#8 := by decide
  obtain ⟨hop, -⟩ := (rowMatches_iff w r).1 h
  rw [← hop, hmask r hr, and_fullByte]

/-- No two rows have one `op` (R86). -/
theorem opcodeRows_ops_nodup : (opcodeRows.map fun r => opField r.pattern).Nodup := by decide

/-- Settles O4: the rows that match a word all have the word's `op`, and no two rows have one
`op`. -/
theorem wordMatchesOneRow : Obligations.WordMatchesOneRow := by
  intro w
  have hops : (opcodeRows.filter (rowMatches w)).map (fun r => opField r.pattern) =
      List.replicate (opcodeRows.filter (rowMatches w)).length (opField w) := by
    rw [List.map_eq_replicate_iff]
    intro r hr
    obtain ⟨hmem, hmatch⟩ := List.mem_filter.1 hr
    exact opField_of_rowMatches hmem hmatch
  have hsub : (opcodeRows.filter (rowMatches w)).Sublist opcodeRows := List.filter_sublist
  have hnodup := List.Nodup.sublist (hsub.map _) opcodeRows_ops_nodup
  rwa [hops, List.nodup_replicate] at hnodup

/-! ### Operand bytes and the operands they hold (R81 to R84) -/

@[simp] theorem byteOfPin_pinOfByte (v : Byte) : byteOfPin (pinOfByte v) = v :=
  BitVec.extractLsb'_append_extractLsb'

@[simp] theorem pinOfByte_byteOfPin (pin : Pin) : pinOfByte (byteOfPin pin) = pin := by
  rw [pinOfByte, byteOfPin, BitVec.extractLsb'_append_eq_left, BitVec.extractLsb'_append_eq_right]

@[simp] theorem valOfByte_byteOfVal (val : Bool) : valOfByte (byteOfVal val) = val := by
  cases val <;> rfl

/-- A byte with `b[7:1] = 0` is its `val` bit (R81). -/
theorem byteOfVal_valOfByte {v : Byte} (h : v &&& 0xFE#8 = 0#8) : byteOfVal (valOfByte v) = v := by
  revert v; decide

@[simp] theorem dirOfVal_valOfDir (dir : Direction) : dirOfVal (valOfDir dir) = dir := by
  cases dir <;> rfl

@[simp] theorem valOfDir_dirOfVal (val : Bool) : valOfDir (dirOfVal val) = val := by
  cases val <;> rfl

@[simp] theorem imm16_bytes (ms : Millis) :
    imm16 (ms.extractLsb' 8 8) (ms.extractLsb' 0 8) = ms :=
  BitVec.extractLsb'_append_extractLsb'

@[simp] theorem highByte_imm16 (a b : Byte) : (imm16 a b).extractLsb' 8 8 = a :=
  BitVec.extractLsb'_append_eq_left

@[simp] theorem lowByte_imm16 (a b : Byte) : (imm16 a b).extractLsb' 0 8 = b :=
  BitVec.extractLsb'_append_eq_right

/-! ### The word of a command spells it -/

/-- The word of every command matches the row of its mnemonic and no other (R87). -/
theorem Laws.Encoded.statement : ∀ i : Instr, Laws.Encoded.Statement i
  | .pdir pin dir => pdir pin dir
  | .prd pin => prd pin
  | .pwr pin lvl => pwr pin lvl
  | .dinit => dinit
  | .shb byte => shb byte
  | .lat => lat
  | .ind s0 s1 s2 s3 => ind s0 s1 s2 s3
  | .bdly units => bdly units
  | .slpms ms => slpms ms
  | .tstart => tstart
  | .secrd => secrd
  | .secclr => secclr
  | .ien => ien
  | .idis => idis
  | .sym digit => sym digit

/-- The row of a command's mnemonic reads the operands back from the command's word (R82 to R85). -/
theorem build_encode (i : Instr) {r : Row} (hr : r ∈ opcodeRows)
    (hname : r.mnemonic = Laws.Encoded.mnemonic i) : r.build (encode i) = i := by
  revert r
  cases i <;>
    simp [opcodeRows, gpioRows, displayRows, timingRows, serviceRows, Laws.Encoded.mnemonic, encode]

/-- A word spells the command that the first row it matches reads from it (R87). -/
theorem decode_eq_ok_iff (w : CmdWord) (i : Instr) : decode w = .ok i ↔
    ∃ r, opcodeRows.find? (rowMatches w) = some r ∧ r.build w = i := by
  unfold decode
  cases opcodeRows.find? (rowMatches w) <;> simp

/-- Settles O2: the one row that matches the word is the command's, and reads its operands back. -/
theorem decodeOfEncode : Obligations.DecodeOfEncode := by
  intro i
  obtain ⟨r, hfilter, hname⟩ := List.map_eq_singleton_iff.1 (Laws.Encoded.statement i)
  have hfind : opcodeRows.find? (rowMatches (encode i)) = some r := by
    rw [← List.head?_filter, hfilter, List.head?_cons]
  exact (decode_eq_ok_iff _ i).2
    ⟨r, hfind, build_encode i (List.mem_of_find?_eq_some hfind) hname⟩

/-! ### A word that spells a command is the command's word -/

/-- Every word the row matches is the word of the command the row reads from it: what the mask
leaves out are the bits of the operands (R81, R87). -/
def Row.Spells (r : Row) : Prop := ∀ w, rowMatches w r = true → encode (r.build w) = w

/-- A row spells its commands when, of every word whose masked bytes are the row's, the command's
word is put together from the same five fields. -/
theorem Row.spells_iff (r : Row) : r.Spells ↔ ∀ w,
    opField w &&& opField r.mask = opField r.pattern ∧
    aField w &&& aField r.mask = aField r.pattern ∧
    bField w &&& bField r.mask = bField r.pattern ∧
    cField w &&& cField r.mask = cField r.pattern ∧
    dField w &&& dField r.mask = dField r.pattern →
      encode (r.build w) = cmdWord (opField w) (aField w) (bField w) (cField w) (dField w) := by
  simp only [Row.Spells, rowMatches_iff, cmdWord_fields]

/-- Where the row's mask covers a byte the word has the row's byte; where it does not, the byte
holds an operand and its conversions undo each other: pins and levels in the GPIO rows, a
sixteen-bit count in a timing row, and elsewhere the byte itself (R81 to R85). -/
theorem opcodeRows_spell : ∀ r ∈ opcodeRows, r.Spells := by
  simp only [opcodeRows, List.forall_mem_append, Row.spells_iff]
  refine ⟨⟨⟨?gpio, ?display⟩, ?timing⟩, ?service⟩
  case gpio =>
    simp +contextual [gpioRows, encode, opField, aField, bField, cField, dField, and_fullByte,
      byteOfVal_valOfByte]
  case display =>
    simp +contextual [displayRows, encode, opField, aField, bField, cField, dField, and_fullByte]
  case timing =>
    simp +contextual [timingRows, encode, opField, aField, bField, cField, dField, and_fullByte]
  case service =>
    simp +contextual [serviceRows, encode, opField, aField, bField, cField, dField, and_fullByte]

/-- Settles O3: the command is read by a row that matches the word, and every row spells. -/
theorem encodeOfDecode : Obligations.EncodeOfDecode := by
  intro w i h
  obtain ⟨r, hfind, rfl⟩ := (decode_eq_ok_iff w i).1 h
  exact opcodeRows_spell r (List.mem_of_find?_eq_some hfind) w (List.find?_some hfind)

/-- Settles O1: seven words run through the decoder. -/
theorem specWordsDecode : Obligations.SpecWordsDecode := by
  unfold Obligations.SpecWordsDecode
  decide

end Sys2Proof

namespace Sys2Proof.Machine

/-- Settles O7: `exec_illFormed`, the refusal written out field by field. -/
theorem execRefusesIllFormedCommand : Obligations.ExecRefusesIllFormedCommand :=
  fun _ _ => exec_illFormed

end Sys2Proof.Machine
end

section
/-! The GPIO pin operations (R100 to R106): what `PDIR`, `PRD` and `PWR` leave when they end, and
what the driven chain makes of them (R110, R111, R112). -/

namespace Sys2Proof.Machine

/-! ### What a `PDIR` piece has done -/

/-- What a `PDIR` piece has done, bit by bit. -/
structure PdirDone (pin : Pin) (b : Bool) (s t : State) : Prop extends KeepFrame s t where
  dly    : t.dly = s.dly
  isOut  : ∀ q, t.isOutput q = if q = pin then b else s.isOutput q
  out    : ∀ p, t.out p = s.out p
  others : ∀ a, a ≠ dirAddr pin → Memory.get t.io a = Memory.get s.io a
  sees   : SeesOnce s t

theorem WriteDone.pdir {pin : Pin} {b : Bool} {s t : State} (hwf : Memory.wf s.io = true)
    (h : WriteDone (dirAddr pin) (putBit (s.dir pin.port.toNat) pin.bit b) s t) :
    PdirDone pin b s t where
  toKeepFrame := h.toKeepFrame
  dly := h.dly
  isOut := fun q => (State.isOutput_congr h.io q).trans (s.isOutput_put_dir b q hwf)
  out := fun p => (congrArg (Memory.get · _) h.io).trans (s.out_put_dir _ p)
  others := fun a ha => by rw [h.io, Memory.get_put_other _ _ ha]
  sees := h.sees

/-- `PDIR` of a pin that is no display pin moves no line of the driven chain (R112). -/
theorem PdirDone.keptChain {pin : Pin} {b : Bool} {s t : State} (h : PdirDone pin b s t)
    (hs : s.synced = true) (hpin : pin ∉ [s.cfg.clkPin, s.cfg.latPin, s.cfg.datPin]) :
    s.keptChain t := by
  intro hd
  have isOut {q : Pin} (hq : q ∈ [s.cfg.clkPin, s.cfg.latPin, s.cfg.datPin]) :
      t.isOutput q = s.isOutput q := by rw [h.isOut, if_neg (ne_of_mem_of_not_mem hq hpin)]
  have hdt : t.driven = true := by
    rw [← hd]; unfold State.driven; rw [h.cfg, isOut (by simp), isOut (by simp), isOut (by simp)]
  obtain ⟨hclk, hlat, -⟩ := State.driven_level hdt
  obtain ⟨pclk, plat⟩ := State.synced_prev hs hd
  rw [h.cfg, h.out, ← pclk] at hclk
  rw [h.cfg, h.out, ← plat] at hlat
  obtain ⟨hchain, hedges⟩ := h.sees hd hdt
  rw [hclk, hlat] at hchain hedges
  rw [Chain.sense_steady] at hchain
  rw [Chain.seen_steady, List.nil_append] at hedges
  exact ⟨hchain, hedges⟩

/-! ### Levels and the chain after a `PWR` piece -/

/-- An output pin's line has the level of its `OUT` bit, an input pin's the environment's (R27). -/
theorem State.level_eq (s : State) (pin : Pin) :
    s.level pin = if s.isOutput pin then getBit (s.out pin.port.toNat) pin.bit
      else getBit (s.extLevels pin.port.toNat) pin.bit := rfl

/-- Other levels of the environment move the lines of input pins alone (R27). -/
theorem State.level_setExt (s : State) (levels : Memory) (pin : Pin) :
    State.level { s with ext := levels } pin =
      if s.isOutput pin then getBit (s.out pin.port.toNat) pin.bit
      else getBit (Memory.get levels pin.port.toNat) pin.bit := rfl

/-- `PWR` moves the line of its own pin alone, and that only while the pin is an output (R103,
R104). -/
theorem PwrDone.level {pin : Pin} {b : Bool} {s t : State} (h : PwrDone pin b s t) (q : Pin) :
    t.level q =
      if s.isOutput q then if q = pin then b else getBit (s.out q.port.toNat) q.bit
      else getBit (t.extLevels q.port.toNat) q.bit := by
  rw [t.level_eq, h.isOut, h.bit]

/-- With the latch line steady the chain shifts on a rising clock line, and does no more (R110). -/
theorem Chain.sense_latSteady (ch : Chain) (c d : Bool) : ch.sense c ch.latPrev d =
    { ch with sr := if c && !ch.clkPrev then shiftIn ch.sr d else ch.sr, clkPrev := c } := by
  simp [Chain.sense, Bool.and_comm c]

/-- With the clock line steady the chain latches on a rising latch line, and does no more (R111). -/
theorem Chain.sense_clkSteady (ch : Chain) (l d : Bool) : ch.sense ch.clkPrev l d =
    { ch with qout := if l && !ch.latPrev then ch.sr else ch.qout, latPrev := l } := by
  simp [Chain.sense, Bool.and_comm l]

/-! ### The commands -/

section
variable {pin : Pin} {s : State}

/-- `PDIR` ends with its bit of the direction register written (R100). -/
theorem exec_pdir (dir : Direction) (hr : s.ready = true) (hp : s.cfg.hasPin pin = true) :
    ∃ t, exec (.pdir pin dir) s = .next (t.finish (.pdir pin dir)) ∧
      PdirDone pin (dir = .output) s t := by
  obtain ⟨-, hwf, -, ha⟩ := s.ready_iff.1 hr
  obtain ⟨t, hstart, hw⟩ := pdir_starts (.pdir pin dir) [] pin dir ha hp
  exact ⟨t, (exec_wellFormed (i := .pdir pin dir) hp).trans hstart.finish, hw.pdir hwf⟩

/-- `PWR` ends with its bit of the output register written (R104). -/
theorem exec_pwr (lvl : Bool) (hr : s.ready = true) (hp : s.cfg.hasPin pin = true) :
    ∃ t, exec (.pwr pin lvl) s = .next (t.finish (.pwr pin lvl)) ∧ PwrDone pin lvl s t := by
  obtain ⟨-, hwf, -, ha⟩ := s.ready_iff.1 hr
  obtain ⟨t, hstart, hw⟩ := pwr_starts (.pwr pin lvl) [] pin (.lit lvl) ha hp
  exact ⟨t, (exec_wellFormed (i := .pwr pin lvl) hp).trans hstart.finish, hw.pwr hwf⟩

/-- `PRD` ends with the level of the line in `RES` (R102). -/
theorem exec_prd (hp : s.cfg.hasPin pin = true) :
    exec (.prd pin) s = .next (State.finish (.prd pin)
      { s.setTmp (s.inByte pin.port.toNat) with res := zextBit (s.level pin) }) := by
  rw [exec_wellFormed (i := .prd pin) hp, ← s.getBit_inByte pin]
  have hsample := State.samplePin_hasPin (s := s.atStart (.prd pin) (prdProg pin)) hp
  exact congrArg (andThen · (resume (.prd pin) [])) hsample

end

/-- Settles O13: the piece `PDIR` starts with is all of it, and its end writes no register. -/
theorem pdirWritesDirectionBit : Obligations.PdirWritesDirectionBit := by
  intro pin dir s hr hp
  obtain ⟨-, -, hs, -⟩ := s.ready_iff.1 hr
  obtain ⟨t, he, h⟩ := exec_pdir dir hr hp
  refine ⟨_, he, h.finish_ended _, by cases dir <;> rfl, rfl, ?_, fun q hq => ?_, fun a ha => ?_,
    ?_, ?_, ?_, ?_, h.finish_host _, h.finish_quiet _, fun hd hdt => ?_, fun hpin hd => ?_⟩
  · rw [State.finish_isOutput, h.isOut, if_pos rfl]
  · rw [State.finish_isOutput, h.isOut, if_neg hq]
  · rw [State.finish_io, h.others a (by simpa using ha)]
  · rw [State.finish_res, h.res]
  · rw [State.finish_dly, h.dly]
  · rw [State.finish_mscnt, h.mscnt]
  · rw [State.finish_se, h.se]
  · rw [State.finish_driven] at hdt
    simp only [State.finish_level, State.finish_chain]
    exact (h.sees hd hdt).1
  · rw [State.finish_chain, State.finish_edges]
    exact h.keptChain hs hpin hd

/-- Settles O14: the command's one micro-step samples the line. -/
theorem prdReadsLineLevel : Obligations.PrdReadsLineLevel :=
  fun _ _ hp => ⟨_, exec_prd hp, rfl, rfl, rfl, rfl, rfl, rfl⟩

/-- Settles O15: the piece `PWR` starts with is all of it, and its end writes no register. -/
theorem pwrWritesOutputBit : Obligations.PwrWritesOutputBit := by
  intro pin lvl s hr hp
  obtain ⟨t, he, h⟩ := exec_pwr lvl hr hp
  refine ⟨_, he, h.finish_ended _, rfl, rfl, ?_, fun q hq => ?_, fun a ha => ?_, fun ho => ?_,
    fun ho => ?_, ?_, ?_, ?_, ?_, h.finish_host _, h.finish_quiet _, fun hd => ?_⟩
  · rw [State.finish_out, h.bit, if_pos rfl]
  · rw [State.finish_out, h.line.keptO q hq]
  · rw [State.finish_io, h.line.keptI a ha]
  · rw [State.finish_level, h.level, if_pos ho, if_pos rfl]
  · rw [State.finish_level, h.level, if_neg (by simp [ho]), State.extLevels, State.extLevels,
      State.finish_ext]
  · rw [State.finish_res, h.res]
  · rw [State.finish_dly, h.dly]
  · rw [State.finish_mscnt, h.mscnt]
  · rw [State.finish_se, h.se]
  · simp only [State.finish_level, State.finish_chain, State.finish_edges]
    exact h.sees hd (h.driven.trans hd)

/-- Settles O16: `PWR` of the clock pin holds the latch line, and the chain's previous clock level
is the line's. -/
theorem pwrClocksTheChain : Obligations.PwrClocksTheChain := by
  intro lvl s hr hd
  obtain ⟨hok, -, hs, -⟩ := s.ready_iff.1 hr
  obtain ⟨hlat, hdat, -⟩ := Config.ok_distinct hok
  obtain ⟨hclk, -, hlevel⟩ := State.driven_level hd
  obtain ⟨t, he, h⟩ := exec_pwr lvl hr (Config.ok_hasClk hok)
  have hchain := (h.chain_eq hs hd).1
  rw [if_pos rfl, if_neg hlat.symm, if_neg hdat.symm, Chain.sense_latSteady, ← hlevel,
    (State.synced_prev hs hd).1, ← hclk] at hchain
  refine ⟨_, he, h.finish_ended _, ?_, ?_⟩
  · rw [State.finish_chain, hchain]
    rfl
  · rw [State.finish_chain, hchain]

/-- Settles O17: `PWR` of the latch pin holds the clock line, and the chain's previous latch level
is the line's. -/
theorem pwrLatchesTheChain : Obligations.PwrLatchesTheChain := by
  intro lvl s hr hd
  obtain ⟨hok, -, hs, -⟩ := s.ready_iff.1 hr
  obtain ⟨hclk, -, -⟩ := Config.ok_distinct hok
  obtain ⟨-, hlat, -⟩ := State.driven_level hd
  obtain ⟨t, he, h⟩ := exec_pwr lvl hr (Config.ok_hasLat hok)
  have hchain := (h.chain_eq hs hd).1
  rw [if_neg hclk, if_pos rfl, Chain.sense_clkSteady, (State.synced_prev hs hd).2,
    ← hlat] at hchain
  refine ⟨_, he, h.finish_ended _, ?_, ?_⟩
  · rw [State.finish_chain, hchain]
  · rw [State.finish_chain, hchain]

/-- Settles O18: the one line that `PWR` could move is an input pin's. -/
theorem inputPinWriteMovesNoLine : Obligations.InputPinWriteMovesNoLine := by
  intro pin lvl s hr hp hin
  obtain ⟨t, he, h⟩ := exec_pwr lvl hr hp
  refine ⟨_, he, h.finish_ended _, fun q => ?_⟩
  rw [State.finish_level, State.finish_ext, h.level, State.level_setExt]
  split
  · next ho => exact if_neg fun e => by simp [e, hin] at ho
  · rfl

end Sys2Proof.Machine
end

section
/-! The chain and the shift-latch operations (R110 to R119): the edge rule bit by bit, what `SHB`
and `LAT` leave when they end, and what `PDIR` makes of a line it stops driving. -/

namespace Sys2Proof.Machine

/-! ### One shift, bit by bit -/

/-- A shift takes the data level in at position 0 (R110). -/
theorem shiftIn_bit_zero (sr : ChainWord) (d : Bool) : (shiftIn sr d).getLsbD 0 = d := by
  rw [shiftIn, BitVec.getLsbD_append]
  simp

/-- A shift moves every bit but the last up by one position (R110). -/
theorem shiftIn_bit_succ (sr : ChainWord) (d : Bool) {j : Nat} (hj : j < 15) :
    (shiftIn sr d).getLsbD (j + 1) = sr.getLsbD j := by
  rw [shiftIn, BitVec.getLsbD_append]
  simp [hj]

/-- Settles O22: with the latch line steady the edge rule is one conditional shift. -/
theorem clockEdgeShifts : Obligations.ClockEdgeShifts := by
  intro ch c d ch'
  have hstep : ch' = _ := ch.sense_latSteady c d
  rw [hstep]
  refine ⟨fun hprev hc => ?_, fun hno => if_neg ?_, rfl⟩
  · subst hc
    rw [hprev]
    exact ⟨shiftIn_bit_zero _ _, fun _ => shiftIn_bit_succ _ _⟩
  · rcases hno with h | h <;> simp [h]

/-- Settles O23: with the clock line steady the edge rule is one conditional copy. -/
theorem latchEdgeCopies : Obligations.LatchEdgeCopies := by
  intro ch l d ch'
  have hstep : ch' = _ := ch.sense_clkSteady l d
  rw [hstep]
  refine ⟨fun hprev hl => if_pos ?_, fun hno => if_neg ?_, rfl⟩
  · simp [hprev, hl]
  · rcases hno with h | h <;> simp [h]

/-! ### Display pins -/

/-- The three display pins of a well-formed configuration are pins of existing ports (R31). -/
theorem Config.hasPin_display {c : Config} {pin : Pin} (hok : c.ok = true)
    (hpin : pin ∈ [c.clkPin, c.latPin, c.datPin]) : c.hasPin pin = true := by
  simp only [List.mem_cons, List.not_mem_nil, or_false] at hpin
  obtain rfl | rfl | rfl := hpin
  · exact Config.ok_hasClk hok
  · exact Config.ok_hasLat hok
  · exact Config.ok_hasDat hok

/-- One display pin that is an input leaves a line of the chain undriven (R113). -/
theorem State.driven_of_input {s : State} {pin : Pin}
    (hpin : pin ∈ [s.cfg.clkPin, s.cfg.latPin, s.cfg.datPin]) (hin : s.isOutput pin = false) :
    s.driven = false := by
  simp only [List.mem_cons, List.not_mem_nil, or_false] at hpin
  obtain rfl | rfl | rfl := hpin <;> simp [State.driven, hin]

/-! ### What the end of a command keeps of its line frame -/

theorem LineFrame.finish_keptOut {W : List Pin} {s t : State} (h : LineFrame W s t) (op : Instr) :
    s.keptOut (t.finish op) W := fun q hq => by
  rw [State.finish_out, h.keptO q hq]

theorem LineFrame.finish_keptIo {W : List Pin} {s t : State} (h : LineFrame W s t) (op : Instr) :
    s.keptIo (t.finish op) (W.map outAddr) := fun a ha => by
  rw [State.finish_io, h.keptI a ha]

/-! ### The commands -/

section
variable {s : State}

/-- `SHB` ends with its byte shifted in (R115). -/
theorem exec_shb (byte : Byte) (hr : s.ready = true) :
    ∃ t, exec (.shb byte) s = .next (t.finish (.shb byte)) ∧ ShbDone byte s t := by
  obtain ⟨hok, hwf, -, ha⟩ := s.ready_iff.1 hr
  obtain ⟨t, hstart, h⟩ := shb_starts (.shb byte) [] (.lit byte) ha hok hwf
  exact ⟨t, hstart.finish, h⟩

/-- `LAT` ends with the latch line pulsed (R116). -/
theorem exec_lat (hr : s.ready = true) :
    ∃ t, exec .lat s = .next (t.finish .lat) ∧ PulseDone s.cfg.latPin s t := by
  obtain ⟨hok, hwf, -, ha⟩ := s.ready_iff.1 hr
  obtain ⟨t, hstart, h⟩ := pulse_starts .lat [] s.cfg.latPin s.cfg ha hok hwf
    (Config.ok_hasLat hok)
  exact ⟨t, hstart.finish, h⟩

/-- A pulse of the latch line copies `SR` to `QOUT` and makes that one edge (R111, R114). -/
theorem PulseDone.latch {t : State} (h : PulseDone s.cfg.latPin s t) (hok : s.cfg.ok = true)
    (hs : s.synced = true) (hd : s.driven = true) :
    t.chain = { s.chain with qout := s.chain.sr, latPrev := true } ∧
      t.edges = .lat s.chain.sr :: s.edges := by
  obtain ⟨hclk, -, -⟩ := Config.ok_distinct hok
  simpa only [afterPulse, pulseEdge, if_neg hclk.symm] using h.chain hs hd (.inr rfl)

/-- `PDIR` of a display pin to input draws the chain's registers anew (R113). -/
theorem exec_pdir_undrives {pin : Pin} (hr : s.ready = true) (hd : s.driven = true)
    (hpin : pin ∈ [s.cfg.clkPin, s.cfg.latPin, s.cfg.datPin]) :
    ∃ t : State, exec (.pdir pin .input) s = .next (t.finish (.pdir pin .input)) ∧
      t.driven = false ∧ t.chain = chainDraw s.draws := by
  obtain ⟨hok, hwf, -, ha⟩ := s.ready_iff.1 hr
  have hp := Config.hasPin_display hok hpin
  obtain ⟨t, hstart, hw⟩ := pdir_starts (.pdir pin .input) [] pin .input ha hp
  have hin : t.isOutput pin = false := by rw [(hw.pdir hwf).isOut, if_pos rfl]; rfl
  have hdt : t.driven = false := State.driven_of_input (hw.cfg ▸ hpin) hin
  exact ⟨t, (exec_wellFormed (i := .pdir pin .input) hp).trans hstart.finish, hdt,
    hw.undrive hd hdt⟩

end

/-- Settles O24: `SHB` is one load and eight passes, and its end writes no register. -/
theorem shbShiftsItsByte : Obligations.ShbShiftsItsByte := by
  intro byte s hr
  obtain ⟨-, -, hs, -⟩ := s.ready_iff.1 hr
  obtain ⟨t, he, h⟩ := exec_shb byte hr
  refine ⟨_, he, h.finish_ended _, rfl, ?_, ?_, h.finish_keptOut _, h.finish_keptIo _,
    ?_, ?_, ?_, ?_, h.finish_host _, h.finish_quiet _, fun hd => ?_⟩
  · rw [State.finish_out, h.clkHigh]
  · rw [State.finish_out, h.datBit]
  · rw [State.finish_dly, h.dly]
  · rw [State.finish_res, h.res]
  · rw [State.finish_mscnt, h.mscnt]
  · rw [State.finish_se, h.se]
  · rw [State.finish_chain, State.finish_edges]
    exact h.chain hs hd

/-- Settles O25: `LAT` is one pulse of the latch line, and its end writes no register. -/
theorem latCopiesChainToOutputs : Obligations.LatCopiesChainToOutputs := by
  intro s hr
  obtain ⟨hok, -, hs, -⟩ := s.ready_iff.1 hr
  obtain ⟨t, he, h⟩ := exec_lat hr
  refine ⟨_, he, h.finish_ended _, rfl, rfl, ?_, h.finish_keptOut _, h.finish_keptIo _,
    ?_, ?_, ?_, ?_, h.finish_host _, h.finish_quiet _, fun hd => ?_⟩
  · rw [State.finish_out, h.high]
  · rw [State.finish_dly, h.dly]
  · rw [State.finish_res, h.res]
  · rw [State.finish_mscnt, h.mscnt]
  · rw [State.finish_se, h.se]
  · rw [State.finish_chain, State.finish_edges]
    exact h.latch hok hs hd

/-- Settles O26: the write of the direction register leaves a line undriven, so the edge rule draws
the chain's registers, and the command's end keeps them. -/
theorem undrivenChainIsFree : Obligations.UndrivenChainIsFree := by
  intro pin s hr hd hpin
  obtain ⟨t, he, hdt, hchain⟩ := exec_pdir_undrives hr hd hpin
  exact ⟨_, he, (t.finish_driven _).trans hdt, (t.finish_chain _).trans hchain⟩

end Sys2Proof.Machine
end

section
/-! `DINIT` and the frames of `IND` (R125 to R130): what a run of initialized pins and a run of
digits leave, whatever the gaps bring. -/

namespace Sys2Proof.Machine

/-- Settles O30: the two branches of the polarity choice. -/
theorem polarityInverts : Obligations.PolarityInverts := by
  intro c v
  refine ⟨fun hcathode => ?_, fun hanode => if_pos hanode⟩
  have hcomplement (w : Byte) : segmentByte c w = ~~~w := if_neg (by simp [hcathode])
  exact ⟨hcomplement v, hcomplement _⟩

/-- A command whose last micro-step left the main context awake has ended (R21, R22). -/
theorem State.finish_ended {t : State} (op : Instr) (ha : t.sleeping = false) :
    (t.finish op).ended = true := by
  simp [State.ended, ha]

/-! ### `DINIT` -/

/-- What initializing the pins `W`, one after another, leaves (R125). -/
structure InitsDone (W : List Pin) (s t : State) : Prop extends KeepFrame s t where
  dly    : t.dly = s.dly
  wf     : Memory.wf t.io = true
  synced : t.synced = true
  isOut  : ∀ q, t.isOutput q = (decide (q ∈ W) || s.isOutput q)
  bit    : ∀ q : Pin, getBit (t.out q.port.toNat) q.bit =
    if q ∈ W then false else getBit (s.out q.port.toNat) q.bit
  others : ∀ a, (∀ q ∈ W, a ≠ dirAddr q ∧ a ≠ outAddr q) → Memory.get t.io a = Memory.get s.io a
  chain  : s.synced = true → s.driven = true → t.driven = true ∧ t.chain.sr = s.chain.sr ∧
    t.chain.qout = s.chain.qout ∧ t.edges = s.edges

theorem InitDone.inits {pin : Pin} {s t : State} (h : InitDone pin s t) : InitsDone [pin] s t where
  toKeepFrame := h.toKeepFrame
  dly := h.dly
  wf := h.wf
  synced := h.synced
  isOut := by simpa using h.isOut
  bit := by simpa using h.bit
  others := fun a ha => have ⟨hdir, hout⟩ := ha pin (by simp); h.others a hdir hout
  chain := h.chain

theorem InitsDone.append {W V : List Pin} {s t u : State} (h : InitsDone W s t)
    (k : InitsDone V t u) : InitsDone (W ++ V) s u where
  toKeepFrame := h.toKeepFrame.trans k.toKeepFrame
  dly := k.dly.trans h.dly
  wf := k.wf
  synced := k.synced
  isOut := fun q => by
    rw [k.isOut, h.isOut, ← Bool.or_assoc, ← Bool.decide_or]
    simp only [List.mem_append, or_comm]
  bit := fun q => by
    rw [k.bit, h.bit]
    by_cases hW : q ∈ W <;> simp [hW]
  others := fun a ha => by
    rw [k.others a fun q hq => ha q (List.mem_append_right W hq),
      h.others a fun q hq => ha q (List.mem_append_left V hq)]
  chain := fun hs hd => by
    obtain ⟨hdt, hsr, hqout, hedges⟩ := h.chain hs hd
    obtain ⟨hdu, ksr, kqout, kedges⟩ := k.chain h.synced hdt
    exact ⟨hdu, ksr.trans hsr, kqout.trans hqout, kedges.trans hedges⟩

/-- With the three display pins initialized, the driven lines and the edge detectors are low. -/
theorem InitsDone.detectors {s t : State}
    (h : InitsDone [s.cfg.clkPin, s.cfg.latPin, s.cfg.datPin] s t) :
    t.chain.clkPrev = false ∧ t.chain.latPrev = false := by
  have hd : t.driven = true := by
    unfold State.driven
    rw [h.cfg, h.isOut, h.isOut, h.isOut]
    simp
  obtain ⟨hclk, hlat⟩ := State.synced_prev h.synced hd
  rw [h.cfg, h.bit, if_pos (by simp)] at hclk hlat
  exact ⟨hclk, hlat⟩

/-- `DINIT` ends with the three display pins initialized (R125). -/
theorem exec_dinit {s : State} (hr : s.ready = true) :
    ∃ t, exec .dinit s = .next (t.finish .dinit) ∧
      InitsDone [s.cfg.clkPin, s.cfg.latPin, s.cfg.datPin] s t := by
  obtain ⟨hok, hwf, -, ha⟩ := s.ready_iff.1 hr
  obtain ⟨t1, r1, h1⟩ := initPin_starts .dinit
    (initPinProg s.cfg.latPin ++ (initPinProg s.cfg.datPin ++ [])) s.cfg.clkPin ha hwf
    (Config.ok_hasClk hok)
  obtain ⟨t2, r2, h2⟩ := initPin_runs .dinit (initPinProg s.cfg.datPin ++ []) s.cfg.latPin
    h1.awake h1.wf (by rw [h1.cfg]; exact Config.ok_hasLat hok)
  have h12 := h1.inits.append h2.inits
  obtain ⟨t3, r3, h3⟩ := initPin_runs .dinit [] s.cfg.datPin
    h12.awake h12.wf (by rw [h12.cfg]; exact Config.ok_hasDat hok)
  exact ⟨t3, ((r1.append r2).append r3).finish, h12.append h3.inits⟩

/-- Settles O27: three pins initialized in turn, and the command's end writes no register. -/
theorem dinitDrivesLinesLow : Obligations.DinitDrivesLinesLow := by
  intro s hr
  obtain ⟨-, -, hs, -⟩ := s.ready_iff.1 hr
  obtain ⟨t, he, h⟩ := exec_dinit hr
  refine ⟨_, he, h.finish_ended _, rfl, fun q => ?_, fun q hq => ?_, fun q hq => ?_,
    fun a ha => ?_, ?_, ?_, ?_, ?_, ?_, ?_, h.finish_host _, h.finish_quiet _, fun hd => ?_⟩
  · rw [State.finish_isOutput, h.isOut]
  · have hlow : getBit (t.out q.port.toNat) q.bit = false := by rw [h.bit, if_pos hq]
    have hout : t.isOutput q = true := by rw [h.isOut]; simp [hq]
    rw [State.finish_out, State.finish_level, t.level_output hout]
    exact ⟨hlow, hlow⟩
  · rw [State.finish_out, h.bit, if_neg hq]
  · rw [State.finish_io]
    exact h.others a (by simpa [and_assoc] using ha)
  · rw [State.finish_chain, h.detectors.1]
  · rw [State.finish_chain, h.detectors.2]
  · rw [State.finish_res, h.res]
  · rw [State.finish_dly, h.dly]
  · rw [State.finish_mscnt, h.mscnt]
  · rw [State.finish_se, h.se]
  · rw [State.finish_chain, State.finish_edges]
    exact (h.chain hs hd).2

/-! ### The digits of `IND` -/

/-- The frames that `n` digits latch, newest first: the next one shows symbol `i` under the mask
`m` (R128, R130). -/
def digitFrames (c : Config) (b : Symbols) : Nat → Int → Byte → List ChainWord
  | 0, _, _ => []
  | n + 1, i, m => digitFrames c b n (i - 1) (m <<< 1) ++ [frameOf c (b.get i) m]

/-- What `n + 1` digits of `IND` leave when they end (R128). -/
structure DigitsDone (n : Nat) (s t : State) : Prop extends IndFrame s t where
  dly     : t.dly = 0#8
  mscnt   : t.mscnt = 0#16
  se      : t.se = false
  gie     : t.gie = if s.cfg.dwellMs = 0#16 then s.gie else true
  clkHigh : getBit (t.out s.cfg.clkPin.port.toNat) s.cfg.clkPin.bit = true
  latHigh : getBit (t.out s.cfg.latPin.port.toNat) s.cfg.latPin.bit = true
  datBit  : getBit (t.out s.cfg.datPin.port.toNat) s.cfg.datPin.bit =
    (s.temps.mask <<< n).getLsbD 0
  chain   : s.synced = true → s.driven = true → ∃ f fs,
    digitFrames s.cfg s.temps.symbuf (n + 1) s.temps.digIdx s.temps.mask = f :: fs ∧
    t.chain = ⟨f, f, true, true⟩ ∧ latchesOf t.edges = f :: fs ++ latchesOf s.edges ∧
    (clockedOf t.edges).length = 16 * (n + 1) + (clockedOf s.edges).length

theorem DigitDone.digits {s t : State} (h : DigitDone s t) : DigitsDone 0 s t where
  toIndFrame := h.toIndFrame
  dly := h.dly
  mscnt := h.mscnt
  se := h.se
  gie := h.gie
  clkHigh := h.clkHigh
  latHigh := h.latHigh
  datBit := by rw [h.datBit, BitVec.shiftLeft_zero]
  chain := fun hs hd => ⟨_, [], rfl, h.chain hs hd⟩

/-- One digit, and `n + 1` more. -/
theorem DigitsDone.cons {n : Nat} {s t u : State} (h : DigitDone s t) (k : DigitsDone n t u) :
    DigitsDone (n + 1) s u where
  toIndFrame := h.toIndFrame.trans k.toIndFrame
  dly := k.dly
  mscnt := k.mscnt
  se := k.se
  gie := by rw [k.gie, h.cfg, h.gie]; split <;> rfl
  clkHigh := h.cfg ▸ k.clkHigh
  latHigh := h.cfg ▸ k.latHigh
  datBit := by
    have hbit := k.datBit
    rwa [h.cfg, h.mask, ← BitVec.shiftLeft_add, Nat.add_comm] at hbit
  chain := fun hs hd => by
    obtain ⟨-, hlatches, hclocks⟩ := h.chain hs hd
    obtain ⟨f, fs, hframes, hchain, klatches, kclocks⟩ := k.chain (h.synced hs) (h.driven.trans hd)
    rw [h.cfg, h.symbuf, h.digIdx, h.mask] at hframes
    refine ⟨f, fs ++ [frameOf s.cfg (s.temps.symbuf.get s.temps.digIdx) s.temps.mask],
      ?_, hchain, ?_, by omega⟩
    · rw [digitFrames, hframes, List.cons_append]
    · rw [klatches, hlatches]
      simp

/-- What a run's end state satisfies can be weakened. -/
theorem RunsOr.imp {op : Instr} {rest ms : List Micro} {s : State} {P Q : State → Prop}
    (h : RunsOr op rest ms s P) (hPQ : ∀ t, P t → Q t) : RunsOr op rest ms s Q :=
  h.imp_left fun ⟨t, hrun, ht⟩ => ⟨t, hrun, hPQ t ht⟩

/-- An operation whose list runs to its end ends the command, unless it is left asleep. -/
theorem RunsOr.finish {op : Instr} {ms : List Micro} {s : State} {P : State → Prop}
    (h : RunsOr op [] ms s P) : (∃ t, resume op ms s = .next (t.finish op) ∧ P t) ∨
      ∃ t, resume op ms s = .next t ∧ t.sleeping = true :=
  Or.imp (fun ⟨t, hrun, ht⟩ => ⟨t, hrun.finish, ht⟩)
    (fun ⟨t, hrun, hasleep⟩ => ⟨t, by rwa [List.append_nil] at hrun, hasleep⟩) h

/-- `n + 1` digits of `IND`, whatever the gaps bring: they end, or a dwell is slept for ever. -/
theorem digits_run (op : Instr) (rest : List Micro) (n : Nat) {s : State}
    (ha : s.sleeping = false) (hok : s.cfg.ok = true) (hwf : Memory.wf s.io = true) :
    RunsOr op rest (digitsProg s.cfg (n + 1)) s (DigitsDone n s) := by
  induction n generalizing s with
  | zero =>
    rw [digitsProg, digitsProg, List.append_nil]
    exact (digit_runs op rest ha hok hwf).imp fun _ => DigitDone.digits
  | succ n ih =>
    refine (digit_runs op _ ha hok hwf).append fun t h => ?_
    have hmore := ih h.awake (h.cfg ▸ hok) h.wf
    rw [h.cfg] at hmore
    exact hmore.imp fun _ => DigitsDone.cons h

/-! ### `IND` -/

section
variable (s0 s1 s2 s3 : Byte) {s : State}

/-- The state in which the first digit of `IND` starts (R128). -/
def State.indLoaded (s : State) : State :=
  (s.atStart (.ind s0 s1 s2 s3) (indProg s.cfg s0 s1 s2 s3)).loadSymbols ⟨s0, s1, s2, s3⟩

/-- `IND` is four digits after its load (R128). -/
theorem exec_ind_eq : exec (.ind s0 s1 s2 s3) s =
    resume (.ind s0 s1 s2 s3) (digitsProg s.cfg 4) (s.indLoaded s0 s1 s2 s3) := rfl

/-- `IND` ends with its four digits shown, or is left asleep in a dwell (R128, R213). -/
theorem exec_ind (hr : s.ready = true) :
    (∃ t, exec (.ind s0 s1 s2 s3) s = .next (t.finish (.ind s0 s1 s2 s3)) ∧
      DigitsDone 3 (s.indLoaded s0 s1 s2 s3) t) ∨
    ∃ t, exec (.ind s0 s1 s2 s3) s = .next t ∧ t.sleeping = true := by
  obtain ⟨hok, hwf, -, ha⟩ := s.ready_iff.1 hr
  exact (digits_run (.ind s0 s1 s2 s3) [] 3 (s := s.indLoaded s0 s1 s2 s3) ha hok hwf).finish

end

/-- Settles O28: the frames of the four digits run from `symbols[3]` under the mask `0x01` to
`symbols[0]` under `0x08`. -/
theorem indLatchesFourFrames : Obligations.IndLatchesFourFrames := by
  intro s0 s1 s2 s3 s hr
  obtain ⟨-, -, hs, -⟩ := s.ready_iff.1 hr
  obtain ⟨t, he, h⟩ | ⟨t, he, hasleep⟩ := exec_ind s0 s1 s2 s3 hr
  · refine ⟨_, he, rfl, fun _ => ⟨State.finish_ended _ h.awake, ?_, ?_, ?_, fun q hq => ?_,
      fun a ha => ?_, ?_, ?_, ?_, ?_, ?_, ?_, fun hd => ?_⟩⟩
    · rw [State.finish_out]; exact h.clkHigh
    · rw [State.finish_out]; exact h.latHigh
    · rw [State.finish_out]; exact h.datBit.trans (show (0x01#8 <<< 3).getLsbD 0 = false by decide)
    · rw [State.finish_out]; exact h.keptO q hq
    · rw [State.finish_io]; exact h.keptI a ha
    · rw [State.finish_dly, h.dly]
    · rw [State.finish_mscnt, h.mscnt]
    · rw [State.finish_se, h.se]
    · rw [State.finish_res, h.res]; rfl
    · simp [State.keptHost, h.cfg, h.cmds, h.cmd, h.cmderr, State.indLoaded, State.atStart]
    · rw [State.finish_gie, h.gie]; rfl
    · obtain ⟨f, fs, hframes, hchain, hlatches, hclocks⟩ := h.chain hs hd
      obtain ⟨rfl, rfl⟩ := List.cons.inj hframes
      rw [State.finish_chain, State.finish_edges]
      exact ⟨hchain, hlatches, hclocks⟩
  · exact ⟨t, he, rfl, fun hawake => absurd hasleep (by simp [hawake])⟩

end Sys2Proof.Machine
end

section
/-! What operations do with no event in store (R138, R204): the micro-steps that touch no interrupt
leave the tick service and the timers, each sleep ends by its own timer, and so `IND` ends. -/

namespace Sys2Proof.Machine

/-- What a run with no event in store leaves, one that sleeps (`slept`) or not: it ends awake, and
with no tick pending only a sleep writes the sleep timer (R138). -/
structure QuietRun (slept : Bool) (s t : State) : Prop where
  cfg   : t.cfg = s.cfg
  awake : t.sleeping = false
  env   : t.env = []
  ext   : t.ext = s.ext
  gie   : t.gie = (slept || s.gie)
  ticks : s.tickPending = false → t.tick = s.tick ∧ t.sec = s.sec ∧ t.tmrT = s.tmrT ∧
    t.tmrS = if slept then ⟨0#8, false, true, false⟩ else s.tmrS

theorem QuietRun.trans {a b : Bool} {s t u : State} (h : QuietRun a s t) (k : QuietRun b t u) :
    QuietRun (a || b) s u where
  cfg := k.cfg.trans h.cfg
  awake := k.awake
  env := k.env
  ext := k.ext.trans h.ext
  gie := by rw [k.gie, h.gie, ← Bool.or_assoc, Bool.or_comm b]
  ticks := fun hp => by
    obtain ⟨htick, hsec, htmrT, htmrS⟩ := h.ticks hp
    have kp : t.tickPending = false := by rwa [State.tickPending, htmrT]
    obtain ⟨ktick, ksec, ktmrT, ktmrS⟩ := k.ticks kp
    refine ⟨ktick.trans htick, ksec.trans hsec, ktmrT.trans htmrT, ?_⟩
    rw [ktmrS, htmrS]
    cases a <;> cases b <;> rfl

/-- Nothing that writes neither a timer, the tick service nor `GIE` sleeps. -/
theorem QuietFrame.run {s t : State} (h : QuietFrame s t) (hcfg : t.cfg = s.cfg)
    (ha : t.sleeping = false) : QuietRun false s t :=
  ⟨hcfg, ha, h.env, h.ext, h.gie, fun _ => ⟨h.tick, h.sec, h.tmrT, h.tmrS⟩⟩

theorem QuietRun.refl {s : State} (ha : s.sleeping = false) (he : s.env = []) :
    QuietRun false s s :=
  ((KeepFrame.refl ha).quiet he).run rfl ha

/-! ### Micro-steps that touch no interrupt -/

/-- The micro-steps that write no timer, no counter of the tick service and neither `GIE` nor
`SLEEPING`. -/
def Micro.leavesInterrupts : Micro → Bool
  | .armTimer => false
  | .maskInterrupts => false
  | .enterSleep => false
  | .startTick => false
  | .clearSeconds => false
  | .enableInterrupts => false
  | .disableInterrupts => false
  | _ => true

theorem Micro.leavesInterrupts_of_drivesLines {m : Micro} (h : m.drivesLines = true) :
    m.leavesInterrupts = true := by
  cases m <;> cases h <;> rfl

theorem State.memWrite_quiet {s t : State} {a : Nat} {v : Byte} (h : s.memWrite a v = .next t)
    (ha : s.sleeping = false) (he : s.env = []) : QuietRun false s t := by
  obtain ⟨-, -, rfl⟩ := State.memWrite_next h
  exact QuietFrame.run (by constructor <;> simp [he]) (by simp) (by simpa using ha)

theorem micro_quiet {m : Micro} {s t : State} (hm : m.leavesInterrupts = true)
    (h : micro m s = .next t) (ha : s.sleeping = false) (he : s.env = []) :
    QuietRun false s t := by
  cases m with
  | readDir pin =>
    obtain ⟨v, rfl⟩ := State.readToTmp_next h
    exact { QuietRun.refl ha he with }
  | readOut pin =>
    obtain ⟨v, rfl⟩ := State.readToTmp_next h
    exact { QuietRun.refl ha he with }
  | writeDir pin dir => exact State.memWrite_quiet h ha he
  | writeOut pin lvl => exact State.memWrite_quiet h ha he
  | samplePin pin =>
    obtain ⟨v, r, rfl⟩ := State.samplePin_next h
    exact { QuietRun.refl ha he with }
  | _ =>
    cases h
    cases hm <;> exact { QuietRun.refl ha he with }

/-- With no event in store a legal list of such micro-steps runs to its end. -/
theorem leavesInterrupts_runs (op : Instr) (rest : List Micro) {ms : List Micro} {s : State}
    (hms : ms.all Micro.leavesInterrupts = true) (legal : ms.all (microLegal s.cfg) = true)
    (ha : s.sleeping = false) (he : s.env = []) :
    ∃ t, Runs op rest ms s t ∧ QuietRun false s t := by
  induction ms generalizing s with
  | nil => exact ⟨s, Runs.nil op rest s, .refl ha he⟩
  | cons m ms ih =>
    rw [List.all_cons, Bool.and_eq_true] at hms legal
    have hgap : QuietRun false s (s.gapAt op (m :: (ms ++ rest))) :=
      (State.gapAt_quiet op _ ha he).run (s.gapAt_frame op _).cfg (State.gapAt_awake op _ ha)
    obtain ⟨u, hu⟩ := micro_answers (hgap.cfg ▸ legal.1)
    have hmicro := hgap.trans (micro_quiet hms.1 hu hgap.awake hgap.env)
    obtain ⟨t, hrun, ht⟩ := ih hms.2 (hmicro.cfg ▸ legal.2) hmicro.awake hmicro.env
    exact ⟨t, Runs.cons ha hu hrun, hmicro.trans ht⟩

/-! ### Sleeps -/

theorem QuietIter.run {s t : State} (h : QuietIter s t) : QuietRun true s t :=
  ⟨h.cfg, h.awake, h.env, h.ext, h.gie, h.tmr⟩

/-- With no event in store `n` iterations of `SLPMS` end. -/
theorem sleepIterations_quiet (op : Instr) (rest : List Micro) (n : Nat) {s : State}
    (ha : s.sleeping = false) (he : s.env = []) :
    ∃ t, Runs op rest (sleepIterations n) s t ∧ QuietRun (decide (n ≠ 0)) s t := by
  induction n generalizing s with
  | zero => exact leavesInterrupts_runs op rest rfl rfl ha he
  | succ n ih =>
    obtain ⟨t, hrun, h⟩ := iter_quiet op (sleepIterations n ++ rest) ha he
    obtain ⟨u, krun, k⟩ := ih h.awake h.env
    exact ⟨u, hrun.append krun, h.run.trans k⟩

/-- With no event in store `SLPMS` ends, inside any operation (R138). -/
theorem slpms_quiet (op : Instr) (rest : List Micro) (ms : Millis) {s : State}
    (ha : s.sleeping = false) (he : s.env = []) :
    ∃ t, Runs op rest (slpmsProg ms) s t ∧ QuietRun (decide (ms ≠ 0#16)) s t := by
  obtain ⟨t1, r1, h1⟩ := leavesInterrupts_runs op
    (sleepIterations ms.toNat ++ [.disarmSleep] ++ rest) (ms := [.loadMillis ms]) rfl rfl ha he
  obtain ⟨t2, r2, h2⟩ := sleepIterations_quiet op ([.disarmSleep] ++ rest) ms.toNat
    h1.awake h1.env
  obtain ⟨t3, r3, h3⟩ := leavesInterrupts_runs op rest (ms := [.disarmSleep]) rfl rfl
    h2.awake h2.env
  have hcount : ms.toNat ≠ 0 ↔ ms ≠ 0#16 := by simp [BitVec.toNat_eq]
  refine ⟨t3, r1.append (r2.append r3), ?_⟩
  simpa [hcount] using (h1.trans h2).trans h3

/-! ### The digits of `IND` -/

/-- What a digit of `IND` does before its dwell (R128). -/
def showDigitProg (c : Config) : List Micro :=
  .loadSegment :: (shbProg c .shreg ++ shbProg c .mask ++ latProg c)

theorem digitProg_eq (c : Config) :
    digitProg c = showDigitProg c ++ (slpmsProg c.dwellMs ++ [.nextDigit]) := by
  simp [digitProg, showDigitProg]

theorem showDigitProg_legal {c : Config} (hok : c.ok = true) :
    (showDigitProg c).all (microLegal c) = true := by
  simp only [showDigitProg, List.all_cons, List.all_append, shbProg_legal hok, latProg_legal hok]
  rfl

theorem all_leavesInterrupts {ms : List Micro} (h : ms.all Micro.drivesLines = true) :
    ms.all Micro.leavesInterrupts = true := by
  rw [List.all_eq_true] at *
  exact fun m hm => Micro.leavesInterrupts_of_drivesLines (h m hm)

theorem showDigitProg_leavesInterrupts (c : Config) :
    (showDigitProg c).all Micro.leavesInterrupts = true := by
  simp only [showDigitProg, latProg, List.all_cons, List.all_append,
    all_leavesInterrupts (shbProg_drivesLines c _),
    all_leavesInterrupts (pulseProg_drivesLines c _)]
  rfl

/-- With no event in store a digit of `IND` ends. -/
theorem digit_quiet (op : Instr) (rest : List Micro) {s : State} (hok : s.cfg.ok = true)
    (ha : s.sleeping = false) (he : s.env = []) :
    ∃ t, Runs op rest (digitProg s.cfg) s t ∧ QuietRun (decide (s.cfg.dwellMs ≠ 0#16)) s t := by
  obtain ⟨t1, r1, h1⟩ := leavesInterrupts_runs op (slpmsProg s.cfg.dwellMs ++ [.nextDigit] ++ rest)
    (showDigitProg_leavesInterrupts s.cfg) (showDigitProg_legal hok) ha he
  obtain ⟨t2, r2, h2⟩ := slpms_quiet op ([.nextDigit] ++ rest) s.cfg.dwellMs h1.awake h1.env
  obtain ⟨t3, r3, h3⟩ := leavesInterrupts_runs op rest (ms := [.nextDigit]) rfl rfl
    h2.awake h2.env
  rw [digitProg_eq]
  refine ⟨t3, r1.append (r2.append r3), ?_⟩
  simpa using (h1.trans h2).trans h3

/-- With no event in store `n + 1` digits of `IND` end. -/
theorem digits_quiet (op : Instr) (rest : List Micro) (n : Nat) {s : State}
    (hok : s.cfg.ok = true) (ha : s.sleeping = false) (he : s.env = []) :
    ∃ t, Runs op rest (digitsProg s.cfg (n + 1)) s t ∧
      QuietRun (decide (s.cfg.dwellMs ≠ 0#16)) s t := by
  induction n generalizing s with
  | zero =>
    rw [digitsProg, digitsProg, List.append_nil]
    exact digit_quiet op rest hok ha he
  | succ n ih =>
    obtain ⟨t, hrun, h⟩ := digit_quiet op (digitsProg s.cfg (n + 1) ++ rest) hok ha he
    obtain ⟨u, krun, k⟩ := ih (h.cfg ▸ hok) h.awake h.env
    rw [h.cfg] at krun k
    exact ⟨u, hrun.append krun, by simpa using h.trans k⟩

/-- With no event in store `IND` ends (R128, R138). -/
theorem exec_ind_quiet (s0 s1 s2 s3 : Byte) {s : State} (hr : s.ready = true) (he : s.env = []) :
    ∃ t, exec (.ind s0 s1 s2 s3) s = .next (t.finish (.ind s0 s1 s2 s3)) ∧
      QuietRun (decide (s.cfg.dwellMs ≠ 0#16)) s t := by
  obtain ⟨hok, -, -, ha⟩ := s.ready_iff.1 hr
  have hload : QuietRun false s (s.indLoaded s0 s1 s2 s3) :=
    { QuietRun.refl ha he with }
  obtain ⟨t, hrun, h⟩ := digits_quiet (.ind s0 s1 s2 s3) [] 3 (s := s.indLoaded s0 s1 s2 s3) hok
    hload.awake hload.env
  exact ⟨t, hrun.finish, hload.trans h⟩

/-- Settles O29: the load and four digits run to their end, and the command's end writes none of
what is claimed. -/
theorem indCompletesInQuiet : Obligations.IndCompletesInQuiet := by
  intro s0 s1 s2 s3 s hr he
  obtain ⟨t, hexec, h⟩ := exec_ind_quiet s0 s1 s2 s3 hr he
  refine ⟨_, hexec, State.finish_ended _ h.awake, ?_, ?_, ?_, fun hp => ?_⟩
  · rw [State.finish_env, h.env]
  · rw [State.finish_ext, h.ext]
  · rw [State.finish_gie, h.gie]
    by_cases hdwell : s.cfg.dwellMs = 0#16 <;> simp [hdwell]
  · simpa using h.ticks hp

end Sys2Proof.Machine
end

section
/-! The timing services (R135 to R144): what `BDLY` and `SLPMS` leave when they end, how long an
armed timer counts (R139), and that no other command sleeps. -/

namespace Sys2Proof.Machine

/-! ### An armed timer -/

/-- Counting never clears the pending bit (R175). -/
theorem Timer.pulse_ovf {t : Timer} (h : t.ovf = true) : t.pulse.ovf = true := by
  unfold Timer.pulse
  split
  · split
    · rfl
    · exact h
  · exact h

theorem Timer.pulses_ovf {t : Timer} (k : Nat) (h : t.ovf = true) :
    (Timer.pulse^[k] t).ovf = true := by
  induction k with
  | zero => exact h
  | succ k ih => rw [Function.iterate_succ_apply']; exact Timer.pulse_ovf ih

/-- Settles O46: up to the wrap the timer only counts; the wrap sets the pending bit, and the pulses
after it leave it set. -/
theorem armedTimerPeriod : Obligations.ArmedTimerPeriod := by
  intro reload k
  have hreload : reload.toNat < 256 := reload.isLt
  by_cases hk : 256 - reload.toNat ≤ k
  · obtain ⟨j, rfl⟩ := Nat.exists_eq_add_of_le' hk
    have hwrap : (Timer.pulse^[256 - reload.toNat] (Timer.arm reload)).ovf = true :=
      congrArg Timer.ovf (pulse_over (Timer.arm reload) rfl)
    rw [Function.iterate_add_apply, Timer.pulses_ovf j hwrap, decide_eq_true hk]
  · have hcount : reload.toNat + k ≤ 255 := by omega
    rw [pulse_count (Timer.arm reload) k rfl hcount, decide_eq_false hk]
    rfl

/-! ### Which commands sleep -/

/-- A write of the register space wakes no one and puts no one to sleep. -/
theorem State.memWrite_sleeping {s t : State} {a : Nat} {v : Byte} (h : s.memWrite a v = .next t) :
    t.sleeping = s.sleeping := by
  obtain ⟨-, -, rfl⟩ := State.memWrite_next h
  simp

/-- Only `S4` writes `SLEEPING` (R138). -/
theorem micro_sleeping {m : Micro} {s t : State} (hm : m ≠ .enterSleep)
    (h : micro m s = .next t) : t.sleeping = s.sleeping := by
  cases m with
  | enterSleep => exact absurd rfl hm
  | readDir pin => obtain ⟨v, rfl⟩ := State.readToTmp_next h; rfl
  | readOut pin => obtain ⟨v, rfl⟩ := State.readToTmp_next h; rfl
  | samplePin pin => obtain ⟨v, r, rfl⟩ := State.samplePin_next h; rfl
  | writeDir pin dir => exact State.memWrite_sleeping h
  | writeOut pin lvl => exact State.memWrite_sleeping h
  | _ => cases h; rfl

theorem enterSleep_notMem_drivesLines {ms : List Micro} (h : ms.all Micro.drivesLines = true) :
    Micro.enterSleep ∉ ms :=
  fun hmem => nomatch List.all_eq_true.1 h _ hmem

/-- Only the lists of `SLPMS` and `IND` hold an `S4` (R128, R138). -/
theorem enterSleep_notMem_progOf (c : Config) (i : Instr) : Micro.enterSleep ∉ progOf c i ∨
    (∃ ms, i = .slpms ms) ∨ ∃ s0 s1 s2 s3, i = .ind s0 s1 s2 s3 := by
  cases i with
  | slpms ms => exact .inr (.inl ⟨ms, rfl⟩)
  | ind s0 s1 s2 s3 => exact .inr (.inr ⟨s0, s1, s2, s3, rfl⟩)
  | shb byte => exact .inl (enterSleep_notMem_drivesLines (shbProg_drivesLines c _))
  | lat => exact .inl (enterSleep_notMem_drivesLines (pulseProg_drivesLines c _))
  | bdly units => exact .inl (enterSleep_notMem_drivesLines (bdlyProg_drivesLines units))
  | dinit => exact .inl (enterSleep_notMem_drivesLines rfl)
  | pdir pin dir => exact .inl (enterSleep_notMem_drivesLines rfl)
  | pwr pin lvl => exact .inl (enterSleep_notMem_drivesLines rfl)
  | _ => exact .inl (mt List.mem_singleton.1 nofun)

/-- Settles O59: a command whose list holds no `S4` stays awake through its gaps and micro-steps. -/
theorem onlySleepsSleep : Obligations.OnlySleepsSleep := by
  intro i s t he ha hs
  refine (enterSleep_notMem_progOf s.cfg i).resolve_left fun hnone => ?_
  have hawake : t.sleeping = false :=
    exec_closed (P := fun u => u.sleeping = false) State.between_awake (fun _ _ h => h)
      (fun u op h => (u.finish_sleeping op).trans h) (fun _ h => h)
      (fun m hm u v hmicro h => (micro_sleeping (fun e => hnone (e ▸ hm)) hmicro).trans h) ha he
  exact absurd hs (by simp [hawake])

/-! ### `BDLY` -/

/-- `BDLY` ends with its units run down (R135, R136). -/
theorem exec_bdly (units : Byte) {s : State} (ha : s.sleeping = false) :
    ∃ t, exec (.bdly units) s = .next (t.finish (.bdly units)) ∧ DelayDone s t ∧ t.dly = 0#8 := by
  obtain ⟨t, hrun, h⟩ := bdly_starts (.bdly units) [] units ha
  exact ⟨t, hrun.finish, h⟩

/-- Settles O31: the piece `BDLY` starts with is all of it, and it uses no temporary. -/
theorem bdlyCountsDown : Obligations.BdlyCountsDown := by
  intro units s ha
  obtain ⟨t, he, h, hdly⟩ := exec_bdly units ha
  refine ⟨_, he, State.finish_ended _ h.awake, rfl, ?_, ?_⟩
  · simp [bdlyProg, Nat.add_comm]
  rw [State.finish_plain t (.bdly units) rfl]
  exact ⟨hdly, h.res, h.mscnt, h.se, h.io, h.temps, ⟨h.cfg, h.cmds, h.cmd, h.cmderr⟩,
    fun e => have q := h.quiet e; ⟨q.env, q.ext, q.tick, q.sec, q.tmrT, q.tmrS, q.gie⟩,
    fun hd => ⟨h.chain hd, h.edges⟩⟩

/-! ### `SLPMS` -/

/-- The state in which the first iteration of `SLPMS` starts (R138). -/
def State.slpmsLoaded (s : State) (ms : Millis) : State :=
  { s.atStart (.slpms ms) (slpmsProg ms) with mscnt := ms }

/-- `SLPMS` is its iterations and `S6` after its load (R138). -/
theorem exec_slpms_eq (ms : Millis) (s : State) : exec (.slpms ms) s =
    resume (.slpms ms) (sleepIterations ms.toNat ++ [.disarmSleep]) (s.slpmsLoaded ms) := rfl

/-- `SLPMS` ends with its count run down, or is left asleep (R138, R213). -/
theorem exec_slpms (ms : Millis) {s : State} (ha : s.sleeping = false) :
    (∃ t, exec (.slpms ms) s = .next (t.finish (.slpms ms)) ∧ SlpDone ms s t) ∨
      ∃ t, exec (.slpms ms) s = .next t ∧ t.sleeping = true :=
  (slp_tail (.slpms ms) [] ms (s1 := s.slpmsLoaded ms) { SleepKeep.refl s with } rfl rfl ha).finish

/-- Settles O32: a run to the end counts to 0 and leaves `SE` cleared; it uses no temporary. -/
theorem slpmsEndsWithCountDone : Obligations.SlpmsEndsWithCountDone := by
  intro ms s ha
  obtain ⟨t, he, h⟩ | ⟨t, he, hasleep⟩ := exec_slpms ms ha
  · refine ⟨_, he, rfl, fun _ => ⟨State.finish_ended _ h.awake, ?_⟩⟩
    rw [State.finish_plain t (.slpms ms) rfl]
    exact ⟨h.mscnt, h.se, fun hms => ⟨h.gie.trans (if_neg hms), h.ie hms⟩,
      fun hms => h.gie.trans (if_pos hms), h.res, h.dly, h.io, h.temps,
      ⟨h.cfg, h.cmds, h.cmd, h.cmderr⟩, fun hd => ⟨h.chain hd, h.edges⟩⟩
  · exact ⟨t, he, rfl, fun hawake => absurd hasleep (by simp [hawake])⟩

/-- With no event in store `SLPMS` ends (R138, R204). -/
theorem exec_slpms_quiet (ms : Millis) {s : State} (ha : s.sleeping = false) (he : s.env = []) :
    ∃ t, exec (.slpms ms) s = .next (t.finish (.slpms ms)) ∧
      QuietRun (decide (ms ≠ 0#16)) s t := by
  have hload : QuietRun false s (s.slpmsLoaded ms) := { QuietRun.refl ha he with }
  obtain ⟨t, hrun, h⟩ := sleepIterations_quiet (.slpms ms) [.disarmSleep] ms.toNat
    hload.awake hload.env
  obtain ⟨u, krun, k⟩ := leavesInterrupts_runs (.slpms ms) [] (ms := [.disarmSleep]) rfl rfl
    h.awake h.env
  have hcount : ms.toNat ≠ 0 ↔ ms ≠ 0#16 := by simp [BitVec.toNat_eq]
  exact ⟨u, (hrun.append krun).finish, by simpa [hcount] using (hload.trans h).trans k⟩

/-- Settles O33: `SLPMS` ends awake, so its count is at 0 and `SE` cleared. -/
theorem slpmsCompletesInQuiet : Obligations.SlpmsCompletesInQuiet := by
  intro ms s ha he
  obtain ⟨t, hexec, h⟩ := exec_slpms_quiet ms ha he
  have hawake : (t.finish (.slpms ms)).sleeping = false := (t.finish_sleeping _).trans h.awake
  obtain ⟨u, huexec, -, hended⟩ := slpmsEndsWithCountDone ms s ha
  obtain rfl : t.finish (.slpms ms) = u := Host.Outcome.next.inj (hexec.symm.trans huexec)
  obtain ⟨hend, hmscnt, hse, -⟩ := hended hawake
  refine ⟨_, hexec, hend, hmscnt, hse, ?_, ?_, ?_, fun hp => ?_⟩
  · rw [State.finish_env, h.env]
  · rw [State.finish_ext, h.ext]
  · rw [State.finish_gie, h.gie]
    by_cases hms : ms = 0#16 <;> simp [hms]
  · simpa using h.ticks hp

end Sys2Proof.Machine
end

section
/-! The sleeps of `SLPMS` (R138 to R142, R213): a running sleep timer ends one, a wake that is taken
before `S4` leaves one that nothing ends, and what a tick does in one. -/

namespace Sys2Proof.Machine

variable {s : State}

/-! ### A gap with moves in store -/

/-- Awake, a gap plays the next entry of the moves in store. -/
theorem State.between_of_env {g : Gap} {gs : List Gap} (ha : s.sleeping = false)
    (he : s.env = g :: gs) : s.between = ({ s.drift with env := gs } : State).play g := by
  rw [s.between_eq_nextGap ha]
  unfold State.nextGap
  rw [s.drift_env, he]

theorem State.play_append (s : State) (g h : Gap) : s.play (g ++ h) = (s.play g).play h :=
  List.foldl_append

theorem State.play_pulses (s : State) (n : Nat) :
    s.play (List.replicate n .pulseS) = s.countPulses .wakeOvf n := by
  induction n generalizing s with
  | zero => rfl
  | succ n ih => exact ih _

/-- Enough pulses and the taking of the wake interrupt are the sleep timer's running out. -/
theorem State.play_overflow (s : State) :
    s.play (List.replicate (256 - s.tmrS.cnt.toNat) .pulseS ++ [.take .wakeOvf]) =
      s.runOut .wakeOvf := by
  rw [s.play_append, s.play_pulses]
  rfl

/-! ### A sleep timer that can wake -/

/-- The sleep timer runs with its interrupt enabled: it will overflow, and the overflow wakes
(R172, R183). -/
def State.wakeArmed (s : State) : Prop := s.tmrS.run = true ∧ s.tmrS.ie = true

theorem State.wakeArmed_congr {t : State} (h : t.tmrS = s.tmrS) (k : s.wakeArmed) :
    t.wakeArmed := by
  unfold State.wakeArmed; rw [h]; exact k

theorem Timer.pulse_run (t : Timer) : t.pulse.run = t.run := by
  unfold Timer.pulse
  split
  · split <;> rfl
  · rfl

/-- Only the wake interrupt stops the sleep timer, and it wakes the main context (R181, R183). -/
theorem State.occur_wakeArmed (e : Event) (h : s.wakeArmed) :
    (s.occur e).wakeArmed ∨ s.gie = true ∧ (s.occur e).sleeping = false := by
  cases e with
  | pulseT => exact .inl h
  | ext p v => exact .inl h
  | pulseS => exact .inl ⟨(Timer.pulse_run _).trans h.1, (Timer.pulse_ie _).trans h.2⟩
  | take x =>
    show (s.takeInterrupt x).wakeArmed ∨ _ ∧ (s.takeInterrupt x).sleeping = false
    cases ht : s.takeable x with
    | false => rw [s.takeInterrupt_eq_self ht]; exact .inl h
    | true =>
      rw [s.takeInterrupt_eq_of_takeable ht]
      cases x with
      | tickOvf => exact .inl h
      | wakeOvf =>
        simp only [State.takeable, Bool.and_eq_true] at ht
        exact .inr ⟨ht.1.1, by simp [State.wakes]⟩

/-- With `GIE = 0` no gap stops the sleep timer (R140). -/
theorem State.between_wakeArmed (hg : s.gie = false) (h : s.wakeArmed) :
    s.between.wakeArmed := by
  refine (State.between_closed (P := fun u => u.gie = false ∧ u.wakeArmed) (fun u e hu => ?_)
    (fun _ _ hu => hu) (fun _ hu _ => hu) ⟨hg, h⟩).2
  refine ⟨(u.occur_gie e).trans hu.1, (State.occur_wakeArmed e hu.2).resolve_right fun hw => ?_⟩
  exact absurd hw.1 (by simp [hu.1])

/-- Asleep with `GIE = 1` only while the sleep timer can wake. -/
def State.wakeable (s : State) : Prop := s.gie = true ∧ (s.sleeping = true → s.wakeArmed)

theorem State.occur_wakeable (s : State) (e : Event) (h : s.wakeable) : (s.occur e).wakeable := by
  refine ⟨(s.occur_gie e).trans h.1, fun hs => ?_⟩
  have hasleep : s.sleeping = true :=
    Bool.of_not_eq_false fun ha => by simp [s.occur_sleeping_le e ha] at hs
  exact (State.occur_wakeArmed e (h.2 hasleep)).resolve_right fun hw => by simp [hw.2] at hs

/-- What fairness promises such a sleep ends it (R170, R213). -/
theorem State.fairRest_wakes (h : s.wakeable) : s.fairRest.sleeping = false := by
  have hboth := State.takeBoth_closed State.occur_wakeable h
  simp only [State.fairRest]
  split
  · next hs =>
    obtain ⟨hrun, hie⟩ := hboth.2 hs
    rw [runOut_wake _ hboth.1 hrun hie]
    simp
  · next ha => simpa using ha

theorem State.doze_wakes (gs : List Gap) (h : s.wakeable) : (s.doze gs).sleeping = false := by
  induction gs generalizing s with
  | nil => exact State.fairRest_wakes h
  | cons g gs ih =>
    simp only [State.doze]
    split
    · exact ih (State.play_closed State.occur_wakeable g h)
    · next ha => simpa using ha

/-- A sleep in which the sleep timer can wake ends, whatever the environment does (R140). -/
theorem State.between_wakes (hs : s.sleeping = true) (h : s.wakeable) :
    s.between.sleeping = false := by
  have hdrift : s.drift.wakeable :=
    ⟨s.drift_gie.trans h.1, fun _ => State.wakeArmed_congr s.drift_tmrS (h.2 hs)⟩
  simp only [State.between]
  rw [if_pos (by simp [hs])]
  exact State.doze_wakes _ hdrift

theorem State.gapAt_wakes (op : Instr) (todo : List Micro) (hs : s.sleeping = true)
    (h : s.wakeable) : (s.gapAt op todo).sleeping = false :=
  State.between_wakes (s := s.atStart op todo) hs h

/-! ### An iteration up to its wait -/

section
variable (s) (op : Instr) (rest : List Micro)

/-- The state after `S1` of an iteration of `SLPMS` with `rest` after it (R138). -/
def State.timerArmed : State := (s.gapAt op (sleepIteration ++ rest)).armTimer

/-- The state after `S2`. -/
def State.masked : State :=
  { (s.timerArmed op rest).gapAt op
      (.maskInterrupts :: .armSleep :: .enterSleep :: .countMilli :: rest) with gie := false }

/-- The state after `S3`. -/
def State.sleepArmed : State :=
  { (s.masked op rest).gapAt op (.armSleep :: .enterSleep :: .countMilli :: rest) with se := true }

/-- The state after `S4`: the wait `S5` begins. -/
def State.fallenAsleep : State :=
  ((s.sleepArmed op rest).gapAt op (.enterSleep :: .countMilli :: rest)).enterSleep

variable {s}

theorem State.timerArmed_awake (ha : s.sleeping = false) :
    (s.timerArmed op rest).sleeping = false :=
  State.gapAt_awake op _ ha

theorem State.masked_awake (ha : s.sleeping = false) : (s.masked op rest).sleeping = false :=
  State.gapAt_awake op _ (State.timerArmed_awake op rest ha)

theorem State.sleepArmed_awake (ha : s.sleeping = false) :
    (s.sleepArmed op rest).sleeping = false :=
  State.gapAt_awake op _ (State.masked_awake op rest ha)

/-- The steps `S1` to `S4` run, whatever the gaps bring: an iteration comes to its wait (R138). -/
theorem sleepIteration_falls (ha : s.sleeping = false) :
    resume op (sleepIteration ++ rest) s =
      resume op (.countMilli :: rest) (s.fallenAsleep op rest) :=
  calc resume op (sleepIteration ++ rest) s
    _ = resume op (.maskInterrupts :: .armSleep :: .enterSleep :: .countMilli :: rest)
          (s.timerArmed op rest) := resume_awake op _ _ ha
    _ = resume op (.armSleep :: .enterSleep :: .countMilli :: rest) (s.masked op rest) :=
          resume_awake op _ _ (State.timerArmed_awake op rest ha)
    _ = resume op (.enterSleep :: .countMilli :: rest) (s.sleepArmed op rest) :=
          resume_awake op _ _ (State.masked_awake op rest ha)
    _ = resume op (.countMilli :: rest) (s.fallenAsleep op rest) :=
          resume_awake op _ _ (State.sleepArmed_awake op rest ha)

variable (s)

@[simp] theorem State.timerArmed_cfg : (s.timerArmed op rest).cfg = s.cfg :=
  (s.gapAt_frame op _).cfg

@[simp] theorem State.fallenAsleep_cfg : (s.fallenAsleep op rest).cfg = s.cfg :=
  calc (s.fallenAsleep op rest).cfg
    _ = (s.sleepArmed op rest).cfg := ((s.sleepArmed op rest).gapAt_frame op _).cfg
    _ = (s.masked op rest).cfg := ((s.masked op rest).gapAt_frame op _).cfg
    _ = (s.timerArmed op rest).cfg := ((s.timerArmed op rest).gapAt_frame op _).cfg
    _ = s.cfg := s.timerArmed_cfg op rest

/-- The sleep timer that `S1` has armed (R138). -/
theorem State.timerArmed_tmrS : (s.timerArmed op rest).tmrS = Timer.arm s.cfg.reloadS :=
  congrArg (fun c : Config => Timer.arm c.reloadS) (s.gapAt_frame op _).cfg

theorem State.timerArmed_gie : (s.timerArmed op rest).gie = s.gie := State.between_gie _

/-- `SE` is 1 at `S4`, so the main context sleeps (R36). -/
@[simp] theorem State.fallenAsleep_sleeping : (s.fallenAsleep op rest).sleeping = true :=
  ((s.sleepArmed op rest).gapAt_frame op _).se

theorem State.timerArmed_env {g : Gap} {gs : List Gap} (ha : s.sleeping = false)
    (he : s.env = g :: gs) : (s.timerArmed op rest).env = gs :=
  (State.between_env_tail (s := s.atStart op _) ha).trans (congrArg List.tail he)

variable {s}

/-- What gaps with `GIE = 0` keep of the sleep timer, `S3` and `S4` keep. -/
theorem State.fallenAsleep_of_masked {P : Timer → Prop}
    (gap : ∀ u : State, u.sleeping = false → u.gie = false → P u.tmrS → P u.between.tmrS)
    (ha : s.sleeping = false) (h : P (s.masked op rest).tmrS) :
    P (s.fallenAsleep op rest).tmrS := by
  have gapAt (u : State) (todo : List Micro) (ua : u.sleeping = false) (ug : u.gie = false)
      (hu : P u.tmrS) : P (u.gapAt op todo).tmrS := gap (u.atStart op todo) ua ug hu
  have harmed : P (s.sleepArmed op rest).tmrS := gapAt _ _ (State.masked_awake op rest ha) rfl h
  exact gapAt _ _ (State.sleepArmed_awake op rest ha) (State.between_gie _) harmed

end

/-! ### The wait and the end -/

section
variable (op : Instr) (rest : List Micro)

/-- A wait that the gap ends lets the operation go on, and touches no interrupt (R138). -/
theorem wait_runs {g : State} (hg : g = s.gapAt op (.countMilli :: rest))
    (h : g.sleeping = false) :
    ∃ t, Runs op rest [.countMilli] s t ∧ t.sleeping = false ∧ (g.env = [] → QuietFrame g t) := by
  subst hg
  exact ⟨_, (resume_cons op .countMilli rest s).trans (if_neg (by simp [h])), h,
    fun he => ⟨he, rfl, rfl, rfl, rfl, rfl, rfl⟩⟩

/-- A wait that the gap does not end leaves the command in progress asleep (R213). -/
theorem wait_sleeps (h : (s.gapAt op (.countMilli :: rest)).sleeping = true) :
    resume op (.countMilli :: rest) s = .next (s.gapAt op (.countMilli :: rest)) :=
  (resume_cons op .countMilli rest s).trans (if_pos h)

end

/-- The last wait of `SLPMS`, once the gap has ended it, leaves only `S6`; with no event in store
after it, nothing else moves (R138). -/
theorem lastWait_ends (op : Instr) {g : State} (hg : g = s.gapAt op [.countMilli, .disarmSleep])
    (h : g.sleeping = false) :
    ∃ t, resume op [.countMilli, .disarmSleep] s = .next (t.finish op) ∧ t.sleeping = false ∧
      (g.env = [] → QuietFrame g t) := by
  obtain ⟨u, hwait, ua, hquiet⟩ := wait_runs op [.disarmSleep] hg h
  have hrun := hwait.append (b := [.disarmSleep]) (Runs.one ua rfl)
  exact ⟨_, hrun.finish, State.gapAt_awake op _ ua,
    fun he => (hquiet he).trans { State.gapAt_quiet op [.disarmSleep] ua (hquiet he).env with }⟩

/-- `SLPMS n` with `n >= 1` comes to its first wait, whatever the gaps bring (R138). -/
theorem exec_slpms_falls {ms : Millis} {n : Nat} (hms : ms.toNat = n + 1)
    (ha : s.sleeping = false) : exec (.slpms ms) s =
      resume (.slpms ms) (.countMilli :: (sleepIterations n ++ [.disarmSleep]))
        ((s.slpmsLoaded ms).fallenAsleep (.slpms ms) (sleepIterations n ++ [.disarmSleep])) := by
  rw [exec_slpms_eq, hms, sleepIterations, List.append_assoc]
  exact sleepIteration_falls (s := s.slpmsLoaded ms) _ _ ha

/-! ### A gap with no event in it -/

/-- What a gap with no event in it leaves, with the moves `gs` to come after it. -/
structure SilentGap (gs : List Gap) (s t : State) : Prop where
  env  : t.env = gs
  tick : t.tick = s.tick
  tmrT : t.tmrT = s.tmrT
  tmrS : t.tmrS = s.tmrS

theorem State.gapAt_silent {gs : List Gap} (op : Instr) (todo : List Micro)
    (ha : s.sleeping = false) (he : s.env = [] :: gs) : SilentGap gs s (s.gapAt op todo) := by
  have hgap : s.gapAt op todo = { (s.atStart op todo).drift with env := gs } :=
    State.between_of_env (s := s.atStart op todo) ha he
  rw [hgap]
  exact ⟨rfl, State.drift_tick _, State.drift_tmrT _, State.drift_tmrS _⟩

theorem State.fallenAsleep_silent (op : Instr) (rest : List Micro) {gs : List Gap}
    (ha : s.sleeping = false) (he : s.env = [] :: [] :: [] :: [] :: gs) :
    (s.fallenAsleep op rest).env = gs ∧ (s.fallenAsleep op rest).tick = s.tick ∧
      (s.fallenAsleep op rest).tmrT = s.tmrT ∧
      (s.fallenAsleep op rest).tmrS = Timer.arm s.cfg.reloadS := by
  have h1 := State.gapAt_silent op (sleepIteration ++ rest) ha he
  have h2 := State.gapAt_silent op
    (.maskInterrupts :: .armSleep :: .enterSleep :: .countMilli :: rest)
    (State.timerArmed_awake op rest ha) h1.env
  have h3 := State.gapAt_silent op (.armSleep :: .enterSleep :: .countMilli :: rest)
    (State.masked_awake op rest ha) h2.env
  have h4 := State.gapAt_silent op (.enterSleep :: .countMilli :: rest)
    (State.sleepArmed_awake op rest ha) h3.env
  exact ⟨h4.env, h4.tick.trans (h3.tick.trans (h2.tick.trans h1.tick)),
    h4.tmrT.trans (h3.tmrT.trans (h2.tmrT.trans h1.tmrT)),
    h4.tmrS.trans (h3.tmrS.trans (h2.tmrS.trans (s.timerArmed_tmrS op rest)))⟩

/-! ### A wake after `S2` -/

/-- With nothing between `S1` and `S2` the sleep timer that `S1` armed still runs once `GIE` is 0,
so it runs in the wait (R140). -/
theorem State.fallenAsleep_wakeArmed (op : Instr) (rest : List Micro) {g : Gap} {gs : List Gap}
    (ha : s.sleeping = false) (he : s.env = g :: [] :: gs) :
    (s.fallenAsleep op rest).wakeArmed := by
  have hsilent := State.gapAt_silent op
    (.maskInterrupts :: .armSleep :: .enterSleep :: .countMilli :: rest)
    (State.timerArmed_awake op rest ha) (s.timerArmed_env op rest ha he)
  have hmasked : (s.masked op rest).tmrS = Timer.arm s.cfg.reloadS :=
    hsilent.tmrS.trans (s.timerArmed_tmrS op rest)
  exact State.fallenAsleep_of_masked (P := fun t => t.run = true ∧ t.ie = true) op rest
    (fun _ _ => State.between_wakeArmed) ha (hmasked ▸ ⟨rfl, rfl⟩)

/-- Settles O34: the sleep timer runs in the wait with `GIE = 1`, and ends it. -/
theorem noWakeLostAfterMask : Obligations.NoWakeLostAfterMask := by
  intro s before after ha he
  obtain ⟨f, hf⟩ : ∃ f, f =
    (s.slpmsLoaded 1#16).fallenAsleep (.slpms 1#16) [.disarmSleep] := ⟨_, rfl⟩
  have hwakeable : f.wakeable :=
    hf ▸ ⟨rfl, fun _ => State.fallenAsleep_wakeArmed (s := s.slpmsLoaded 1#16) _ _ ha he⟩
  have hsleeping : f.sleeping = true := hf ▸ State.fallenAsleep_sleeping _ _ _
  obtain ⟨t, hend, hawake, -⟩ :=
    lastWait_ends (.slpms 1#16) rfl (State.gapAt_wakes _ _ hsleeping hwakeable)
  exact ⟨_, (exec_slpms_falls (n := 0) rfl ha).trans (hf ▸ hend), State.finish_ended _ hawake⟩

/-! ### A wake before `S2` -/

/-- A gap in which the armed sleep timer overflows and its interrupt is taken leaves it spent
(R181). -/
theorem State.between_overflow {r : Byte} {gs : List Gap} (ha : s.sleeping = false)
    (hg : s.gie = true) (harm : s.tmrS = Timer.arm r)
    (he : s.env = (List.replicate (256 - r.toNat) .pulseS ++ [.take .wakeOvf]) :: gs) :
    s.between.spent := by
  obtain ⟨u, hu⟩ : ∃ u : State, u = { s.drift with env := gs } := ⟨_, rfl⟩
  have utmr : u.tmrS = Timer.arm r := by rw [hu]; exact s.drift_tmrS.trans harm
  have ug : u.gie = true := by rw [hu]; exact s.drift_gie.trans hg
  have hplay := u.play_overflow
  rw [utmr, runOut_wake u ug (congrArg Timer.run utmr) (congrArg Timer.ie utmr)] at hplay
  rw [State.between_of_env ha he, ← hu]
  exact State.spent_congr (congrArg (fun v : State => v.tmrS) hplay) ⟨rfl, rfl⟩

/-- A command in progress at position `u` whose sleep nothing ends (R213). -/
structure Hung (u : Upc) (s : State) : Prop extends Stuck s where
  ok   : s.cfg.ok = true
  upc  : s.upc = some u
  todo : u.todo ≠ []

/-- No step ends it. -/
theorem Hung.next {u : Upc} (h : Hung u s) : ∃ t, step s = .next t ∧ Hung u t := by
  obtain ⟨op, _ | ⟨m, ms⟩⟩ := u
  · exact absurd rfl h.todo
  · have hgap := h.toStuck.between
    refine ⟨s.between, ?_, { hgap with
      ok := s.between_frame.cfg ▸ h.ok, upc := s.between_frame.upc.trans h.upc, todo := h.todo }⟩
    rw [step_in_progress s h.ok h.upc, resume_here h.upc, if_pos hgap.asleep]

/-- A run goes on from its first step (Host/Core.lean). -/
theorem coreRun_succ {M : Host.Core} {s t : M.State} (k : Nat) (h : M.step s = .next t) :
    M.run (k + 1) s = M.run k t := by
  rw [Host.Core.run, h]

/-- No run ends it. -/
theorem Hung.run {u : Upc} (k : Nat) (h : Hung u s) :
    ∃ t, Sys2Proof.core.run k s = .next t ∧ Hung u t := by
  induction k generalizing s with
  | zero => exact ⟨s, rfl, h⟩
  | succ k ih =>
    obtain ⟨t, hstep, ht⟩ := h.next
    obtain ⟨v, hrun, hv⟩ := ih ht
    exact ⟨v, (coreRun_succ (M := Sys2Proof.core) k hstep).trans hrun, hv⟩

/-- No moves of the environment end it. -/
theorem Hung.moves {u : Upc} (moves : List (List Gap)) (h : Hung u s) :
    ∃ t, stepsUnder moves s = .next t ∧ Hung u t := by
  induction moves generalizing s with
  | nil => exact ⟨s, rfl, h⟩
  | cons e es ih =>
    have he : Hung u { s with env := e } := { h with spent := h.spent }
    obtain ⟨t, hstep, ht⟩ := he.next
    rw [stepsUnder, hstep, andThen_next]
    exact ih ht

/-- A sleep timer that is spent before `S2` is spent in the wait, which then nothing ends (R141). -/
theorem State.fallenAsleep_stuck (op : Instr) (rest : List Micro) {g : Gap} {gs : List Gap}
    (ha : s.sleeping = false) (hg : s.gie = true) (hdeaf : s.cfg.tickWakes = false)
    (he : s.env = g ::
      (List.replicate (256 - s.cfg.reloadS.toNat) .pulseS ++ [.take .wakeOvf]) :: gs) :
    Stuck (s.fallenAsleep op rest) where
  asleep := s.fallenAsleep_sleeping op rest
  deaf := by rw [State.fallenAsleep_cfg, hdeaf]
  spent := by
    have hgap : (State.between (State.atStart (s.timerArmed op rest) op
        (.maskInterrupts :: .armSleep :: .enterSleep :: .countMilli :: rest))).spent :=
      State.between_overflow (State.timerArmed_awake op rest ha)
        ((s.timerArmed_gie op rest).trans hg) (s.timerArmed_tmrS op rest)
        (s.timerArmed_env op rest ha he)
    exact State.fallenAsleep_of_masked (P := fun t => t.run = false ∧ t.ovf = false) op rest
      (fun u ua _ => u.spent_between ua) ha hgap

/-- Settles O35: the wait finds the timer that `S1` armed spent, and no gap and no step ends it. -/
theorem earlyOverflowHangs : Obligations.EarlyOverflowHangs := by
  intro ms s before after hok ha hg hdeaf hms he
  obtain ⟨n, hn⟩ : ∃ n, ms.toNat = n + 1 :=
    Nat.exists_eq_succ_of_ne_zero fun h => hms (BitVec.eq_of_toNat_eq h)
  obtain ⟨rest, hrest⟩ : ∃ rest, rest = sleepIterations n ++ [.disarmSleep] := ⟨_, rfl⟩
  have hexec := exec_slpms_falls hn ha
  rw [← hrest] at hexec
  obtain ⟨f, hf⟩ : ∃ f, f = (s.slpmsLoaded ms).fallenAsleep (.slpms ms) rest := ⟨_, rfl⟩
  have hstuck : Stuck f :=
    hf ▸ State.fallenAsleep_stuck (s := s.slpmsLoaded ms) _ _ ha hg hdeaf he
  have hframe := f.gapAt_frame (.slpms ms) (.countMilli :: rest)
  have hung : Hung ⟨.slpms ms, .countMilli :: rest⟩ (f.gapAt (.slpms ms) (.countMilli :: rest)) :=
    { Stuck.between (s := f.atStart (.slpms ms) (.countMilli :: rest)) { hstuck with } with
      ok := by rw [hframe.cfg]; show f.cfg.ok = true; rw [hf, State.fallenAsleep_cfg]; exact hok
      upc := hframe.upc
      todo := List.cons_ne_nil _ _ }
  rw [← hf, wait_sleeps _ _ hung.asleep] at hexec
  refine ⟨_, hexec, hung.asleep, by rw [hung.upc]; rfl, fun k => ?_, fun moves => ?_⟩
  · obtain ⟨u, hrun, hu⟩ := hung.run k
    exact ⟨u, hrun, hu.asleep, hu.upc.trans hung.upc.symm⟩
  · obtain ⟨u, hrun, hu⟩ := hung.moves moves
    exact ⟨u, hrun, hu.asleep, hu.upc.trans hung.upc.symm⟩

/-! ### A tick in a sleep -/

/-- The tick handler below the 250th tick (R180, R183). -/
theorem State.takeInterrupt_tick (h : s.takeable .tickOvf = true) (hlt : s.tick.toNat < 249) :
    (s.takeInterrupt .tickOvf).tick = s.tick + 1#8 ∧
      (s.takeInterrupt .tickOvf).tmrS = s.tmrS ∧
      (s.takeInterrupt .tickOvf).tickPending = false ∧
      (s.takeInterrupt .tickOvf).sleeping = (s.sleeping && !s.cfg.tickWakes) := by
  rw [s.takeInterrupt_eq_of_takeable h]
  refine ⟨?_, rfl, rfl, rfl⟩
  show (if s.tick + 1#8 = 250#8 then 0#8 else s.tick + 1#8) = _
  rw [if_neg (by bv_omega)]

/-- A wait in which the one gap takes a pending tick ends: with the sleep timer still running if the
tick wakes, and else by that timer's own overflow (R142, R183, log 8). -/
theorem State.doze_tick {r : Byte} (hs : s.sleeping = true) (hg : s.gie = true)
    (harm : s.tmrS = Timer.arm r) (hp : s.tickPending = true) (hlt : s.tick.toNat < 249) :
    (s.doze [[.take .tickOvf]]).sleeping = false ∧ (s.doze [[.take .tickOvf]]).env = [] ∧
      (s.doze [[.take .tickOvf]]).tick = s.tick + 1#8 ∧
      (s.doze [[.take .tickOvf]]).tmrS.run = s.cfg.tickWakes := by
  obtain ⟨v, hv⟩ : ∃ v, v = State.takeInterrupt { s with env := [] } .tickOvf := ⟨_, rfl⟩
  have hdoze : s.doze [[.take .tickOvf]] =
      if v.sleeping then { v with env := [] }.fairRest else v := by rw [hv]; rfl
  have htake : State.takeable { s with env := [] } .tickOvf = true := by
    simpa [State.takeable, State.tickPending, hg] using hp
  obtain ⟨vtick, vtmrS, vpend, vs⟩ := hv ▸ State.takeInterrupt_tick htake hlt
  have venv : v.env = [] := by simp [hv]
  have vgie : v.gie = true := by simp [hv, hg]
  have varm : v.tmrS = Timer.arm r := vtmrS.trans harm
  have vs : v.sleeping = !s.cfg.tickWakes := by rw [vs, hs, Bool.true_and]
  rw [hdoze]
  cases hw : s.cfg.tickWakes with
  | true =>
    have hawake : v.sleeping = false := by rw [vs, hw]; rfl
    rw [if_neg (by simp [hawake])]
    exact ⟨hawake, venv, vtick, congrArg Timer.run varm⟩
  | false =>
    have hasleep : v.sleeping = true := by rw [vs, hw]; rfl
    have hrest := (fairRest_sleep { v with env := [] } hasleep vgie r varm).2.2 vpend
    rw [if_pos hasleep, hrest]
    exact ⟨rfl, rfl, vtick, rfl⟩

theorem State.between_tick {r : Byte} (hs : s.sleeping = true) (hg : s.gie = true)
    (harm : s.tmrS = Timer.arm r) (hp : s.tickPending = true) (hlt : s.tick.toNat < 249)
    (he : s.env = [[.take .tickOvf]]) :
    s.between.sleeping = false ∧ s.between.env = [] ∧ s.between.tick = s.tick + 1#8 ∧
      s.between.tmrS.run = s.cfg.tickWakes := by
  have hbetween : s.between = s.drift.doze [[.take .tickOvf]] := by
    simp only [State.between]
    rw [if_pos (by simp [hs]), s.drift_env, he]
  have hdoze := State.doze_tick (s := s.drift) (r := r) (by simp [hs]) (by simp [hg])
    (by simp [harm]) (by simpa [State.tickPending] using hp) (by simpa using hlt)
  rwa [s.drift_tick, s.drift_frame.cfg, ← hbetween] at hdoze

/-- Settles O36: the wait ends after the tick, and `S6` moves no timer. -/
theorem tickInSleepWakesIfConfigured : Obligations.TickInSleepWakesIfConfigured := by
  intro s ha hp hlt he
  obtain ⟨f, hf⟩ : ∃ f, f =
    (s.slpmsLoaded 1#16).fallenAsleep (.slpms 1#16) [.disarmSleep] := ⟨_, rfl⟩
  obtain ⟨fenv, ftick, ftmrT, ftmrS⟩ := hf ▸
    State.fallenAsleep_silent (s := s.slpmsLoaded 1#16) (.slpms 1#16) [.disarmSleep] ha he
  have hcfg : f.cfg = s.cfg := hf ▸ State.fallenAsleep_cfg _ _ _
  have hsleeping : f.sleeping = true := hf ▸ State.fallenAsleep_sleeping _ _ _
  have hpend : f.tickPending = true := by rw [State.tickPending, ftmrT]; exact hp
  obtain ⟨gawake, genv, gtick, grun⟩ := State.between_tick
    (s := f.atStart (.slpms 1#16) [.countMilli, .disarmSleep]) hsleeping (hf ▸ rfl) ftmrS hpend
    (by rw [State.atStart, ftick]; exact hlt) fenv
  obtain ⟨t, hend, hawake, hquiet⟩ := lastWait_ends (s := f) (.slpms 1#16) rfl gawake
  have q := hquiet genv
  refine ⟨_, (exec_slpms_falls (n := 0) rfl ha).trans (hf ▸ hend), State.finish_ended _ hawake,
    ?_, ?_⟩
  · rw [State.finish_tick, q.tick]
    exact gtick.trans (congrArg (· + 1#8) ftick)
  · rw [State.finish_tmrS, q.tmrS]
    exact grun.trans (congrArg Config.tickWakes hcfg)

end Sys2Proof.Machine
end

section
/-! The clock tick service (R150 to R157): its commands of one micro-step, and that no step undoes
the start of a timer (R150, R174). -/

namespace Sys2Proof.Machine

/-! ### Timers once started -/

/-- What `TSTART` and `SLPMS` started is still so: a running tick timer runs, and a timer interrupt
that was enabled is (R150, R174). The sleep timer may have stopped (R181). -/
structure StartedFrame (s t : State) : Prop where
  runT : s.tmrT.run = true → t.tmrT.run = true
  ieT  : s.tmrT.ie = true → t.tmrT.ie = true
  ieS  : s.tmrS.ie = true → t.tmrS.ie = true

theorem StartedFrame.trans {s t u : State} (h : StartedFrame s t) (k : StartedFrame t u) :
    StartedFrame s u :=
  ⟨fun hs => k.runT (h.runT hs), fun hs => k.ieT (h.ieT hs), fun hs => k.ieS (h.ieS hs)⟩

theorem StartedFrame.of_timers {s t : State} (hT : t.tmrT = s.tmrT) (hS : t.tmrS = s.tmrS) :
    StartedFrame s t := by
  constructor <;> simp [hT, hS]

/-- A handler clears the pending bit, and only the wake handler writes another bit: it stops the
sleep timer (R178, R180, R181). -/
theorem State.takeInterrupt_started (s : State) (x : Source) :
    StartedFrame s (s.takeInterrupt x) := by
  cases ht : s.takeable x with
  | false => rw [s.takeInterrupt_eq_self ht]; exact .of_timers rfl rfl
  | true =>
    rw [s.takeInterrupt_eq_of_takeable ht]
    cases x <;> exact ⟨id, id, id⟩

theorem State.occur_started (s : State) (e : Event) : StartedFrame s (s.occur e) := by
  cases e with
  | pulseT => exact ⟨(Timer.pulse_run _).trans, (Timer.pulse_ie _).trans, id⟩
  | pulseS => exact ⟨id, id, (Timer.pulse_ie _).trans⟩
  | take x => exact s.takeInterrupt_started x
  | ext p v => exact .of_timers rfl rfl

theorem State.memWrite_started {s t : State} {a : Nat} {v : Byte} (h : s.memWrite a v = .next t) :
    StartedFrame s t := by
  obtain ⟨-, -, rfl⟩ := State.memWrite_next h
  exact .of_timers (by simp) (by simp)

/-- The two micro-steps that write a timer start it with its interrupt enabled (R138 `S1`, R150). -/
theorem micro_started {m : Micro} {s t : State} (h : micro m s = .next t) : StartedFrame s t := by
  cases m with
  | startTick => cases h; exact ⟨fun _ => rfl, fun _ => rfl, id⟩
  | armTimer => cases h; exact ⟨id, id, fun _ => rfl⟩
  | readDir pin => obtain ⟨v, rfl⟩ := State.readToTmp_next h; exact .of_timers rfl rfl
  | readOut pin => obtain ⟨v, rfl⟩ := State.readToTmp_next h; exact .of_timers rfl rfl
  | samplePin pin => obtain ⟨v, r, rfl⟩ := State.samplePin_next h; exact .of_timers rfl rfl
  | writeDir pin dir => exact State.memWrite_started h
  | writeOut pin lvl => exact State.memWrite_started h
  | _ => cases h; exact .of_timers rfl rfl

theorem step_started {s t : State} (h : step s = .next t) : StartedFrame s t :=
  have occur (u : State) (e : Event) (k : StartedFrame s u) : StartedFrame s (u.occur e) :=
    k.trans (u.occur_started e)
  step_closed (P := StartedFrame s)
    (gap := fun _ => State.between_closed occur (fun _ _ k => k.trans (.of_timers rfl rfl))
      fun _ k _ => k.trans (.of_timers rfl rfl))
    (upc := fun _ _ k => k.trans (.of_timers rfl rfl))
    (finish := fun u op k => k.trans (.of_timers (u.finish_tmrT op) (u.finish_tmrS op)))
    (refuse := fun _ k => k.trans (.of_timers rfl rfl))
    (micros := fun _ _ _ hm k => k.trans (micro_started hm))
    (accept := fun _ _ k => k.trans (.of_timers rfl rfl))
    (idle := fun _ => State.fairIdle_closed occur)
    (.of_timers rfl rfl) h

/-- Settles O60: every event and every micro-step keeps what was started, and the other pieces of a
step write no timer. -/
theorem startedTimersStayEnabled : Obligations.StartedTimersStayEnabled := by
  intro s t h
  obtain ⟨hrunT, hieT, hieS⟩ := step_started h
  exact ⟨hrunT, hieT, hieS⟩

/-! ### Commands of one micro-step -/

/-- An operation of one micro-step that uses no temporary is that micro-step and the end of the
command: no gap falls inside it (R22, R23). -/
theorem runOp_single {op : Instr} {m : Micro} {s t : State} (hop : usesTemps op = false)
    (hm : micro m (s.atStart op [m]) = .next t) :
    runOp op [m] s = .next { t with busy := false, upc := none } := by
  rw [runOp_cons, hm, ← t.finish_plain op hop]
  rfl

/-- Settles O37: the one micro-step arms the tick timer with `RELOAD_T`. -/
theorem tstartArmsTickTimer : Obligations.TstartArmsTickTimer :=
  fun _ => ⟨by decide, runOp_single (op := .tstart) (m := .startTick) rfl rfl⟩

/-- Settles O38. -/
theorem secrdReadsSeconds : Obligations.SecrdReadsSeconds :=
  fun s => ⟨by decide, exec_secrd s⟩

/-- Settles O39. -/
theorem secclrClearsSeconds : Obligations.SecclrClearsSeconds :=
  fun s => ⟨by decide, exec_secclr s⟩

/-- Settles O40: each of the two commands is one micro-step that writes `GIE`. -/
theorem ienIdisWriteGie : Obligations.IenIdisWriteGie :=
  fun _ => ⟨by decide, by decide,
    runOp_single (op := .ien) (m := .enableInterrupts) rfl rfl,
    runOp_single (op := .idis) (m := .disableInterrupts) rfl rfl⟩

end Sys2Proof.Machine
end

section
/-! The symbol ROM (R165 to R169): the look-up `SYM`, and what R166 asks of every table. -/

namespace Sys2Proof.Machine

/-! ### The look-up -/

/-- `SYM` of a digit the table has is one micro-step, which writes `RES` (R165). -/
theorem exec_sym {digit : Byte} (s : State) (h : digit.toNat < Config.nSym) :
    exec (.sym digit) s = .next { s with
      res := symtabEntry s.cfg digit, busy := false, upc := none } := by
  have hwf : WellFormed s.cfg (.sym digit) = true := decide_eq_true h
  rw [exec_wellFormed hwf]
  exact runOp_single (op := .sym digit) (m := .readSymbol digit) rfl rfl

/-- Settles O43. -/
theorem symReadsTable : Obligations.SymReadsTable :=
  fun _ s h => ⟨rfl, exec_sym s h⟩

/-! ### The table -/

theorem Config.ok_symtabOk {c : Config} (h : c.ok = true) : c.symtabOk = true := by
  rw [Config.ok, Bool.and_eq_true] at h
  exact h.2

theorem Config.symtabOk_iff {c : Config} : c.symtabOk = true ↔
    c.symtab.length = Config.nSym ∧ (∀ e ∈ c.symtab, e.getLsbD 7 = false) ∧
      c.symtab.head? = some 0x3F#8 := by
  simp [Config.symtabOk, and_assoc]

/-- Digit 0 reads the head of the table. -/
theorem symtabEntry_zero {c : Config} {e : Byte} (h : c.symtab.head? = some e) :
    symtabEntry c 0#8 = e := by
  obtain ⟨rest, hcons⟩ := List.head?_eq_some_iff.1 h
  rw [symtabEntry, hcons]
  rfl

/-- What a look-up answers is an entry of the table, or the default past its end. -/
theorem symtabEntry_mem_or_zero (c : Config) (d : Byte) :
    symtabEntry c d ∈ c.symtab ∨ symtabEntry c d = 0#8 := by
  rcases Nat.lt_or_ge d.toNat c.symtab.length with hlt | hge
  · left
    rw [symtabEntry, List.getD_eq_getElem _ _ hlt]
    exact List.getElem_mem hlt
  · exact .inr (List.getD_eq_default _ _ hge)

/-- Settles O44: the reference table and its configuration by evaluation, any other well-formed one
by the test of its table. -/
theorem symbolTableEntries : Obligations.SymbolTableEntries := by
  refine ⟨rfl, by decide, fun c hok => ?_⟩
  obtain ⟨hlength, hbit7, hhead⟩ := Config.symtabOk_iff.1 (Config.ok_symtabOk hok)
  refine ⟨hlength, symtabEntry_zero hhead, fun d => ?_⟩
  rcases symtabEntry_mem_or_zero c d with hmem | hzero
  · exact hbit7 _ hmem
  · rw [hzero]
    rfl

end Sys2Proof.Machine
end

section
/-! The interrupts and their timers (R170 to R183): counting, what the taking of a source does, that
two sources commute, and the tick handler's count of the seconds. -/

namespace Sys2Proof.Machine

/-! ### Counting -/

/-- While `RUN = 0` count pulses do nothing (R171, R172). -/
theorem Timer.pulse_of_stopped {t : Timer} (h : t.run = false) : t.pulse = t := by
  rw [Timer.pulse, if_neg (by simp [h])]

/-- Settles O45: pulses count up to 255, the next one is the wrap, and a stopped timer is a fixed
point of the pulse. -/
theorem timerCountsAndOverflows : Obligations.TimerCountsAndOverflows := by
  refine ⟨fun _ => ⟨rfl, rfl⟩, fun t k => ⟨pulse_count t k, fun hrun hk => ?_,
    fun hstop => Function.iterate_fixed (Timer.pulse_of_stopped hstop) k⟩⟩
  obtain rfl : k = 256 - t.cnt.toNat := by omega
  exact pulse_over t hrun

/-! ### Taking one source -/

theorem State.takeable_iff (s : State) (x : Source) : s.takeable x = true ↔
    s.gie = true ∧ (s.timer x).ovf = true ∧ (s.timer x).ie = true := by
  simp [State.takeable, and_assoc]

/-- Entry, body and return of the tick interrupt (R178, R180, R183). -/
theorem State.takeInterrupt_tickOvf (s : State) (h : s.takeable .tickOvf = true) :
    s.takeInterrupt .tickOvf = { s with
      tmrT := { s.tmrT with cnt := 239#8, ovf := false }
      tick := if s.tick + 1#8 = 250#8 then 0#8 else s.tick + 1#8
      sec := if s.tick + 1#8 = 250#8 then s.sec + 1#8 else s.sec
      gie := true
      sleeping := s.sleeping && !s.cfg.tickWakes } :=
  s.takeInterrupt_eq_of_takeable h

/-- The return from the wake interrupt wakes the main context, whatever the configuration (R183). -/
theorem State.leaveHandler_wakeOvf (s : State) :
    s.leaveHandler .wakeOvf = { s with gie := true, sleeping := false } := by
  simp [State.leaveHandler, State.wakes]

/-- Entry, body and return of the wake interrupt (R178, R181, R183). -/
theorem State.takeInterrupt_wakeOvf (s : State) (h : s.takeable .wakeOvf = true) :
    s.takeInterrupt .wakeOvf = { s with
      tmrS := { s.tmrS with run := false, ovf := false }, gie := true, sleeping := false } := by
  rw [s.takeInterrupt_eq_of_takeable h, State.leaveHandler_wakeOvf]
  rfl

/-- Settles O47. -/
theorem interruptTaken : Obligations.InterruptTaken := by
  intro s
  have untaken (x : Source)
      (h : ¬ (s.gie = true ∧ (s.timer x).ovf = true ∧ (s.timer x).ie = true)) :
      s.takeInterrupt x = s :=
    s.takeInterrupt_eq_self (Bool.eq_false_of_not_eq_true (mt (s.takeable_iff x).1 h))
  exact ⟨fun h => s.takeInterrupt_tickOvf ((s.takeable_iff .tickOvf).2 h), untaken .tickOvf,
    fun h => s.takeInterrupt_wakeOvf ((s.takeable_iff .wakeOvf).2 h), untaken .wakeOvf⟩

/-! ### Taking both -/

/-- Taking a source leaves the other source's timer alone (R178, R180, R181). -/
theorem State.takeInterrupt_timer_of_ne (s : State) {x y : Source} (h : x ≠ y) :
    (s.takeInterrupt x).timer y = s.timer y := by
  unfold State.takeInterrupt
  split
  · cases x with
    | tickOvf =>
      cases y with
      | tickOvf => exact absurd rfl h
      | wakeOvf => rfl
    | wakeOvf =>
      cases y with
      | tickOvf => rfl
      | wakeOvf => exact absurd rfl h
  · rfl

/-- So the other source stays as takeable as it was (R177, R179). -/
theorem State.takeInterrupt_takeable_of_ne (s : State) {x y : Source} (h : x ≠ y) :
    (s.takeInterrupt x).takeable y = s.takeable y := by
  rw [State.takeable, s.takeInterrupt_gie, s.takeInterrupt_timer_of_ne h, State.takeable]

/-- Settles O49: the handlers write different registers, but for `GIE`, which both set, and
`SLEEPING`, which both clear or leave. -/
theorem interruptOrderUnobservable : Obligations.InterruptOrderUnobservable := by
  intro s htick hwake
  have hwake' : (s.takeInterrupt .tickOvf).takeable .wakeOvf = true :=
    (s.takeInterrupt_takeable_of_ne (by decide)).trans hwake
  have htick' : (s.takeInterrupt .wakeOvf).takeable .tickOvf = true :=
    (s.takeInterrupt_takeable_of_ne (by decide)).trans htick
  refine ⟨hwake', htick', ?_⟩
  rw [State.takeInterrupt_wakeOvf _ hwake', State.takeInterrupt_tickOvf _ htick',
    s.takeInterrupt_tickOvf htick, s.takeInterrupt_wakeOvf hwake]
  rfl

/-! ### The seconds -/

/-- Below the 250th tick the handler counts the tick (R180). -/
theorem State.tickHandler_below {s : State} (h : s.tick.toNat < 249) :
    s.tickHandler.tick = s.tick + 1#8 ∧ s.tickHandler.sec = s.sec := by
  have hne : s.tick + 1#8 ≠ 250#8 := by bv_omega
  exact ⟨if_neg hne, if_neg hne⟩

/-- At the 250th it counts the second (R180). -/
theorem State.tickHandler_wrap {s : State} (h : s.tick = 249#8) :
    s.tickHandler.tick = 0#8 ∧ s.tickHandler.sec = s.sec + 1#8 := by
  have heq : s.tick + 1#8 = 250#8 := by rw [h]; rfl
  exact ⟨if_pos heq, if_pos heq⟩

/-- From `TICK = 0`, up to 249 runs of the handler count ticks and no second (R180). -/
theorem State.tickHandler_iterate {s : State} (h : s.tick = 0#8) {k : Nat} (hk : k ≤ 249) :
    (State.tickHandler^[k] s).tick = BitVec.ofNat 8 k ∧ (State.tickHandler^[k] s).sec = s.sec := by
  induction k with
  | zero => exact ⟨h, rfl⟩
  | succ k ih =>
    obtain ⟨htick, hsec⟩ := ih (by omega)
    have hlt : (State.tickHandler^[k] s).tick.toNat < 249 := by
      rw [htick, BitVec.toNat_ofNat]; omega
    obtain ⟨htick', hsec'⟩ := State.tickHandler_below hlt
    rw [Function.iterate_succ_apply', htick', hsec', htick, ← BitVec.ofNat_add]
    exact ⟨rfl, hsec⟩

/-- Settles O50: 249 runs count ticks, and the next one the second. -/
theorem twoHundredFiftyTicksMakeASecond : Obligations.TwoHundredFiftyTicksMakeASecond := by
  intro s h
  obtain ⟨htick, hsec⟩ := State.tickHandler_iterate h (le_refl 249)
  obtain ⟨htick', hsec'⟩ := State.tickHandler_wrap htick
  rw [Function.iterate_succ_apply' _ 249, htick', hsec', hsec]
  exact ⟨⟨htick, rfl⟩, rfl, rfl⟩

end Sys2Proof.Machine
end

section
/-! How many micro-steps and how many delay units an operation has (R225, R226): a count for each
list the operations are put together from, for every `DELAY_STEPS`. -/

namespace Sys2Proof.Machine

variable (c : Config)

/-! ### Micro-steps -/

@[simp] theorem pwrProg_length (pin : Pin) (lvl : LevelSrc) : (pwrProg pin lvl).length = 2 := rfl

@[simp] theorem bdlyProg_length (units : Byte) : (bdlyProg units).length = 1 + units.toNat := by
  rw [bdlyProg, List.length_cons, List.length_replicate, Nat.add_comm]

@[simp] theorem pulseProg_length (pin : Pin) :
    (pulseProg c pin).length = 6 + 2 * c.delaySteps.toNat := by
  simp only [pulseProg, List.length_append, pwrProg_length, bdlyProg_length]
  omega

@[simp] theorem shiftBits_length (n : Nat) :
    (shiftBits c n).length = n * (9 + 2 * c.delaySteps.toNat) := by
  induction n with
  | zero => rw [Nat.zero_mul]; rfl
  | succ n ih =>
    simp only [shiftBits, shiftBitProg, List.length_append, List.length_singleton, pwrProg_length,
      pulseProg_length, ih, Nat.add_one_mul]
    omega

@[simp] theorem shbProg_length (src : ByteSrc) :
    (shbProg c src).length = 73 + 16 * c.delaySteps.toNat := by
  rw [shbProg, List.length_cons, shiftBits_length]
  omega

@[simp] theorem sleepIterations_length (n : Nat) : (sleepIterations n).length = 5 * n := by
  induction n with
  | zero => rfl
  | succ n ih => rw [sleepIterations, List.length_append, ih, Nat.mul_succ, Nat.add_comm]; rfl

@[simp] theorem slpmsProg_length (ms : Millis) :
    (slpmsProg ms).length = 1 + 5 * ms.toNat + 1 := by
  rw [slpmsProg, List.length_cons, List.length_append, List.length_singleton,
    sleepIterations_length]
  omega

/-- The iterations of `SLPMS` run each of their micro-steps once an iteration (R138). -/
theorem sleepIterations_count (m : Micro) (n : Nat) :
    (sleepIterations n).count m = n * sleepIteration.count m := by
  induction n with
  | zero => rw [Nat.zero_mul]; rfl
  | succ n ih => rw [sleepIterations, List.count_append, ih, Nat.succ_mul, Nat.add_comm]

/-- `SLPMS` goes to sleep once for each millisecond (R138, R226). -/
theorem slpmsProg_sleeps (ms : Millis) : (slpmsProg ms).count .enterSleep = ms.toNat := by
  have hone : sleepIteration.count .enterSleep = 1 := by decide
  simp [slpmsProg, sleepIterations_count, hone]

/-- Settles O11: a command that is not refused runs its list, and each list's length is the sum of
the lengths of its pieces. -/
theorem microStepCounts : Obligations.MicroStepCounts := by
  refine ⟨fun _ _ => exec_wellFormed, fun c hd => ?_⟩
  have hpulse (pin : Pin) : (pulseProg c pin).length = 10 := by rw [pulseProg_length, hd]; rfl
  have hshb (src : ByteSrc) : (shbProg c src).length = 105 := by rw [shbProg_length, hd]; rfl
  exact ⟨fun _ _ => rfl, fun _ => rfl, fun _ _ => rfl, bdlyProg_length, hpulse,
    fun byte => hshb (.lit byte), hshb, hpulse c.latPin, rfl, rfl, rfl, rfl, rfl, fun _ => rfl,
    fun n => ⟨slpmsProg_length n, slpmsProg_sleeps n⟩⟩

/-! ### Delay units -/

theorem delayUnits_append (ms ns : List Micro) :
    delayUnits (ms ++ ns) = delayUnits ms + delayUnits ns := List.count_append

theorem delayUnits_cons_of_ne {m : Micro} {ms : List Micro} {n : Nat} (hm : m ≠ .delayUnit)
    (hms : delayUnits ms = n) : delayUnits (m :: ms) = n := (List.count_cons_of_ne hm).trans hms

@[simp] theorem delayUnits_pwrProg (pin : Pin) (lvl : LevelSrc) :
    delayUnits (pwrProg pin lvl) = 0 := rfl

@[simp] theorem delayUnits_bdlyProg (units : Byte) : delayUnits (bdlyProg units) = units.toNat :=
  delayUnits_cons_of_ne nofun List.count_replicate_self

@[simp] theorem delayUnits_pulseProg (pin : Pin) :
    delayUnits (pulseProg c pin) = 2 * c.delaySteps.toNat := by
  simp only [pulseProg, delayUnits_append, delayUnits_pwrProg, delayUnits_bdlyProg]
  omega

@[simp] theorem delayUnits_shiftBits (n : Nat) :
    delayUnits (shiftBits c n) = n * (2 * c.delaySteps.toNat) := by
  induction n with
  | zero => rw [Nat.zero_mul]; rfl
  | succ n ih =>
    have hnext : delayUnits [.nextBit] = 0 := rfl
    simp only [shiftBits, shiftBitProg, delayUnits_append, delayUnits_pwrProg,
      delayUnits_pulseProg, hnext, ih, Nat.add_one_mul]
    omega

@[simp] theorem delayUnits_shbProg (src : ByteSrc) :
    delayUnits (shbProg c src) = 16 * c.delaySteps.toNat :=
  delayUnits_cons_of_ne nofun (by rw [delayUnits_shiftBits, ← Nat.mul_assoc])

@[simp] theorem delayUnits_latProg : delayUnits (latProg c) = 2 * c.delaySteps.toNat :=
  delayUnits_pulseProg c c.latPin

/-- A sleep is timed by the sleep timer and not by delay units (R138, R225). -/
@[simp] theorem delayUnits_slpmsProg (ms : Millis) : delayUnits (slpmsProg ms) = 0 := by
  have hnone : sleepIteration.count .delayUnit = 0 := by decide
  simp [delayUnits, slpmsProg, sleepIterations_count, hnone]

@[simp] theorem delayUnits_digitProg : delayUnits (digitProg c) = 34 * c.delaySteps.toNat := by
  have hnext : delayUnits [.nextDigit] = 0 := rfl
  refine delayUnits_cons_of_ne nofun ?_
  simp only [delayUnits_append, delayUnits_shbProg, delayUnits_latProg, delayUnits_slpmsProg, hnext]
  omega

@[simp] theorem delayUnits_digitsProg (n : Nat) :
    delayUnits (digitsProg c n) = n * (34 * c.delaySteps.toNat) := by
  induction n with
  | zero => rw [Nat.zero_mul]; rfl
  | succ n ih =>
    rw [digitsProg, delayUnits_append, delayUnits_digitProg, ih, Nat.add_one_mul n, Nat.add_comm]

@[simp] theorem delayUnits_indProg (s0 s1 s2 s3 : Byte) :
    delayUnits (indProg c s0 s1 s2 s3) = 136 * c.delaySteps.toNat :=
  delayUnits_cons_of_ne nofun (by rw [delayUnits_digitsProg, ← Nat.mul_assoc])

/-- Settles O12. -/
theorem delayUnitCounts : Obligations.DelayUnitCounts :=
  fun c => ⟨delayUnits_pulseProg c, delayUnits_shbProg c, delayUnits_latProg c,
    delayUnits_digitProg c, delayUnits_indProg c⟩

end Sys2Proof.Machine
end

section
/-! The second lost between the host's read and its reset (R211): program P2 with the tick handler
run before or after `SECCLR`. -/

namespace Sys2Proof.Machine

variable {s : State}

/-- The tick handler taken at `TICK = 249` counts the second (R180). -/
theorem State.takeInterrupt_wrap (h : s.takeable .tickOvf = true) (htick : s.tick = 249#8) :
    (s.takeInterrupt .tickOvf).tick = 0#8 ∧ (s.takeInterrupt .tickOvf).sec = s.sec + 1#8 := by
  rw [s.takeInterrupt_eq_of_takeable h]
  exact State.tickHandler_wrap (s := s.enterHandler .tickOvf) htick

/-- An undriven chain's changes make no interrupt due (R113, R176). -/
@[simp] theorem State.drift_takeable (x : Source) : s.drift.takeable x = s.takeable x := by
  unfold State.drift; split <;> rfl

/-- An idle block plays the next gap and carries out the host's next word (R20, R176). -/
theorem step_after_gap {w : CmdWord} {i : Instr} {rest : List CmdWord} {g : Gap} {gs : List Gap}
    (hinv : s.inv = true) (hu : s.upc = none) (hw : s.cmds = w :: rest) (he : s.env = g :: gs)
    (hdec : decode w = .ok i) :
    step s = exec i ((({ s.drift with env := gs } : State).play g).accept w) := by
  obtain ⟨hok, -⟩ := s.inv_iff.1 hinv
  obtain ⟨hb, ha, -⟩ := State.inv_idle hinv hu
  rw [stepRunsDecodedCommand s w i hok hu hb ha (by rw [hw, List.head?_cons]) hdec,
    State.between_of_env ha he]

/-- Program P2 after its `SECRD`: the seconds are read, `SECCLR` is the host's next word, and the
tick that carries `TICK` from 249 is due (R211). -/
structure SecondsRead (rest : List CmdWord) (gs : List Gap) (s t : State) : Prop where
  inv  : t.inv = true
  upc  : t.upc = none
  cmds : t.cmds = 0x3200000000#40 :: rest
  env  : t.env = gs
  res  : t.res = s.sec
  tick : t.tick = 249#8
  due  : t.takeable .tickOvf = true

/-- `SECRD` after a gap in which nothing happens reads the seconds and leaves a due tick due. -/
theorem secrd_reads {rest : List CmdWord} {gs : List Gap} (hinv : s.inv = true)
    (hu : s.upc = none) (hw : s.cmds = 0x3100000000#40 :: 0x3200000000#40 :: rest)
    (he : s.env = [] :: gs) (hdue : s.takeable .tickOvf = true) (htick : s.tick = 249#8) :
    ∃ t, step s = .next t ∧ SecondsRead rest gs s t := by
  have hstep := step_after_gap hinv hu hw he (i := .secrd) (by decide)
  rw [exec_secrd, State.play_nil] at hstep
  exact ⟨_, hstep,
    { inv := stepKeepsInvariant _ _ hinv hstep
      upc := rfl
      cmds := by simp [s.drift_frame.cmds, hw]
      env := rfl
      res := s.drift_sec
      tick := s.drift_tick.trans htick
      due := (s.drift_takeable _).trans hdue }⟩

/-- `SECCLR` clears the seconds and nothing else that the gap before it left of the tick service
(R154). -/
theorem SecondsRead.clear {rest : List CmdWord} {g : Gap} {gs : List Gap} {t : State}
    (h : SecondsRead rest (g :: gs) s t) :
    ∃ u, step t = .next u ∧ u.sec = 0#8 ∧
      u.tick = (({ t.drift with env := gs } : State).play g).tick ∧
      ∀ x, u.takeable x = (({ t.drift with env := gs } : State).play g).takeable x := by
  have hstep := step_after_gap h.inv h.upc h.cmds h.env (i := .secclr) (by decide)
  rw [exec_secclr] at hstep
  exact ⟨_, hstep, rfl, rfl, fun _ => rfl⟩

/-- Settles O41: the handler counts the second in the gap before `SECCLR`, which clears it, or after
`SECCLR`, and then the second stays. -/
theorem secondLostBetweenReadAndClear : Obligations.SecondLostBetweenReadAndClear := by
  intro s rest after hinv hu hw hdue htick
  constructor
  · intro he
    obtain ⟨t, hread, h⟩ := secrd_reads hinv hu hw he hdue htick
    obtain ⟨u, hclear, hsec, hutick, -⟩ := h.clear
    obtain ⟨hwrap, -⟩ := State.takeInterrupt_wrap (s := { t.drift with env := after })
      ((t.drift_takeable _).trans h.due) (t.drift_tick.trans h.tick)
    exact ⟨t, u, hread, hclear, h.res, hsec, hutick.trans hwrap⟩
  · intro he
    obtain ⟨t, hread, h⟩ := secrd_reads hinv hu hw he hdue htick
    obtain ⟨u, hclear, hsec, hutick, hudue⟩ := h.clear
    have hu249 : u.tick = 249#8 := hutick.trans (t.drift_tick.trans h.tick)
    obtain ⟨-, hwrap⟩ := State.takeInterrupt_wrap
      ((hudue _).trans ((t.drift_takeable _).trans h.due)) hu249
    exact ⟨t, u, hread, hclear, h.res, hsec, hu249, by rw [hwrap, hsec]; rfl⟩

end Sys2Proof.Machine
end
